-- ==== Sys2Proof/Word.lean ====
section
/-! DEFINITION. The register word and the memory byte (spec/00_scope.md R5 `XLEN`, R8). -/

namespace Sys2Proof

/-- A register, the command word or a DMEM address: 32 bits (R5 `XLEN`, `ALEN`). -/
abbrev Word := BitVec 32

/-- One byte of DMEM (R60). -/
abbrev Byte := BitVec 8

end Sys2Proof
end

