-- ==== Sys2Proof/Config.lean ====
section
/-! DEFINITION. The parameters of the model and the values the spec leaves unspecified
(spec/00_scope.md R5, R6, R9; spec/93_implementation_defined.md). -/

namespace Sys2Proof

/-- `num_filters` of a coefficient table: 4, 5, 6 or 7; no other value is in the parameter's type (R6). -/
inductive FilterCount where
  | n4
  | n5
  | n6
  | n7
deriving DecidableEq, Repr

/-- One filter description of the coefficient store (R6).  `coef` holds `num_filters` rows of
`filter_length` coefficients each: row `j`, column `m` is `coef[j][m]`, an `int32` read as Q1.31. -/
structure FilterEntry where
  numFilters   : FilterCount
  filterLength : Nat
  coef         : List (List Word)
deriving DecidableEq, Repr

/-- One rate pair of `FilterROM` with its entry (R6). -/
structure FilterRow where
  fsPrim : Nat
  fsSec  : Nat
  entry  : FilterEntry
deriving DecidableEq, Repr

/-- The parameters a model takes as arguments (R5).  They are fixed for a run (R52); a rule reads
them and builds none of their defaults in. -/
structure Params where
  /-- `MAX_CHANNELS` -/
  maxChannels     : Nat
  /-- `RING_CAPACITY`, samples per channel -/
  ringCapacity    : Nat
  /-- `MAX_FILTER_LENGTH` -/
  maxFilterLength : Nat
  /-- `RATIO_MIN`, Q5.27 -/
  ratioMin        : Nat
  /-- `RATIO_MAX`, Q5.27 -/
  ratioMax        : Nat
  /-- `FilterROM`, a partial function from rate pairs (R6), as the list of the pairs it has -/
  filterRom       : List FilterRow
deriving DecidableEq, Repr

/-- `SUPPORTED_RATES` in Hz (R5). -/
def Config.supportedRates : List Nat :=
  [8000, 11025, 12000, 16000, 22050, 24000, 32000, 44100, 48000]

/-- `TIME_FRAC`: fractional bits of the ratios and the time accumulators, Q5.27 (R5). -/
def Config.timeFrac : Nat := 27

/-- `SKEW_FRAC`: fractional bits of `clock_skew`, Q2.30 (R5). -/
def Config.skewFrac : Nat := 30

/-- `COEF_FRAC`: fractional bits of a coefficient and of a tap, Q1.31 (R5). -/
def Config.coefFrac : Nat := 31

/-- `ONE`: 1.0 in Q5.27 (R9). -/
def Config.one : Nat := 134217728

/-- `FilterROM` of the reset state: OPEN, so nothing is known of it (R5, R6; assumption 1). -/
opaque Config.filterRom : List FilterRow

/-- The parameters at their stated defaults (R5), with the open coefficient store. -/
def Config.defaults : Params where
  maxChannels := 8
  ringCapacity := 256
  maxFilterLength := 128
  ratioMin := 22369621
  ratioMax := 805306368
  filterRom := Config.filterRom

/-- The value a linear pull leaves in `A[3]`: any 32-bit value (R216, U1; assumption 5).  The argument
is the state's free-value counter. -/
opaque Config.freeReadIndex : Nat → Word

/-- What an unspecified cell of `RING` holds (R73, U7, U8; assumption 6): counter, channel, position. -/
opaque Config.freeRingCell : Nat → Nat → Nat → Word

/-- What an unspecified cell of `COEF` holds (R71, R73, U7 to U9; assumption 6): counter, row, tap. -/
opaque Config.freeCoefCell : Nat → Nat → Nat → Word

/-- What an unspecified cell of `IR` holds (R51, R73, U4; assumption 6): counter, tap. -/
opaque Config.freeTap : Nat → Nat → Word

/-- The pointer register a channel number above 15 would name: there is none, and no run asks for one
(R23; assumption 7). -/
opaque Config.absentPointer : Nat → Word

/-- The tap of an evaluator the block does not have, `NUM_FILTERS` outside 4..7, which no run reaches
(R142; assumption 7): `NUM_FILTERS` and the tap index. -/
opaque Config.absentEvaluator : Nat → Nat → Int

end Sys2Proof
end

