-- ==== Sys2Proof/Syntax.lean ====
section
/-! DEFINITION. The enumerations a command word or a register can hold, and the thirteen commands
(spec/00_scope.md R16; spec/30_encoding.md R96). -/

namespace Sys2Proof

/-- `input_format` and `output_format` (R16): 0 is `INTERLEAVED`, 1 is `DEINTERLEAVED` ("planar"). -/
inductive Layout where
  | interleaved
  | deinterleaved
deriving DecidableEq, Repr

/-- `buffer_mode` (R16): 0 is `LINEAR`, 1 is `CIRCULAR`. -/
inductive BufferMode where
  | linear
  | circular
deriving DecidableEq, Repr

/-- `control_mode` (R16): 0 is `FEEDBACK`, 1 is `FIXED`. -/
inductive ControlMode where
  | feedback
  | fixed
deriving DecidableEq, Repr

/-- `operation_mode` (R16): 0 is `PUSH`, 1 is `PULL`.  Also the direction of a processing command. -/
inductive OperationMode where
  | push
  | pull
deriving DecidableEq, Repr

/-- The commands, one constructor per row of the opcode table (R96), in the table's order.  Register
operands are fixed by the command and not named in the word (R95); the only operand a word carries
is the enumeration value `v` of the format I commands (R93, R94). -/
inductive Instr where
  | qsize
  | init
  | setfs
  | freeflt
  | setifmt (v : Layout)
  | setofmt (v : Layout)
  | setbmode (v : BufferMode)
  | updrift
  | updfs
  | push16
  | push32
  | pull16
  | pull32
deriving DecidableEq, Repr

end Sys2Proof
end

