-- ==== Sys2Proof/WellFormed.lean ====
section
/-! DEFINITION. Which instructions, filter entries and parameters are inside their types
(spec/00_scope.md R5, R6; spec/30_encoding.md R93). -/

namespace Sys2Proof

/-- Every term of `Instr` is a command of the table with operands its encoding admits (R96): the
one-bit operand of format I has exactly the two members of its enumeration (R93, R94). -/
def Instr.wf (_ : Instr) : Bool := true

/-- The number `num_filters` (R6). -/
def FilterCount.toNat : FilterCount → Nat
  | .n4 => 4
  | .n5 => 5
  | .n6 => 6
  | .n7 => 7

/-- `filter_length` is positive and `coef[j][m]` is given for exactly `j < num_filters`,
`m < filter_length` (R6). -/
def FilterEntry.wf (e : FilterEntry) : Bool :=
  0 < e.filterLength && e.coef.length == e.numFilters.toNat
    && e.coef.all (fun row => row.length == e.filterLength)

/-- The constraints of R5 on the parameters, and R6's on every entry of the coefficient store. -/
def Params.wf (p : Params) : Bool :=
  1 ≤ p.maxChannels && p.maxChannels ≤ 16
    && p.maxFilterLength ≤ p.ringCapacity
    && p.maxFilterLength % 4 == 0
    && 2 ^ 24 ≤ p.ratioMin && p.ratioMin ≤ p.ratioMax && p.ratioMax ≤ 2 ^ 30
    && p.filterRom.all (fun row => row.entry.wf)

end Sys2Proof
end

