-- ==== Sys2Proof/Decode.lean ====
section
/-! DEFINITION. From a command word to a command, and back (spec/30_encoding.md R90 to R99). -/

namespace Sys2Proof

/-- Why a word matches no row of the opcode map (R99). -/
inductive DecodeError where
  /-- the opcode is none of the seven the map uses -/
  | noSuchOpcode
  /-- the opcode is defined, its `funct` is not -/
  | undefinedFunct
  /-- opcode and `funct` are defined and a must-be-zero bit of `imm16` is set -/
  | nonzeroImmediate
deriving DecidableEq, Repr

/-- `opcode`, bits 7:0 (R91). -/
def opcodeField (w : Word) : BitVec 8 := w.extractLsb' 0 8

/-- `funct`, bits 15:8 (R91). -/
def functField (w : Word) : BitVec 8 := w.extractLsb' 8 8

/-- `imm16`, bits 31:16 (R91). -/
def immField (w : Word) : BitVec 16 := w.extractLsb' 16 16

/-- The immediate `v`, word bit 16 (R94). -/
def immBit (w : Word) : Bool := w.getLsbD 16

/-- The member of `input_format`/`output_format` a bit names (R16). -/
def layoutOfBit (b : Bool) : Layout := if b then .deinterleaved else .interleaved

/-- The member of `buffer_mode` a bit names (R16). -/
def bufferModeOfBit (b : Bool) : BufferMode := if b then .circular else .linear

/-- The number of a layout (R16). -/
def layoutBit : Layout → Bool
  | .interleaved => false
  | .deinterleaved => true

/-- The number of a buffer mode (R16). -/
def bufferModeBit : BufferMode → Bool
  | .linear => false
  | .circular => true

/-- The mask of a format Z row and of a format I row (R96). -/
def maskZ : Word := 0xFFFFFFFF
def maskI : Word := 0xFFFEFFFF

/-- The opcode map in table order: mask, match, and the command, which takes the immediate bit (R96). -/
def opcodeMap : List (Word × Word × (Bool → Instr)) :=
  [ (maskZ, 0x00000001, fun _ => .qsize),
    (maskZ, 0x00000002, fun _ => .init),
    (maskZ, 0x00000003, fun _ => .setfs),
    (maskZ, 0x00000004, fun _ => .freeflt),
    (maskI, 0x00000010, fun v => .setifmt (layoutOfBit v)),
    (maskI, 0x00000110, fun v => .setofmt (layoutOfBit v)),
    (maskI, 0x00000210, fun v => .setbmode (bufferModeOfBit v)),
    (maskZ, 0x00000020, fun _ => .updrift),
    (maskZ, 0x00000120, fun _ => .updfs),
    (maskZ, 0x00000030, fun _ => .push16),
    (maskZ, 0x00000130, fun _ => .push32),
    (maskZ, 0x00000230, fun _ => .pull16),
    (maskZ, 0x00000330, fun _ => .pull32) ]

/-- How many values of `funct` an opcode defines, counted from 0 (R97); none for an opcode the map
does not use. -/
def definedFuncts (op : BitVec 8) : Option Nat :=
  if op = 0x01 ∨ op = 0x02 ∨ op = 0x03 ∨ op = 0x04 then some 1
  else if op = 0x10 then some 3
  else if op = 0x20 then some 2
  else if op = 0x30 then some 4
  else none

/-- The name of the reason a word that matches no row is illegal (R99's list of the kinds). -/
def illegalReason (w : Word) : DecodeError :=
  match definedFuncts (opcodeField w) with
  | none => .noSuchOpcode
  | some n => if (functField w).toNat < n then .nonzeroImmediate else .undefinedFunct

/-- Decode is total: the first row a word matches, or the reason it is illegal (R98, R99). -/
def decode (w : Word) : Except DecodeError Instr :=
  match opcodeMap.find? (fun row => w &&& row.1 == row.2.1) with
  | some row => .ok (row.2.2 (immBit w))
  | none => .error (illegalReason w)

/-- A command word from its three fields (R91). -/
def commandWord (opcode funct : BitVec 8) (imm : BitVec 16) : Word := imm ++ funct ++ opcode

/-- `imm16` of a format I command with immediate bit `b` (R93). -/
def immOfBit (b : Bool) : BitVec 16 := if b then 1 else 0

/-- The word of a command, from the opcode, `funct` and `imm16` columns of R96. -/
def encode : Instr → Word
  | .qsize      => commandWord 0x01 0x00 0
  | .init       => commandWord 0x02 0x00 0
  | .setfs      => commandWord 0x03 0x00 0
  | .freeflt    => commandWord 0x04 0x00 0
  | .setifmt v  => commandWord 0x10 0x00 (immOfBit (layoutBit v))
  | .setofmt v  => commandWord 0x10 0x01 (immOfBit (layoutBit v))
  | .setbmode v => commandWord 0x10 0x02 (immOfBit (bufferModeBit v))
  | .updrift    => commandWord 0x20 0x00 0
  | .updfs      => commandWord 0x20 0x01 0
  | .push16     => commandWord 0x30 0x00 0
  | .push32     => commandWord 0x30 0x01 0
  | .pull16     => commandWord 0x30 0x02 0
  | .pull32     => commandWord 0x30 0x03 0

/-- The command the decoder reads from a word numbered as spec/opcode_table.json numbers it: every
command is one 32-bit word (R90), so bits from 32 up make no command. -/
def decodeTableWord (nbits w : Nat) : Option Instr :=
  let bits := w % 2 ^ nbits
  if bits < 2 ^ 32 then (decode (BitVec.ofNat 32 bits)).toOption else none

end Sys2Proof
end

