-- ==== Sys2Proof/Machine/Arith.lean ====
section
/-! DEFINITION. The arithmetic primitives: exact integers, narrowed only where a rule says so
(spec/00_scope.md R8, R10 to R12). -/

namespace Sys2Proof.Machine

/-- `sat_N` (R10): the saturating cast to an `intN`. -/
def sat (n : Nat) (v : Int) : Int :=
  if v < -((2 ^ (n - 1) : Nat) : Int) then -((2 ^ (n - 1) : Nat) : Int)
  else if ((2 ^ (n - 1) : Nat) : Int) - 1 < v then ((2 ^ (n - 1) : Nat) : Int) - 1
  else v

/-- `rshr_sym` (R11): divide by `2^s`, round to nearest, a tie away from zero. -/
def rshrSym (v : Int) (s : Nat) : Int :=
  v.sign * (((v.natAbs + 2 ^ (s - 1)) / 2 ^ s : Nat) : Int)

/-- `div_round` (R12): the quotient rounded to nearest, a tie up. -/
def divRound (n d : Nat) : Nat := (2 * n + d) / (2 * d)

/-- `sext_N` (R8): the low `n` bits of `v` as an `intN`. -/
def sext (n : Nat) (v : Nat) : Int := (BitVec.ofNat n v).toInt

/-- `wrap_N` of an integer (R8). -/
def wrap (n : Nat) (v : Int) : Nat := (v % ((2 ^ n : Nat) : Int)).toNat

/-- Writing an integer to a 32-bit register stores `wrap_32` of it (R8). -/
def toWord (v : Int) : Word := BitVec.ofInt 32 v

/-- `mod` with a value in `0 .. m-1`, for a dividend that may be negative (R123). -/
def modIndex (v : Int) (m : Nat) : Nat := (v % (m : Int)).toNat

end Sys2Proof.Machine
end

