-- ==== Sys2Proof/Machine/State.lean ====
section
/-! DEFINITION. The state of one engine, its caller's memory and the host's pending accesses
(spec/10_state.md, spec/20_memory.md R60, spec/60_exceptions.md R261). -/

namespace Sys2Proof.Machine

/-- `STATE`, the lifecycle field of `STATUS` (R29). -/
inductive Lifecycle where
  | unconfigured
  | ready
  | noFilter
  | failed
deriving DecidableEq, Repr

/-- The error codes (R261).  `invalidFrameSize` is defined and never returned (R265). -/
inductive ErrorCode where
  | ok
  | invalidPointer
  | invalidSampleRate
  | invalidConversionRatio
  | invalidBitDepth
  | invalidNumChannels
  | invalidBufferLength
  | invalidFrameSize
  | invalidFilterLength
  | invalidClockSkew
  | invalidControlMode
  | updateFsFailed
  | failedPushMode
  | failedPullMode
  | illegalCommand
deriving DecidableEq, Repr

/-- One thing the host or the platform does to the block: a statement of a host script (R102) or the
reset input (R290).  Register accesses name the aligned 32-bit word `k` at byte offset `4 * k` of the
1 KiB register file (R48, R49). -/
inductive HostEvent where
  /-- a 32-bit register write; at the offset of `CMD` it executes a command (R26) -/
  | write (k : BitVec 8) (v : Word)
  /-- a 32-bit register read (R49) -/
  | read (k : BitVec 8)
  /-- the host stores a little-endian half-word in DMEM, which is its own memory (R52, R102 `mem16`) -/
  | mem16 (addr : Word) (v : BitVec 16)
  /-- the host stores a little-endian word in DMEM (R52, R102 `mem32`) -/
  | mem32 (addr : Word) (v : Word)
  /-- the platform asserts the reset input between commands (R290; assumption 4) -/
  | reset
deriving DecidableEq, Repr

/-- Why the machine stops for good. -/
inductive Fault where
  /-- Raised by a processing command whose loop (R205, R211) has no end: the block makes no further
  step.  Only a push to a linear buffer with `FS_RATIO <= 0` does it, in states no run reaches
  (R53, R218).  Safe. -/
  | loopNeverEnds
deriving DecidableEq, Repr

/-- Why the model gives a step no meaning. -/
inductive Refusal where
  /-- Raised by `exec` for an instruction without a meaning; every instruction has one, so never
  raised.  Safe. -/
  | notModelled (mnemonic : String)
  /-- Raised by a register access other than a read of `STATUS` while `BUSY = 1`, which has no defined
  result (R49, R305, U10); no run reaches such a state.  Safe. -/
  | registerAccessWhileBusy
  /-- Raised by a host store to DMEM while `BUSY = 1`, when the buffers belong to the block (R306,
  U12); no run reaches such a state.  Safe. -/
  | memoryAccessWhileBusy
  /-- Raised by a reset while `BUSY = 1`, which leaves an unspecified part of a command done (R290,
  U11); no run reaches such a state.  Safe. -/
  | resetWhileBusy
deriving DecidableEq, Repr

/-- DMEM: the bytes that differ from what an unlisted address holds, by rising address (R60). -/
abbrev Memory := List Host.Cell

/-- What an unlisted address of DMEM holds (assumption 2). -/
def unlistedByte : Byte := 0

/-- The canonical form: addresses strictly rising and inside the address space, no listed byte equal
to what an unlisted address holds. -/
def Memory.wf : Memory → Bool
  | [] => true
  | (a, b) :: rest =>
    a < 2 ^ 32 && b != unlistedByte && rest.all (fun c => a < c.1) && Memory.wf rest

/-- Everything the spec gives the machine (R20, R60), and below it the model's own fields. -/
structure State where
  /-- `A[0..15]` (R21) -/
  a : Vector Word 16
  /-- `IPTR[0..15]` (R23) -/
  iptr : Vector Word 16
  /-- `OPTR[0..15]` (R23) -/
  optr : Vector Word 16
  /-- `ERR` (R27) -/
  err : ErrorCode
  /-- `STATUS.STATE` (R28, R29) -/
  lifecycle : Lifecycle
  /-- `STATUS.FS_UPDATED` (R25, R28) -/
  fsUpdated : Bool
  /-- `STATUS.BUSY` (R25, R28) -/
  busy : Bool
  /-- `NUM_CHANNELS` (R30) -/
  numChannels : Word
  /-- `FS_PRIM` (R31) -/
  fsPrim : Word
  /-- `FS_SEC` (R32) -/
  fsSec : Word
  /-- `INPUT_FORMAT` (R33) -/
  inputFormat : Layout
  /-- `OUTPUT_FORMAT` (R34) -/
  outputFormat : Layout
  /-- `BUFFER_MODE` (R35) -/
  bufferMode : BufferMode
  /-- `BUFFER_LENGTH` (R36) -/
  bufferLength : Word
  /-- `BIT_DEPTH` (R37) -/
  bitDepth : Word
  /-- `CONTROL_MODE` (R38) -/
  controlMode : ControlMode
  /-- `OPERATION_MODE` (R39) -/
  operationMode : OperationMode
  /-- `FILTER_LENGTH` (R40) -/
  filterLength : Word
  /-- `NUM_FILTERS` (R41) -/
  numFilters : Word
  /-- `FS_RATIO` (R42) -/
  fsRatio : Word
  /-- `FS_RATIO_INV` (R43) -/
  fsRatioInv : Word
  /-- `FS_RATIO_NOM` (R44) -/
  fsRatioNom : Word
  /-- `TIME_VALUE` (R45) -/
  timeValue : Word
  /-- `TIME_VALUE_PULL` (R46) -/
  timeValuePull : Word
  /-- `BUFFER_WRITE_POSITION`, the ring cursor (R47) -/
  writePosition : Word
  /-- `RING[c][p]` (R50, R70): one row per channel, a sample sign-extended in a 32-bit cell (D17); a cell
  of no row is unspecified -/
  ring : List (List Word)
  /-- `COEF[j][m]` (R50, R71): one row per power of the time; a cell of no row is unspecified -/
  coef : List (List Word)
  /-- `IR[m]` (R50, R72); a cell past the end is unspecified -/
  ir : List Word
  /-- DMEM, the caller's memory (R60) -/
  dmem : Memory
  /-- the model's own: the parameters, fixed for a run (R5, R52; assumption 1) -/
  params : Params
  /-- the model's own: how many free values have been taken (assumption 5) -/
  freeCount : Nat
  /-- the model's own: the value the host's last register read returned (R49; assumption 3) -/
  hostData : Word
  /-- the model's own: what the host and the platform do next, oldest first (R24; assumption 3) -/
  pending : List HostEvent
deriving DecidableEq, Repr

/-- The reset value of both time accumulators, `ONE` (R45, R46, R54). -/
def timeReset : Word := 0x08000000

/-- The state right after hardware reset (R48, R54, R290): every register zero but the two time
accumulators, the internal memories unspecified, no event pending.  DMEM lists nothing. -/
def State.reset : State where
  a := Vector.replicate 16 0
  iptr := Vector.replicate 16 0
  optr := Vector.replicate 16 0
  err := .ok
  lifecycle := .unconfigured
  fsUpdated := false
  busy := false
  numChannels := 0
  fsPrim := 0
  fsSec := 0
  inputFormat := .interleaved
  outputFormat := .interleaved
  bufferMode := .linear
  bufferLength := 0
  bitDepth := 0
  controlMode := .feedback
  operationMode := .push
  filterLength := 0
  numFilters := 0
  fsRatio := 0
  fsRatioInv := 0
  fsRatioNom := 0
  timeValue := timeReset
  timeValuePull := timeReset
  writePosition := 0
  ring := []
  coef := []
  ir := []
  dmem := []
  params := Config.defaults
  freeCount := 0
  hostData := 0
  pending := []

end Sys2Proof.Machine
end

