-- ==== Sys2Proof/Machine/Ops.lean ====
section
/-! DEFINITION. The named operations over registers and memories, and the one error return every
command ends with (spec/00_scope.md R13 to R15, spec/20_memory.md R61 to R64, spec/60_exceptions.md
R260 to R278).  The block takes no exception and has no return from one (R273, R274): an error is
a return value, and the error return below is what stands in their place. -/

namespace Sys2Proof.Machine

/-! ### DMEM -/

/-- The byte at an address of DMEM. -/
def readByte : Memory → Nat → Byte
  | [], _ => unlistedByte
  | (k, v) :: rest, a => if a < k then unlistedByte else if a = k then v else readByte rest a

/-- DMEM with one byte stored, in canonical form again. -/
def writeByte : Memory → Nat → Byte → Memory
  | [], a, b => if b = unlistedByte then [] else [(a, b)]
  | (k, v) :: rest, a, b =>
    if a < k then
      if b = unlistedByte then (k, v) :: rest else (a, b) :: (k, v) :: rest
    else if a = k then
      if b = unlistedByte then rest else (a, b) :: rest
    else (k, v) :: writeByte rest a b

/-- `MemRead(addr, n)`: little-endian, addresses modulo `2^32` (R61, R62, R64). -/
def memRead (m : Memory) (addr : Word) : Nat → Nat
  | 0 => 0
  | n + 1 => (readByte m addr.toNat).toNat + 256 * memRead m (addr + 1) n

/-- `MemWrite(addr, n, v)`: the low `8 n` bits of `v`, little-endian, addresses modulo `2^32`
(R61, R63, R64). -/
def memWrite (m : Memory) (addr : Word) : Nat → Nat → Memory
  | 0, _ => m
  | n + 1, v => memWrite (writeByte m addr.toNat (BitVec.ofNat 8 v)) (addr + 1) n (v / 256)

/-! ### Registers -/

/-- `A[i]` (R21). -/
def State.arg (s : State) (i : Fin 16) : Word := s.a[i]

/-- `A[i] <- v` (R21). -/
def State.setArg (s : State) (i : Fin 16) (v : Word) : State := { s with a := s.a.set i v }

/-- A pointer register by number (R23). -/
def pointer (p : Vector Word 16) (c : Nat) : Word :=
  if h : c < 16 then p[c] else Config.absentPointer c

/-! ### The error return (R15, R260, R267) -/

/-- `return EC`: `ERR <- code(EC)`, and nothing else (R15, R27, R267). -/
def returnCode (ec : ErrorCode) (s : State) : State := { s with err := ec }

/-- The error return of a configuration error of `INIT` or `SETFS`: also `STATE <- FAILED`
(R239, R262, R267). -/
def failConfiguration (ec : ErrorCode) (s : State) : State :=
  { s with lifecycle := .failed, err := ec }

/-- The pseudo-command `ILLEGAL`: `ERR <- -128` and nothing else changes (R99). -/
def execIllegal (s : State) : State := returnCode .illegalCommand s

/-- The number of a code (R261). -/
def errorNumber : ErrorCode → Int
  | .ok => 0
  | .invalidPointer => -1
  | .invalidSampleRate => -2
  | .invalidConversionRatio => -3
  | .invalidBitDepth => -4
  | .invalidNumChannels => -5
  | .invalidBufferLength => -6
  | .invalidFrameSize => -7
  | .invalidFilterLength => -8
  | .invalidClockSkew => -9
  | .invalidControlMode => -10
  | .updateFsFailed => -11
  | .failedPushMode => -12
  | .failedPullMode => -13
  | .illegalCommand => -128

/-- The three classes of R262, with success and the code the spec added (R99). -/
inductive ErrorClass where
  | success
  | configuration
  | control
  | processing
  | malformed
deriving DecidableEq, Repr

/-- The class column of R261. -/
def errorClass : ErrorCode → ErrorClass
  | .ok => .success
  | .invalidPointer => .configuration
  | .invalidSampleRate => .configuration
  | .invalidConversionRatio => .configuration
  | .invalidBitDepth => .configuration
  | .invalidNumChannels => .configuration
  | .invalidBufferLength => .configuration
  | .invalidFrameSize => .configuration
  | .invalidFilterLength => .configuration
  | .invalidClockSkew => .control
  | .invalidControlMode => .control
  | .updateFsFailed => .control
  | .failedPushMode => .processing
  | .failedPullMode => .processing
  | .illegalCommand => .malformed

end Sys2Proof.Machine
end

