-- ==== Sys2Proof/Machine/Operands.lean ====
section
/-! DEFINITION. The operand forms: argument registers read as `int32`, enumeration operands, sample
addresses and the pointers a command uses (spec/10_state.md R22, R23; spec/20_memory.md R65, R66;
spec/30_encoding.md R94, R95, R101). -/

namespace Sys2Proof.Machine

/-- An argument register read as `int32` (R8, R22, R95). -/
def State.argInt (s : State) (i : Fin 16) : Int := (s.arg i).toInt

/-- `B = BIT_DEPTH / 8`, the bytes of a sample (R61). -/
def State.sampleBytes (s : State) : Nat := s.bitDepth.toNat / 8

/-- An operand that is a member of its enumeration: 0 or 1 (R16, R101). -/
def isBit (v : Int) : Bool := v == 0 || v == 1

/-- The enumeration a word names (R16); every word but 0 is read as 1, and no command reads another
than 0 and 1 (R101). -/
def layoutOfWord (w : Word) : Layout := layoutOfBit (w != 0)
def bufferModeOfWord (w : Word) : BufferMode := bufferModeOfBit (w != 0)
def controlModeOfWord (w : Word) : ControlMode := if w != 0 then .fixed else .feedback
def operationModeOfWord (w : Word) : OperationMode := if w != 0 then .pull else .push

/-- `addr(P, fmt, f, c)` with `C` channels and `B` bytes a sample (R64, R66). -/
def sampleAddr (p : Vector Word 16) (fmt : Layout) (channels bytes : Nat) (f c : Nat) : Word :=
  match fmt with
  | .interleaved => p[0] + BitVec.ofNat 32 ((f * channels + c) * bytes)
  | .deinterleaved => pointer p c + BitVec.ofNat 32 (f * bytes)

/-- Where input sample `(f, c)` lies (R66, R68). -/
def inputAddr (s : State) (f c : Nat) : Word :=
  sampleAddr s.iptr s.inputFormat s.numChannels.toNat s.sampleBytes f c

/-- Where output sample `(f, c)` lies (R66, R69). -/
def outputAddr (s : State) (f c : Nat) : Word :=
  sampleAddr s.optr s.outputFormat s.numChannels.toNat s.sampleBytes f c

/-- The pointers of a file that a processing command uses (R65). -/
def usedPointers (p : Vector Word 16) (fmt : Layout) (channels : Nat) : List Word :=
  match fmt with
  | .interleaved => [p[0]]
  | .deinterleaved => (List.range channels).map (pointer p)

/-- Every pointer a processing command uses is a multiple of `B` (R65, R203 check 5). -/
def pointersAligned (s : State) : Bool :=
  (usedPointers s.iptr s.inputFormat s.numChannels.toNat
      ++ usedPointers s.optr s.outputFormat s.numChannels.toNat).all
    (fun p => p.toNat % s.sampleBytes == 0)

/-- The frame count of a processing command (R22, R203 check 6). -/
def frameCount (d : OperationMode) (s : State) : Int :=
  match d with
  | .push => s.argInt 0
  | .pull => s.argInt 1

/-- `write_index`, `read_index` and `io_len` of a processing command in circular mode (R22, R200). -/
def State.writeIndex (s : State) : Int := s.argInt 2
def State.readIndex (s : State) : Int := s.argInt 3
def State.ioLen (s : State) : Int := s.argInt 4

/-- The index operands are structurally valid (R203 check 7). -/
def indicesValid (s : State) : Bool :=
  1 < s.ioLen && 0 ≤ s.writeIndex && s.writeIndex < s.ioLen
    && 0 ≤ s.readIndex && s.readIndex < s.ioLen

/-- `IN.LOAD(f, c)` (R68). -/
def inLoad (s : State) (f c : Nat) : Int :=
  sext s.bitDepth.toNat (memRead s.dmem (inputAddr s f c) s.sampleBytes)

/-- `OUT.STORE(f, c, y)`, the output mux (R69, R159). -/
def outStore (s : State) (f c : Nat) (y : Int) : State :=
  { s with
    dmem := memWrite s.dmem (outputAddr s f c) s.sampleBytes (wrap s.bitDepth.toNat y) }

end Sys2Proof.Machine
end

