-- ==== Sys2Proof/Machine/Ring.lean ====
section
/-! DEFINITION. The Channel Ring Buffer (spec/40_ring_buffer.md). -/

namespace Sys2Proof.Machine

/-- `RING[c][p]` as an integer (R70, R120). -/
def ringCell (s : State) (c p : Nat) : Int :=
  (((s.ring[c]?).bind (fun row => row[p]?)).getD (Config.freeRingCell s.freeCount c p)).toInt

/-- `RING.WRITE(c, x)`: the sample at the cursor, which does not move (R121). -/
def ringWrite (s : State) (c : Nat) (x : Int) : State :=
  { s with ring := s.ring.modify c (fun row => row.set s.writePosition.toNat (toWord x)) }

/-- `RING.ADVANCE()`: the cursor moves by one modulo `BL` (R122). -/
def ringAdvance (s : State) : State :=
  { s with
    writePosition := BitVec.ofNat 32 ((s.writePosition.toNat + 1) % s.bufferLength.toNat) }

/-- The index `off` positions behind the cursor, `(wp - off) mod BL` (R123). -/
def indexBehind (s : State) (off : Nat) : Nat :=
  modIndex ((s.writePosition.toNat : Int) - off) s.bufferLength.toNat

/-- `RING.READ_REL(c, off)`, defined for `1 <= off <= FILTER_LENGTH` only (R123, R124). -/
def ringReadRel (s : State) (c off : Nat) : Option Int :=
  if 1 ≤ off ∧ off ≤ s.filterLength.toNat then some (ringCell s c (indexBehind s off)) else none

/-- The flush of `INIT` and `SETFS`: every used cell 0 and the cursor at 0 (R127). -/
def ringFlush (s : State) : State :=
  { s with
    ring := List.replicate s.numChannels.toNat (List.replicate s.bufferLength.toNat 0)
    writePosition := 0 }

/-- The ring writes of a frame write: for the channels listed, in their order, load the sample of
frame slot `f` and store it at the cursor (R77, R129). -/
def loadChannels (f : Nat) : List Nat → State → State
  | [], s => s
  | c :: rest, s => loadChannels f rest (ringWrite s c (inLoad s f c))

/-- Frame write: every channel in order, then one advance (R129). -/
def frameWrite (f : Nat) (s : State) : State :=
  ringAdvance (loadChannels f (List.range s.numChannels.toNat) s)

end Sys2Proof.Machine
end

