-- ==== Sys2Proof/Machine/Configure.lean ====
section
/-! DEFINITION. The configuration commands `QSIZE`, `INIT`, `SETFS`, `FREEFLT`, `SETIFMT`, `SETOFMT`,
`SETBMODE` (spec/46_configuration.md). -/

namespace Sys2Proof.Machine

/-! ### Checks -/

/-- `num_channels` is in `1 .. MAX_CHANNELS` (R231, R234 check 1). -/
def channelsOk (p : Params) (n : Int) : Bool := 0 < n && n ≤ p.maxChannels

/-- `bit_depth` is 16 or 32 (R231, R234 check 2). -/
def bitDepthOk (n : Int) : Bool := n == 16 || n == 32

/-- A rate of the supported set (R235 check 4). -/
def rateOk (r : Int) : Bool := 0 ≤ r && Config.supportedRates.contains r.toNat

/-- `FilterROM(fs_prim, fs_sec)`, looked up as given (R6). -/
def filterLookup (p : Params) (fsPrim fsSec : Int) : Option FilterEntry :=
  (p.filterRom.find? (fun row => (row.fsPrim : Int) == fsPrim && (row.fsSec : Int) == fsSec)).map
    (fun row => row.entry)

/-- The nominal ratio `div_round(fs_prim * 2^27, fs_sec)` (R44, R235). -/
def nominalRatio (fsPrim fsSec : Int) : Nat :=
  divRound (fsPrim.toNat * 2 ^ Config.timeFrac) fsSec.toNat

/-- The length of a loaded filter is a multiple of 4 in `4 .. MAX_FILTER_LENGTH` (R236 check 6). -/
def filterLengthOk (p : Params) (l : Nat) : Bool :=
  l % 4 == 0 && 4 ≤ l && l ≤ p.maxFilterLength

/-- Checks 4 to 7, common to `INIT` and `SETFS`, in order; on success the filter entry (R235 to R237,
R241). -/
def rateCheck (p : Params) (fsPrim fsSec bufferLength : Int) : Except ErrorCode FilterEntry :=
  if rateOk fsPrim = false ∨ rateOk fsSec = false then .error .invalidSampleRate
  else
    match filterLookup p fsPrim fsSec with
    | none => .error .invalidConversionRatio
    | some e =>
      if nominalRatio fsPrim fsSec < p.ratioMin ∨ p.ratioMax < nominalRatio fsPrim fsSec then
        .error .invalidConversionRatio
      else if filterLengthOk p e.filterLength = false then .error .invalidFilterLength
      else if bufferLength < e.filterLength then .error .invalidBufferLength
      else .ok e

/-- The five enumeration operands of `INIT` are 0 or 1 (R101). -/
def initEnumsOk (s : State) : Bool :=
  isBit (s.argInt 3) && isBit (s.argInt 4) && isBit (s.argInt 5)
    && isBit (s.argInt 8) && isBit (s.argInt 9)

/-- The checks of `INIT` after the enumeration operands, in order (R233 to R237, R270). -/
def initCheck (s : State) : Except ErrorCode FilterEntry :=
  if channelsOk s.params (s.argInt 0) = false then .error .invalidNumChannels
  else if bitDepthOk (s.argInt 7) = false then .error .invalidBitDepth
  else if s.argInt 6 ≤ 1 ∨ (s.params.ringCapacity : Int) < s.argInt 6 then
    .error .invalidBufferLength
  else rateCheck s.params (s.argInt 1) (s.argInt 2) (s.argInt 6)

/-- The state accepts a command that needs a configuration, with or without its filter (R29). -/
def isConfigured (s : State) : Bool := s.lifecycle == .ready || s.lifecycle == .noFilter

/-! ### `install` -/

/-- `install(entry)`: load the table, set the nominal ratio and its reciprocal, restart the time, flush
the ring, clear `FS_UPDATED` (R238). -/
def install (e : FilterEntry) (s : State) : State :=
  let nom := nominalRatio s.fsPrim.toInt s.fsSec.toInt
  ringFlush
    { s with
      numFilters := BitVec.ofNat 32 e.numFilters.toNat
      filterLength := BitVec.ofNat 32 e.filterLength
      coef := e.coef
      fsRatioNom := BitVec.ofNat 32 nom
      fsRatio := BitVec.ofNat 32 nom
      fsRatioInv := BitVec.ofNat 32 (divRound (2 ^ 54) nom)
      timeValue := BitVec.ofNat 32 Config.one
      timeValuePull := BitVec.ofNat 32 Config.one
      fsUpdated := false }

/-! ### The commands -/

/-- The checks of `QSIZE`, in order (R231, R270). -/
def qsizeCheck (s : State) : ErrorCode :=
  if channelsOk s.params (s.argInt 0) = false then .invalidNumChannels
  else if bitDepthOk (s.argInt 1) = false then .invalidBitDepth
  else .ok

/-- The size `QSIZE` returns, in bytes (R231). -/
def requiredSize (p : Params) (channels bitDepth : Int) : Int :=
  channels * p.ringCapacity * (bitDepth / 8) + p.maxFilterLength * 4

/-- `QSIZE` (R231). -/
def execQsize (s : State) : Host.Outcome State Fault Refusal :=
  match qsizeCheck s with
  | .ok =>
    .next (returnCode .ok
      (s.setArg 0 (toWord (requiredSize s.params (s.argInt 0) (s.argInt 1)))))
  | ec => .next (returnCode ec s)

/-- The configuration registers `INIT` writes from its operands (R233). -/
def writeConfiguration (s : State) : State :=
  { s with
    numChannels := s.arg 0
    fsPrim := s.arg 1
    fsSec := s.arg 2
    inputFormat := layoutOfWord (s.arg 3)
    outputFormat := layoutOfWord (s.arg 4)
    bufferMode := bufferModeOfWord (s.arg 5)
    bufferLength := s.arg 6
    bitDepth := s.arg 7
    controlMode := controlModeOfWord (s.arg 8)
    operationMode := operationModeOfWord (s.arg 9) }

/-- `INIT` (R233, R239). -/
def execInit (s : State) : Host.Outcome State Fault Refusal :=
  if initEnumsOk s = false then .next (returnCode .illegalCommand s)
  else
    match initCheck s with
    | .error ec => .next (failConfiguration ec s)
    | .ok e =>
      .next (returnCode .ok { install e (writeConfiguration s) with lifecycle := .ready })

/-- `SETFS` (R241). -/
def execSetfs (s : State) : Host.Outcome State Fault Refusal :=
  if isConfigured s = false then .next (returnCode .invalidPointer s)
  else
    match rateCheck s.params (s.argInt 0) (s.argInt 1) s.bufferLength.toNat with
    | .error ec => .next (failConfiguration ec s)
    | .ok e =>
      .next (returnCode .ok
        { install e { s with fsPrim := s.arg 0, fsSec := s.arg 1 } with lifecycle := .ready })

/-- `FREEFLT`: the table's cells become unspecified (R243). -/
def execFreeflt (s : State) : Host.Outcome State Fault Refusal :=
  if isConfigured s = false then .next (returnCode .invalidPointer s)
  else
    .next (returnCode .ok
      { s with filterLength := 0, numFilters := 0, coef := [], lifecycle := .noFilter })

/-- `SETIFMT v` (R245). -/
def execSetifmt (v : Layout) (s : State) : Host.Outcome State Fault Refusal :=
  if isConfigured s = false then .next (returnCode .invalidPointer s)
  else .next (returnCode .ok { s with inputFormat := v })

/-- `SETOFMT v` (R246). -/
def execSetofmt (v : Layout) (s : State) : Host.Outcome State Fault Refusal :=
  if isConfigured s = false then .next (returnCode .invalidPointer s)
  else .next (returnCode .ok { s with outputFormat := v })

/-- `SETBMODE v` (R247). -/
def execSetbmode (v : BufferMode) (s : State) : Host.Outcome State Fault Refusal :=
  if isConfigured s = false then .next (returnCode .invalidPointer s)
  else .next (returnCode .ok { s with bufferMode := v })

end Sys2Proof.Machine
end

