-- ==== Sys2Proof/Machine/Flags.lean ====
section
/-! DEFINITION. The two flags and the `STATUS` word they stand in (spec/10_state.md R25, R28, R29).
There are no condition codes: no arithmetic sets a flag. -/

namespace Sys2Proof.Machine

/-- The value of the field `STATE` (R29). -/
def lifecycleNumber : Lifecycle → Word
  | .unconfigured => 0
  | .ready => 1
  | .noFilter => 2
  | .failed => 3

/-- `STATUS`: `STATE` in bits 1:0, `FS_UPDATED` in bit 8, `BUSY` in bit 31, every other bit 0 (R28). -/
def statusWord (s : State) : Word :=
  lifecycleNumber s.lifecycle
    ||| (if s.fsUpdated then 0x00000100 else 0)
    ||| (if s.busy then 0x80000000 else 0)

/-- `FS_UPDATED <- 1`, by a successful `UPDFS` (R25). -/
def setFsUpdated (s : State) : State := { s with fsUpdated := true }

/-- What a successful processing command does to `FS_UPDATED`: cleared when `CONTROL_MODE = FIXED`,
else kept (R25, R193). -/
def consumeFsUpdated (s : State) : State :=
  { s with
    fsUpdated :=
      match s.controlMode with
      | .fixed => false
      | .feedback => s.fsUpdated }

end Sys2Proof.Machine
end

