-- ==== Sys2Proof/Machine/Drift.lean ====
section
/-! DEFINITION. The Drift Controller: `UPDRIFT` and `UPDFS` (spec/44_drift_controller.md). -/

namespace Sys2Proof.Machine

/-- The silent clamp of `UPDRIFT` to the supported range (R187). -/
def clampRatio (p : Params) (r : Int) : Int := min (max r p.ratioMin) p.ratioMax

/-- The checks of `UPDRIFT`, in order (R186, R270). -/
def updriftCheck (s : State) : ErrorCode :=
  if s.lifecycle ≠ .ready then .invalidPointer
  else if s.controlMode ≠ .feedback then .invalidControlMode
  else if s.argInt 0 ≤ 0 then .invalidClockSkew
  else .ok

/-- The ratio a clock skew sets: the nominal ratio times the skew, rounded and clamped (R186, R187). -/
def skewedRatio (s : State) : Int :=
  clampRatio s.params (rshrSym (s.fsRatioNom.toInt * s.argInt 0) Config.skewFrac)

/-- `UPDRIFT` (R186). -/
def execUpdrift (s : State) : Host.Outcome State Fault Refusal :=
  match updriftCheck s with
  | .ok =>
    .next (returnCode .ok
      { s with
        fsRatio := toWord (skewedRatio s)
        fsRatioInv := toWord (divRound (2 ^ 54) (skewedRatio s).toNat) })
  | ec => .next (returnCode ec s)

/-- The ratio of two positive frame counts, Q5.27 (R190). -/
def countRatio (num den : Int) : Nat := divRound (num.toNat * 2 ^ Config.timeFrac) den.toNat

/-- The checks of `UPDFS`, in order; the range check is made on the wide quotient (R190 to R192, R270). -/
def updfsCheck (s : State) : ErrorCode :=
  if s.lifecycle ≠ .ready then .invalidPointer
  else if s.controlMode ≠ .fixed then .invalidControlMode
  else if s.argInt 0 ≤ 0 ∨ s.argInt 1 ≤ 0 then .invalidClockSkew
  else if countRatio (s.argInt 0) (s.argInt 1) < s.params.ratioMin
      ∨ s.params.ratioMax < countRatio (s.argInt 0) (s.argInt 1) then .invalidConversionRatio
  else .ok

/-- `UPDFS` (R190). -/
def execUpdfs (s : State) : Host.Outcome State Fault Refusal :=
  match updfsCheck s with
  | .ok =>
    .next (returnCode .ok (setFsUpdated
      { s with
        fsRatio := toWord (countRatio (s.argInt 0) (s.argInt 1))
        fsRatioInv := toWord (countRatio (s.argInt 1) (s.argInt 0)) }))
  | ec => .next (returnCode ec s)

end Sys2Proof.Machine
end

