-- ==== Sys2Proof/Machine/ImpulseResponse.lean ====
section
/-! DEFINITION. The Polyphase Filter Table and the Impulse Response Generator
(spec/41_impulse_response.md). -/

namespace Sys2Proof.Machine

/-- `COEF[j][m]` as an `int32` (R71). -/
def coefCell (s : State) (j m : Nat) : Int :=
  (((s.coef[j]?).bind (fun row => row[m]?)).getD (Config.freeCoefCell s.freeCount j m)).toInt

/-- `IR[m]` as an `int32` (R72). -/
def irCell (s : State) (m : Nat) : Int :=
  ((s.ir[m]?).getD (Config.freeTap s.freeCount m)).toInt

/-- `tw = t * 2^4`: the time from Q5.27 to Q1.31 (R136). -/
def timeScaled (t : Int) : Int := t * 16

/-- The Horner step: the product rounded first, the coefficient added second, the sum saturated
(R137). -/
def hstep (acc tw g : Int) : Int := sat 32 (rshrSym (acc * tw) Config.coefFrac + g)

/-- `IRGEN.N4`: tap `m` of the cubic evaluator (R138). -/
def irgenN4 (g : Nat → Int) (tw : Int) : Int :=
  hstep (hstep (hstep (g 3) tw (g 2)) tw (g 1)) tw (g 0)

/-- `IRGEN.N5`: tap `m` of the quartic evaluator (R139). -/
def irgenN5 (g : Nat → Int) (tw : Int) : Int :=
  hstep (hstep (hstep (hstep (g 4) tw (g 3)) tw (g 2)) tw (g 1)) tw (g 0)

/-- `IRGEN.N6`: tap `m` of the quintic evaluator (R140). -/
def irgenN6 (g : Nat → Int) (tw : Int) : Int :=
  hstep (hstep (hstep (hstep (hstep (g 5) tw (g 4)) tw (g 3)) tw (g 2)) tw (g 1)) tw (g 0)

/-- `IRGEN.N7`: tap `m` of the sextic evaluator (R141). -/
def irgenN7 (g : Nat → Int) (tw : Int) : Int :=
  hstep (hstep (hstep (hstep (hstep (hstep (g 6) tw (g 5)) tw (g 4)) tw (g 3)) tw (g 2)) tw (g 1))
    tw (g 0)

/-- The recurrence of R142 from an accumulator down the rows `j-1 .. 0`. -/
def hornerDown (g : Nat → Int) (tw : Int) : Nat → Int → Int
  | 0, acc => acc
  | j + 1, acc => hornerDown g tw j (hstep acc tw (g j))

/-- The evaluator `NUM_FILTERS` selects, for tap `m` (R142). -/
def irgenTap (s : State) (t : Int) (m : Nat) : Int :=
  let g := fun j => coefCell s j m
  match s.numFilters.toNat with
  | 4 => irgenN4 g (timeScaled t)
  | 5 => irgenN5 g (timeScaled t)
  | 6 => irgenN6 g (timeScaled t)
  | 7 => irgenN7 g (timeScaled t)
  | n => Config.absentEvaluator n m

/-- `IRGEN(t)`: `IR[m]` for every `m < FILTER_LENGTH` (R135, R142). -/
def irgen (t : Int) (s : State) : State :=
  { s with ir := (List.range s.filterLength.toNat).map (fun m => toWord (irgenTap s t m)) }

/-- After a command the impulse response is unspecified (R51, U4). -/
def forgetTaps (s : State) : State := { s with ir := [] }

end Sys2Proof.Machine
end

