-- ==== Sys2Proof/Machine/Fir.lean ====
section
/-! DEFINITION. The FIR Convolution Engine (spec/42_fir_output.md). -/

namespace Sys2Proof.Machine

/-- `x_k`, the sample `k` input steps older than the newest of channel `c`:
`RING[c][(wp - 1 - k) mod BL]` (R152). -/
def windowSample (s : State) (c k : Nat) : Int := ringCell s c (indexBehind s (k + 1))

/-- `S`, the exact sum of the exact products (R153). -/
def firSum (s : State) (c : Nat) : Int :=
  ((List.range s.filterLength.toNat).map (fun k => irCell s k * windowSample s c k)).sum

/-- One rounding after the whole sum, then the saturating cast to the sample width (R154). -/
def roundAndCast (width : Nat) (sum : Int) : Int := sat width (rshrSym sum Config.coefFrac)

/-- `FIR16(c)` (R156). -/
def fir16 (s : State) (c : Nat) : Int := roundAndCast 16 (firSum s c)

/-- `FIR32(c)` (R155). -/
def fir32 (s : State) (c : Nat) : Int := roundAndCast 32 (firSum s c)

/-- `FIR(c)`: the form `BIT_DEPTH` selects (R157). -/
def fir (s : State) (c : Nat) : Int := if s.bitDepth = 16 then fir16 s c else fir32 s c

end Sys2Proof.Machine
end

