-- ==== Sys2Proof/Machine/Tracker.lean ====
section
/-! DEFINITION. The Rate/Time Tracker (spec/43_rate_time_tracker.md). -/

namespace Sys2Proof.Machine

/-- Which step is due (R171). -/
inductive StepKind where
  | input
  | output
deriving DecidableEq, Repr

/-- The active accumulator of a direction (R171). -/
def State.time (d : OperationMode) (s : State) : Int :=
  match d with
  | .push => s.timeValue.toInt
  | .pull => s.timeValuePull.toInt

/-- The active accumulator of a direction, written (R171). -/
def State.setTime (d : OperationMode) (v : Int) (s : State) : State :=
  match d with
  | .push => { s with timeValue := toWord v }
  | .pull => { s with timeValuePull := toWord v }

/-- The increment of a direction: input periods per output period (R171). -/
def State.increment (d : OperationMode) (s : State) : Int :=
  match d with
  | .push => s.fsRatio.toInt
  | .pull => s.fsRatioInv.toInt

/-- `TRK.DECIDE(t)` (R172). -/
def trkDecide (t : Int) : StepKind := if (Config.one : Int) ≤ t then .input else .output

/-- The time after an input step (R174). -/
def timeAfterInput (t : Int) : Int := t - Config.one

/-- The time after an output step (R174). -/
def timeAfterOutput (t inc : Int) : Int := sat 32 (t + inc)

/-- `TRK.CONSUME(f)`, the input step of direction `d` from frame slot `f` (R173). -/
def trkConsume (d : OperationMode) (f : Nat) (s : State) : State :=
  (frameWrite f s).setTime d (timeAfterInput (s.time d))

/-- The stores of an output step: the channels listed, in their order (R77, R175). -/
def storeChannels (f : Nat) : List Nat → State → State
  | [], s => s
  | c :: rest, s => storeChannels f rest (outStore s f c (fir s c))

/-- `TRK.EMIT(f)`, the output step of direction `d` to frame slot `f`: one impulse response at the time
before the addition, then every channel, then the addition (R144, R175). -/
def trkEmit (d : OperationMode) (f : Nat) (s : State) : State :=
  (storeChannels f (List.range s.numChannels.toNat) (irgen (s.time d) s)).setTime d
    (timeAfterOutput (s.time d) (s.increment d))

end Sys2Proof.Machine
end

