-- ==== Sys2Proof/Machine/Process.lean ====
section
/-! DEFINITION. The Mode Dispatcher: `PUSH16`, `PUSH32`, `PULL16`, `PULL32` (spec/45_mode_dispatcher.md). -/

namespace Sys2Proof.Machine

/-- `fail`: the structural error of a direction (R203). -/
def failCode : OperationMode → ErrorCode
  | .push => .failedPushMode
  | .pull => .failedPullMode

/-- The seven checks common to the processing commands, in order; `ok` when all pass (R203). -/
def processCheck (width : Nat) (d : OperationMode) (s : State) : ErrorCode :=
  if s.lifecycle ≠ .ready then .invalidPointer
  else if s.bitDepth.toNat ≠ width then .invalidBitDepth
  else if s.operationMode ≠ d then failCode d
  else if s.controlMode = .fixed ∧ s.fsUpdated = false then .updateFsFailed
  else if pointersAligned s = false then .invalidPointer
  else if frameCount d s < 0 then failCode d
  else if s.bufferMode = .circular ∧ indicesValid s = false then failCode d
  else .ok

/-- The local counters and indices of a processing command (R24, R205, R211): input frames consumed,
output frames produced, and the running `write_index` and `read_index`. -/
structure Progress where
  i : Nat
  j : Nat
  w : Nat
  r : Nat
deriving DecidableEq, Repr

/-- The locals at the start of a command (R205, R211). -/
def startProgress (s : State) : Progress where
  i := 0
  j := 0
  w := s.writeIndex.toNat
  r := s.readIndex.toNat

/-- What a command does not change while it runs: the discipline of the secondary side, the frames of
the side the caller controls, and `io_len` (R205, R211). -/
structure Request where
  circular : Bool
  frames   : Nat
  ioLen    : Nat
deriving DecidableEq, Repr

/-- The request of a processing command (R205, R211). -/
def requestOf (d : OperationMode) (s : State) : Request where
  circular := s.bufferMode = .circular
  frames := (frameCount d s).toNat
  ioLen := s.ioLen.toNat

/-- The loop of `PUSH` (R205).  `none`: the loop has not ended within the steps given to it. -/
def pushLoop (q : Request) : Nat → Progress → State → Option (Progress × State)
  | 0, _, _ => none
  | fuel + 1, p, s =>
    match trkDecide (s.time .push) with
    | .input =>
      if p.i = q.frames then some (p, s)
      else pushLoop q fuel { p with i := p.i + 1 } (trkConsume .push p.i s)
    | .output =>
      if q.circular then
        if (p.w + 1) % q.ioLen = p.r then some (p, s)
        else
          pushLoop q fuel { p with j := p.j + 1, w := (p.w + 1) % q.ioLen } (trkEmit .push p.w s)
      else pushLoop q fuel { p with j := p.j + 1 } (trkEmit .push p.j s)

/-- The loop of `PULL` (R211).  `none`: the loop has not ended within the steps given to it. -/
def pullLoop (q : Request) : Nat → Progress → State → Option (Progress × State)
  | 0, _, _ => none
  | fuel + 1, p, s =>
    if p.j < q.frames then
      match trkDecide (s.time .pull) with
      | .input =>
        if q.circular then
          if p.r = p.w then some (p, s)
          else
            pullLoop q fuel { p with i := p.i + 1, r := (p.r + 1) % q.ioLen }
              (trkConsume .pull p.r s)
        else pullLoop q fuel { p with i := p.i + 1 } (trkConsume .pull p.i s)
      | .output => pullLoop q fuel { p with j := p.j + 1 } (trkEmit .pull p.j s)
    else some (p, s)

/-- More steps than any push that ends can make, whatever the state: an input step is one of `frames`
and frees `ONE` of time, an output step to a circular buffer is one of fewer than `2^31`, and one
to a linear buffer takes at least 1 of the time below `ONE` when the ratio is positive (R218). -/
def pushBudget (q : Request) (s : State) : Nat :=
  q.frames * (Config.one + 1) + (Config.one - s.time .push).toNat + 2 ^ 31

/-- More steps than any pull can make, whatever the state: an output step is one of `frames` and adds
less than `2^31` of time, an input step takes `ONE` of it (R218). -/
def pullBudget (q : Request) (s : State) : Nat :=
  q.frames * 2 ^ 31 + (s.time .pull).toNat + 1

/-- The loop of `PUSH` from the checked operands (R205). -/
def pushRun (s : State) : Option (Progress × State) :=
  pushLoop (requestOf .push s) (pushBudget (requestOf .push s) s) (startProgress s) s

/-- The loop of `PULL` from the checked operands (R211). -/
def pullRun (s : State) : Option (Progress × State) :=
  pullLoop (requestOf .pull s) (pullBudget (requestOf .pull s) s) (startProgress s) s

/-- The results of `PUSH`: `A[0]`, `A[1]`, and `A[2]` when circular (R22, R205). -/
def pushResults (p : Progress) (s : State) : State :=
  let t := (s.setArg 0 (BitVec.ofNat 32 p.i)).setArg 1 (BitVec.ofNat 32 p.j)
  match s.bufferMode with
  | .circular => t.setArg 2 (BitVec.ofNat 32 p.w)
  | .linear => t

/-- The results of `PULL`: `A[0]`, `A[1]`, and `A[3]`, which is a free value in linear mode
(R22, R211, R216). -/
def pullResults (p : Progress) (s : State) : State :=
  let t := (s.setArg 0 (BitVec.ofNat 32 p.i)).setArg 1 (BitVec.ofNat 32 p.j)
  match s.bufferMode with
  | .circular => t.setArg 3 (BitVec.ofNat 32 p.r)
  | .linear =>
    { t.setArg 3 (Config.freeReadIndex s.freeCount) with freeCount := s.freeCount + 1 }

/-- The `ASRC_EC_OK` exit of a processing command, after its results (R51, R205, R211). -/
def finishProcessing (s : State) : State := returnCode .ok (consumeFsUpdated (forgetTaps s))

/-- `PUSH(W_cmd)`: the checks, then the body (R203, R205). -/
def execPush (width : Nat) (s : State) : Host.Outcome State Fault Refusal :=
  match processCheck width .push s with
  | .ok =>
    match pushRun s with
    | some (p, t) => .next (finishProcessing (pushResults p t))
    | none => .fault .loopNeverEnds
  | ec => .next (returnCode ec s)

/-- `PULL(W_cmd)`: the checks, then the body (R203, R211). -/
def execPull (width : Nat) (s : State) : Host.Outcome State Fault Refusal :=
  match processCheck width .pull s with
  | .ok =>
    match pullRun s with
    | some (p, t) => .next (finishProcessing (pullResults p t))
    | none => .fault .loopNeverEnds
  | ec => .next (returnCode ec s)

/-- `PUSH16` (R201). -/
def execPush16 (s : State) : Host.Outcome State Fault Refusal := execPush 16 s

/-- `PUSH32` (R202). -/
def execPush32 (s : State) : Host.Outcome State Fault Refusal := execPush 32 s

/-- `PULL16` (R209). -/
def execPull16 (s : State) : Host.Outcome State Fault Refusal := execPull 16 s

/-- `PULL32` (R210). -/
def execPull32 (s : State) : Host.Outcome State Fault Refusal := execPull 32 s

end Sys2Proof.Machine
end

