-- ==== Sys2Proof/Machine/Dispatch.lean ====
section
/-! DEFINITION. Which meaning each command has (spec/30_encoding.md R96). -/

namespace Sys2Proof.Machine

def exec (i : Instr) (s : State) : Host.Outcome State Fault Refusal :=
  match i with
  | .qsize => Sys2Proof.Machine.execQsize s
  | .init => Sys2Proof.Machine.execInit s
  | .setfs => Sys2Proof.Machine.execSetfs s
  | .freeflt => Sys2Proof.Machine.execFreeflt s
  | .setifmt v => Sys2Proof.Machine.execSetifmt v s
  | .setofmt v => Sys2Proof.Machine.execSetofmt v s
  | .setbmode v => Sys2Proof.Machine.execSetbmode v s
  | .updrift => Sys2Proof.Machine.execUpdrift s
  | .updfs => Sys2Proof.Machine.execUpdfs s
  | .push16 => Sys2Proof.Machine.execPush16 s
  | .push32 => Sys2Proof.Machine.execPush32 s
  | .pull16 => Sys2Proof.Machine.execPull16 s
  | .pull32 => Sys2Proof.Machine.execPull32 s

end Sys2Proof.Machine
end

