-- ==== Sys2Proof/Machine/HostPort.lean ====
section
/-! DEFINITION. The register file as the host sees it, the command register, and what the host and the
platform can do to the block (spec/10_state.md R26, R48, R49; spec/30_encoding.md R99;
spec/70_reset_and_hazards.md R290, R305, R306). -/

namespace Sys2Proof.Machine

/-- The registers of the map of R48. -/
inductive HostReg where
  | cmd
  | err
  | status
  | arg (i : Fin 16)
  | iptr (i : Fin 16)
  | optr (i : Fin 16)
  | numChannels
  | fsPrim
  | fsSec
  | inputFormat
  | outputFormat
  | bufferMode
  | bufferLength
  | bitDepth
  | controlMode
  | operationMode
  | filterLength
  | numFilters
  | fsRatio
  | fsRatioInv
  | fsRatioNom
  | timeValue
  | timeValuePull
  | writePosition
  | reserved
deriving DecidableEq, Repr

/-- The register at byte offset `4 * k` (R48). -/
def hostRegAt (k : BitVec 8) : HostReg :=
  let off := 4 * k.toNat
  if h : 0x040 ≤ off ∧ off < 0x080 then .arg ⟨off / 4 - 16, by omega⟩
  else if h : 0x080 ≤ off ∧ off < 0x0C0 then .iptr ⟨off / 4 - 32, by omega⟩
  else if h : 0x0C0 ≤ off ∧ off < 0x100 then .optr ⟨off / 4 - 48, by omega⟩
  else if off = 0x000 then .cmd
  else if off = 0x004 then .err
  else if off = 0x008 then .status
  else if off = 0x100 then .numChannels
  else if off = 0x104 then .fsPrim
  else if off = 0x108 then .fsSec
  else if off = 0x10C then .inputFormat
  else if off = 0x110 then .outputFormat
  else if off = 0x114 then .bufferMode
  else if off = 0x118 then .bufferLength
  else if off = 0x11C then .bitDepth
  else if off = 0x120 then .controlMode
  else if off = 0x124 then .operationMode
  else if off = 0x128 then .filterLength
  else if off = 0x12C then .numFilters
  else if off = 0x140 then .fsRatio
  else if off = 0x144 then .fsRatioInv
  else if off = 0x148 then .fsRatioNom
  else if off = 0x14C then .timeValue
  else if off = 0x150 then .timeValuePull
  else if off = 0x154 then .writePosition
  else .reserved

/-- A one-bit register: bit 0, bits 31:1 read 0 (R33 to R35, R38, R39). -/
def bitWord (b : Bool) : Word := if b then 1 else 0

/-- What the host reads from a register (R26 to R28, R30 to R49). -/
def readReg (s : State) : HostReg → Word
  | .cmd => 0
  | .err => toWord (errorNumber s.err)
  | .status => statusWord s
  | .arg i => s.arg i
  | .iptr i => s.iptr[i]
  | .optr i => s.optr[i]
  | .numChannels => s.numChannels
  | .fsPrim => s.fsPrim
  | .fsSec => s.fsSec
  | .inputFormat => bitWord (layoutBit s.inputFormat)
  | .outputFormat => bitWord (layoutBit s.outputFormat)
  | .bufferMode => bitWord (bufferModeBit s.bufferMode)
  | .bufferLength => s.bufferLength
  | .bitDepth => s.bitDepth
  | .controlMode => bitWord (s.controlMode = .fixed)
  | .operationMode => bitWord (s.operationMode = .pull)
  | .filterLength => s.filterLength
  | .numFilters => s.numFilters
  | .fsRatio => s.fsRatio
  | .fsRatioInv => s.fsRatioInv
  | .fsRatioNom => s.fsRatioNom
  | .timeValue => s.timeValue
  | .timeValuePull => s.timeValuePull
  | .writePosition => s.writePosition
  | .reserved => 0

/-- A host write to a register other than `CMD`: `A`, `IPTR` and `OPTR` take it, every other register
ignores it (R21, R23, R48, R49). -/
def writeReg (s : State) (v : Word) : HostReg → State
  | .arg i => s.setArg i v
  | .iptr i => { s with iptr := s.iptr.set i v }
  | .optr i => { s with optr := s.optr.set i v }
  | _ => s

/-- A write of `CMD`: the command the word encodes, to completion, or the pseudo-command `ILLEGAL`
(R26, R98, R99). -/
def runCommand (w : Word) (s : State) : Host.Outcome State Fault Refusal :=
  match decode w with
  | .ok i => exec i s
  | .error _ => .next (execIllegal s)

/-- Hardware reset between two commands: every register at its reset value, the internal memories
unspecified anew, DMEM not touched; the parameters and what the host still has to do are not the
block's (R52, R54, R73, R290; assumption 4). -/
def hardwareReset (s : State) : State :=
  { State.reset with
    dmem := s.dmem
    params := s.params
    freeCount := s.freeCount + 1
    hostData := s.hostData
    pending := s.pending }

/-- The offset of `CMD` (R26) and of `STATUS` (R28), in words. -/
def cmdWord : BitVec 8 := 0
def statusRegWord : BitVec 8 := 2

/-- What an event does while the block is idle. -/
def serveIdle (e : HostEvent) (s : State) : Host.Outcome State Fault Refusal :=
  match e with
  | .write k v =>
    match hostRegAt k with
    | .cmd => runCommand v s
    | reg => .next (writeReg s v reg)
  | .read k => .next { s with hostData := readReg s (hostRegAt k) }
  | .mem16 addr v => .next { s with dmem := memWrite s.dmem addr 2 v.toNat }
  | .mem32 addr v => .next { s with dmem := memWrite s.dmem addr 4 v.toNat }
  | .reset => .next (hardwareReset s)

/-- What an event does while `BUSY = 1`: a read of `STATUS` is the one access with a defined result
(R305, R306; U10 to U12). -/
def serveBusy (e : HostEvent) (s : State) : Host.Outcome State Fault Refusal :=
  match e with
  | .write _ _ => .refused .registerAccessWhileBusy
  | .read k =>
    match hostRegAt k with
    | .status => .next { s with hostData := statusWord s }
    | _ => .refused .registerAccessWhileBusy
  | .mem16 _ _ => .refused .memoryAccessWhileBusy
  | .mem32 _ _ => .refused .memoryAccessWhileBusy
  | .reset => .refused .resetWhileBusy

/-- What an event does. -/
def serve (e : HostEvent) (s : State) : Host.Outcome State Fault Refusal :=
  if s.busy then serveBusy e s else serveIdle e s

/-- One step of the whole machine: the oldest pending event; with none pending the block is idle and
holds all its state (R24, R277). -/
def serveNext (s : State) : Host.Outcome State Fault Refusal :=
  match s.pending with
  | [] => .next s
  | e :: rest => serve e { s with pending := rest }

/-- The host's next act becomes the write of a command word to `CMD` (R24, R26). -/
def queueCommand (w : Word) (s : State) : State :=
  { s with pending := .write cmdWord w :: s.pending }

end Sys2Proof.Machine
end

