-- ==== Sys2Proof/Machine/Step.lean ====
section
/-! DEFINITION. One step of the machine (spec/00_scope.md R17, spec/10_state.md R24), and a command
placed where the next step takes it from. -/

namespace Sys2Proof.Machine

/-- One step: the oldest thing the host or the platform has still to do. -/
def step (s : State) : Host.Outcome State Fault Refusal := serveNext s

/-- `s` with an instruction of spec/opcode_table.json, `nbits` bits wide, as the next word the host
writes to `CMD` (assumption 3). -/
def State.withFetchWord (s : State) (nbits w : Nat) : State :=
  queueCommand (BitVec.ofNat 32 (w % 2 ^ nbits)) s

end Sys2Proof.Machine
end

