-- ==== Sys2Proof/Safety.lean ====
section
/-! DEFINITION. What holds in every state a run can reach (spec/10_state.md R53), in the terms the
statements use. -/

namespace Sys2Proof.Machine

/-- Every used cell of `RING` has a value: one row per channel, `BUFFER_LENGTH` cells each (R70). -/
def RingShaped (s : State) : Prop :=
  s.ring.length = s.numChannels.toNat ∧ ∀ row ∈ s.ring, row.length = s.bufferLength.toNat

/-- A value is inside `int(w)` (R8). -/
def InInt (w : Nat) (v : Int) : Prop :=
  -((2 ^ (w - 1) : Nat) : Int) ≤ v ∧ v < ((2 ^ (w - 1) : Nat) : Int)

/-- `t` is `s` but for what an input or output step may change: the time accumulators, the ring and its
cursor, the impulse response and DMEM (R173, R175). -/
def SameButStream (s t : State) : Prop :=
  t = { s with
        timeValue := t.timeValue, timeValuePull := t.timeValuePull
        writePosition := t.writePosition, ring := t.ring, ir := t.ir, dmem := t.dmem }

/-- R53 items 1, 3 (without its `FILTER_LENGTH` clause) and 4, which hold in `READY` and `NOFILTER`. -/
structure ConfiguredInv (s : State) : Prop where
  channels     : 1 ≤ s.numChannels.toNat ∧ s.numChannels.toNat ≤ s.params.maxChannels
  fsPrim       : s.fsPrim.toNat ∈ Config.supportedRates
  fsSec        : s.fsSec.toNat ∈ Config.supportedRates
  bitDepth     : s.bitDepth = 16 ∨ s.bitDepth = 32
  bufferLength : 2 ≤ s.bufferLength.toNat ∧ s.bufferLength.toNat ≤ s.params.ringCapacity
  cursor       : s.writePosition.toNat < s.bufferLength.toNat
  ringShaped   : RingShaped s

/-- R53 items 1 to 8, with R44's nominal ratio. -/
structure ReadyInv (s : State) : Prop extends ConfiguredInv s where
  numFilters   : 4 ≤ s.numFilters.toNat ∧ s.numFilters.toNat ≤ 7
  filterLength : s.filterLength.toNat % 4 = 0 ∧ 4 ≤ s.filterLength.toNat
                   ∧ s.filterLength.toNat ≤ s.params.maxFilterLength
  ringHolds    : s.filterLength.toNat ≤ s.bufferLength.toNat
  ratio        : (s.params.ratioMin : Int) ≤ s.fsRatio.toInt
                   ∧ s.fsRatio.toInt ≤ (s.params.ratioMax : Int)
  ratioInv     : 0 < s.fsRatioInv.toInt ∧ s.fsRatioInv.toInt ≤ 2 ^ 30 + 2 ^ 5
  nominal      : s.fsRatioNom.toNat = nominalRatio s.fsPrim.toInt s.fsSec.toInt
  time         : 0 ≤ s.timeValue.toInt
                   ∧ s.timeValue.toInt < (Config.one : Int) + (s.params.ratioMax : Int)
  timePull     : 0 ≤ s.timeValuePull.toInt
                   ∧ s.timeValuePull.toInt < (Config.one : Int) + (2 ^ 30 + 2 ^ 5)
  samples      : ∀ c < s.numChannels.toNat, ∀ p < s.bufferLength.toNat,
                   InInt s.bitDepth.toNat (ringCell s c p)
  table        : ∃ e, filterLookup s.params s.fsPrim.toInt s.fsSec.toInt = some e
                   ∧ s.numFilters.toNat = e.numFilters.toNat
                   ∧ s.filterLength.toNat = e.filterLength ∧ s.coef = e.coef

/-- R53 in `NOFILTER`. -/
structure NoFilterInv (s : State) : Prop extends ConfiguredInv s where
  filterLength : s.filterLength = 0
  numFilters   : s.numFilters = 0

/-- R53 in `UNCONFIGURED`: every register but `A`, `IPTR`, `OPTR` and `ERR` has its reset value. -/
def UnconfiguredInv (s : State) : Prop :=
  s = { State.reset with
        a := s.a, iptr := s.iptr, optr := s.optr, err := s.err
        ring := s.ring, coef := s.coef, ir := s.ir, dmem := s.dmem
        params := s.params, freeCount := s.freeCount, hostData := s.hostData
        pending := s.pending }

/-- What every reachable state satisfies: `BUSY` is 0 (R25), DMEM is in canonical form, and R53 by the
value of `STATE`. -/
structure Consistent (s : State) : Prop where
  idle   : s.busy = false
  memory : s.dmem.wf = true
  state  : match s.lifecycle with
           | .unconfigured => UnconfiguredInv s
           | .ready => ReadyInv s
           | .noFilter => NoFilterInv s
           | .failed => True

/-! ### Which commands a state accepts -/

/-- The acceptance table of R29. -/
def accepts (l : Lifecycle) : Instr → Bool
  | .qsize => true
  | .init => true
  | .setfs => l == .ready || l == .noFilter
  | .freeflt => l == .ready || l == .noFilter
  | .setifmt _ => l == .ready || l == .noFilter
  | .setofmt _ => l == .ready || l == .noFilter
  | .setbmode _ => l == .ready || l == .noFilter
  | .updrift => l == .ready
  | .updfs => l == .ready
  | .push16 => l == .ready
  | .push32 => l == .ready
  | .pull16 => l == .ready
  | .pull32 => l == .ready

/-! ### When a processing command runs, and how far it gets -/

/-- The pointers of one side that a command uses are multiples of the sample size (R65). -/
def SideAligned (p : Vector Word 16) (fmt : Layout) (channels bytes : Nat) : Prop :=
  match fmt with
  | .interleaved => p[0].toNat % bytes = 0
  | .deinterleaved => ∀ c < channels, (pointer p c).toNat % bytes = 0

/-- The seven checks of R203 pass for a command of width `w` and direction `d`. -/
structure ProcessingAllowed (w : Nat) (d : OperationMode) (s : State) : Prop where
  ready     : s.lifecycle = .ready
  width     : s.bitDepth.toNat = w
  direction : s.operationMode = d
  updated   : s.controlMode = .fixed → s.fsUpdated = true
  input     : SideAligned s.iptr s.inputFormat s.numChannels.toNat (w / 8)
  output    : SideAligned s.optr s.outputFormat s.numChannels.toNat (w / 8)
  frames    : 0 ≤ frameCount d s
  indices   : s.bufferMode = .circular →
                1 < s.argInt 4 ∧ 0 ≤ s.argInt 2 ∧ s.argInt 2 < s.argInt 4
                  ∧ 0 ≤ s.argInt 3 ∧ s.argInt 3 < s.argInt 4

/-- The frame count of an allowed command (R22). -/
def framesAsked (d : OperationMode) (s : State) : Nat := (frameCount d s).toNat

/-- How many output frames fall due before input number `n + 1` does, from time `t` with increment `r`:
`max(0, ceil((n * ONE + ONE - t) / r))` (R206). -/
def outputsDue (n : Nat) (t r : Int) : Nat :=
  (((n : Int) * Config.one + Config.one - t + r - 1) / r).toNat

/-- How many input frames fall due before output number `n` is made, from time `t` with increment `q`:
`floor((t + (n - 1) * q) / ONE)`, and none for no output (R215). -/
def inputsDue (n : Nat) (t q : Int) : Nat :=
  if n = 0 then 0 else ((t + ((n : Int) - 1) * q) / Config.one).toNat

/-- The frames a circular output buffer has room for, `(r - w - 1) mod io_len` (R207). -/
def roomFor (s : State) : Nat := modIndex (s.argInt 3 - s.argInt 2 - 1) (s.argInt 4).toNat

/-- The frames a circular input buffer holds, `(w - r) mod io_len` (R212). -/
def framesHeld (s : State) : Nat := modIndex (s.argInt 2 - s.argInt 3) (s.argInt 4).toNat

/-- The input frames consumed and output frames produced by an allowed command: what the frame count
asks for, or up to the early stop of a circular buffer (R206, R207, R213, R215). -/
def framesDone (d : OperationMode) (s : State) : Nat × Nat :=
  let n := framesAsked d s
  let t := s.time d
  let inc := s.increment d
  match d with
  | .push =>
    if s.bufferMode = .circular ∧ roomFor s < outputsDue n t inc then
      (inputsDue (roomFor s + 1) t inc, roomFor s)
    else (n, outputsDue n t inc)
  | .pull =>
    if s.bufferMode = .circular ∧ framesHeld s < inputsDue n t inc then
      (framesHeld s, outputsDue (framesHeld s) t inc)
    else (inputsDue n t inc, n)

/-- The slot of the input buffer that input frame `i` of a command is loaded from (R204, R211). -/
def inputSlot (d : OperationMode) (s : State) (i : Nat) : Nat :=
  match d, s.bufferMode with
  | .pull, .circular => ((s.argInt 3).toNat + i) % (s.argInt 4).toNat
  | _, _ => i

/-- The slot of the output buffer that output frame `j` of a command is stored to (R204, R205). -/
def outputSlot (d : OperationMode) (s : State) (j : Nat) : Nat :=
  match d, s.bufferMode with
  | .push, .circular => ((s.argInt 2).toNat + j) % (s.argInt 4).toNat
  | _, _ => j

/-- The address of byte `b` of the sample of input frame `i`, channel `c`, of a command. -/
def inputByte (d : OperationMode) (s : State) (i c b : Nat) : Nat :=
  (inputAddr s (inputSlot d s i) c + BitVec.ofNat 32 b).toNat

/-- The address of byte `b` of the sample of output frame `j`, channel `c`, of a command. -/
def outputByte (d : OperationMode) (s : State) (j c b : Nat) : Nat :=
  (outputAddr s (outputSlot d s j) c + BitVec.ofNat 32 b).toNat

/-! ### What a processing command computes -/

/-- Sample number `n` of channel `c`, counted from the command's first input frame: from the input
buffer, or, below 0, from the ring as the command found it (R150, R152). -/
def streamSample (d : OperationMode) (s : State) (c : Nat) (n : Int) : Int :=
  if 0 ≤ n then inLoad s (inputSlot d s n.toNat) c else windowSample s c (-n - 1).toNat

/-- Output frame `j` of channel `c` of a command: its position is `j` increments after the time the
command found, its taps are evaluated at the fraction of that position, and its newest sample is the
one before the whole part (R150, R154, R175, R177). -/
def farrowOutput (d : OperationMode) (s : State) (j c : Nat) : Int :=
  let position := s.time d + (j : Int) * s.increment d
  roundAndCast s.bitDepth.toNat
    ((List.range s.filterLength.toNat).map (fun m =>
      irgenTap s (position % Config.one) m
        * streamSample d s c (position / Config.one - 1 - m))).sum

end Sys2Proof.Machine
end

