-- ==== Sys2Proof/Certificates/Slice0/Obligations.lean ====
section
/-! DEFINITION. The statements for the provers. -/

open Sys2Proof Sys2Proof.Machine

/-! ## Encoding -/

/-- Decode and encode agree on every command and every word: no bit of an encoding is dropped, and each
command has one word (R90 to R98). -/
def Obligations.DecodeEncodeAgree : Prop :=
  ∀ (i : Instr) (w : Word), i.wf = true → (decode w = .ok i ↔ w = encode i)

/-- R96: a word is the command of a row iff it matches the row's mask and match.  The immediate of a
format I row is word bit 16 (R94); a word decodes to one command at most, so no two rows match the
same word. -/
def Obligations.WordIsCommandIffItMatchesItsRow : Prop :=
  ∀ w : Word,
    (w &&& 0xFFFFFFFF = 0x00000001 ↔ decode w = .ok .qsize)
    ∧ (w &&& 0xFFFFFFFF = 0x00000002 ↔ decode w = .ok .init)
    ∧ (w &&& 0xFFFFFFFF = 0x00000003 ↔ decode w = .ok .setfs)
    ∧ (w &&& 0xFFFFFFFF = 0x00000004 ↔ decode w = .ok .freeflt)
    ∧ (w &&& 0xFFFEFFFF = 0x00000010 ↔
        decode w = .ok (.setifmt (if w.getLsbD 16 then .deinterleaved else .interleaved)))
    ∧ (w &&& 0xFFFEFFFF = 0x00000110 ↔
        decode w = .ok (.setofmt (if w.getLsbD 16 then .deinterleaved else .interleaved)))
    ∧ (w &&& 0xFFFEFFFF = 0x00000210 ↔
        decode w = .ok (.setbmode (if w.getLsbD 16 then .circular else .linear)))
    ∧ (w &&& 0xFFFFFFFF = 0x00000020 ↔ decode w = .ok .updrift)
    ∧ (w &&& 0xFFFFFFFF = 0x00000120 ↔ decode w = .ok .updfs)
    ∧ (w &&& 0xFFFFFFFF = 0x00000030 ↔ decode w = .ok .push16)
    ∧ (w &&& 0xFFFFFFFF = 0x00000130 ↔ decode w = .ok .push32)
    ∧ (w &&& 0xFFFFFFFF = 0x00000230 ↔ decode w = .ok .pull16)
    ∧ (w &&& 0xFFFFFFFF = 0x00000330 ↔ decode w = .ok .pull32)

/-- Words written out from R96 and R99 decode as the spec's vectors V10 to V18 say. -/
def Obligations.WrittenOutWordsDecode : Prop :=
  decode 0x00000002 = .ok .init
    ∧ decode 0x00010010 = .ok (.setifmt .deinterleaved)
    ∧ decode 0x00000210 = .ok (.setbmode .linear)
    ∧ decode 0x00000120 = .ok .updfs
    ∧ decode 0x00000130 = .ok .push32
    ∧ decode 0x00000230 = .ok .pull16
    ∧ decode 0x00000000 = .error .noSuchOpcode
    ∧ decode 0x00000430 = .error .undefinedFunct
    ∧ decode 0x00010002 = .error .nonzeroImmediate

/-- R99: a word that matches no row of R96, written to `CMD` while the block is idle, sets `ERR` to
-128 and changes nothing else; the kinds of words R99 lists match no row: another opcode, an
undefined `funct`, a format Z word with an immediate, a format I word with one of bits 31:17. -/
def Obligations.IllegalWordChangesOnlyErr : Prop :=
  (∀ (w : Word) (s : State) (rest : List HostEvent),
    (∀ row ∈ ([(0xFFFFFFFF, 0x00000001), (0xFFFFFFFF, 0x00000002), (0xFFFFFFFF, 0x00000003),
        (0xFFFFFFFF, 0x00000004), (0xFFFEFFFF, 0x00000010), (0xFFFEFFFF, 0x00000110),
        (0xFFFEFFFF, 0x00000210), (0xFFFFFFFF, 0x00000020), (0xFFFFFFFF, 0x00000120),
        (0xFFFFFFFF, 0x00000030), (0xFFFFFFFF, 0x00000130), (0xFFFFFFFF, 0x00000230),
        (0xFFFFFFFF, 0x00000330)] : List (Word × Word)), w &&& row.1 ≠ row.2) →
    s.busy = false → s.pending = .write 0 w :: rest →
    step s = .next { s with err := .illegalCommand, pending := rest })
  ∧ errorNumber .illegalCommand = -128
  ∧ (∀ w ∈ ([0x00000000, 0x00000430, 0x00000310, 0x00000220, 0x00000102, 0x00010002,
        0x00020010] : List Word), ∀ i, decode w ≠ .ok i)
  ∧ (∀ w : Word, w.extractLsb' 0 8 ∉ ([0x01, 0x02, 0x03, 0x04, 0x10, 0x20, 0x30] : List (BitVec 8)) →
      ∀ i, decode w ≠ .ok i)
  ∧ (∀ w : Word, w.extractLsb' 0 16 ∉ ([0x0001, 0x0002, 0x0003, 0x0004, 0x0010, 0x0110, 0x0210,
        0x0020, 0x0120, 0x0030, 0x0130, 0x0230, 0x0330] : List (BitVec 16)) → ∀ i, decode w ≠ .ok i)
  ∧ (∀ w : Word, w.extractLsb' 0 16 ∈ ([0x0001, 0x0002, 0x0003, 0x0004, 0x0020, 0x0120, 0x0030,
        0x0130, 0x0230, 0x0330] : List (BitVec 16)) → w.extractLsb' 16 16 ≠ 0 → ∀ i, decode w ≠ .ok i)
  ∧ (∀ w : Word, w.extractLsb' 0 16 ∈ ([0x0010, 0x0110, 0x0210] : List (BitVec 16)) →
      w.extractLsb' 17 15 ≠ 0 → ∀ i, decode w ≠ .ok i)

/-- A step runs the decoded command: where the host's next act is to write to `CMD` a word that decodes
to `i`, and the block is idle, the step is `exec i` with that act done (R26; that the host's acts
stand in the state is the model's choice, assumption 3). -/
def Obligations.StepRunsTheDecodedCommand : Prop :=
  ∀ (s : State) (w : Word) (i : Instr) (rest : List HostEvent),
    s.busy = false → s.pending = .write 0 w :: rest → decode w = .ok i → i.wf = true →
    step s = exec i { s with pending := rest }

/-! ## Arithmetic -/

/-- R10: the saturating cast, by its three cases, and its result is an `intN`. -/
def Obligations.SaturationClampsToTheType : Prop :=
  ∀ (n : Nat) (v : Int), 1 ≤ n →
    (v < -(2 ^ (n - 1)) → sat n v = -(2 ^ (n - 1)))
    ∧ (2 ^ (n - 1) - 1 < v → sat n v = 2 ^ (n - 1) - 1)
    ∧ (-(2 ^ (n - 1)) ≤ v → v ≤ 2 ^ (n - 1) - 1 → sat n v = v)
    ∧ InInt n (sat n v)

/-- R11: the rounding shift is the formula of the rule, nearest, a tie away from zero, and odd; the
rule's examples. -/
def Obligations.RoundingShiftIsNearestAndOdd : Prop :=
  (∀ (v : Int) (s : Nat), 1 ≤ s →
    rshrSym v s = Int.sign v * ((|v| + 2 ^ (s - 1)) / 2 ^ s)
    ∧ 2 * |2 ^ s * rshrSym v s - v| ≤ 2 ^ s
    ∧ (2 * |2 ^ s * rshrSym v s - v| = 2 ^ s → |v| < |2 ^ s * rshrSym v s|)
    ∧ rshrSym (-v) s = -rshrSym v s)
  ∧ rshrSym (2 ^ 30) 31 = 1 ∧ rshrSym (-2 ^ 30) 31 = -1
  ∧ rshrSym (2 ^ 30 - 1) 31 = 0 ∧ rshrSym (-(2 ^ 30 - 1)) 31 = 0
  ∧ rshrSym (3 * 2 ^ 30) 31 = 2 ∧ rshrSym (-3 * 2 ^ 30) 31 = -2 ∧ rshrSym 0 31 = 0

/-- R12: the rounded division is the formula of the rule, nearest, a tie up; the rule's examples. -/
def Obligations.RoundedDivisionIsNearest : Prop :=
  (∀ n d : Nat, 0 < d →
    divRound n d = (2 * n + d) / (2 * d)
    ∧ (2 * d * divRound n d : Int) - 2 * n ≤ d ∧ (2 * n : Int) - 2 * d * divRound n d < d)
  ∧ divRound (48000 * 2 ^ 27) 44100 = 146087323 ∧ divRound 1 2 = 1 ∧ divRound 0 7 = 0

/-! ## DMEM and sample addresses -/

/-- A sample stored at an address is what is loaded from it, sign and all, in both widths, and every
byte outside it reads as before (R61 to R64, R68, R69). -/
def Obligations.StoredSampleLoadsBack : Prop :=
  ∀ (m : Memory) (addr : Word) (w : Nat) (y : Int), m.wf = true → w = 16 ∨ w = 32 → InInt w y →
    sext w (memRead (memWrite m addr (w / 8) (wrap w y)) addr (w / 8)) = y
    ∧ ∀ a, (∀ b < w / 8, a ≠ (addr + BitVec.ofNat 32 b).toNat) →
        readByte (memWrite m addr (w / 8) (wrap w y)) a = readByte m a

/-- R66: where a sample lies, interleaved and planar, modulo `2^32`; the rule's example. -/
def Obligations.SampleAddressFormula : Prop :=
  ∀ (p : Vector Word 16) (channels bytes f c : Nat),
    (sampleAddr p .interleaved channels bytes f c).toNat
        = (p[0].toNat + (f * channels + c) * bytes) % 2 ^ 32
    ∧ (∀ h : c < 16, (sampleAddr p .deinterleaved channels bytes f c).toNat
        = (p[c].toNat + f * bytes) % 2 ^ 32)
    ∧ sampleAddr (p.set 0 0x1000) .interleaved 2 2 3 1 = 0x100E

/-- Every step of the machine keeps DMEM in canonical form, whatever the state.  The form is the
model's choice (assumption 2). -/
def Obligations.EveryStepKeepsMemoryCanonical : Prop :=
  ∀ s t : State, s.dmem.wf = true → step s = .next t → t.dmem.wf = true

/-! ## Channel Ring Buffer -/

/-- R122: the advance moves the cursor by one, from the last cell to 0, and changes nothing else; with
at least two cells the cursor always moves. -/
def Obligations.RingAdvanceWraps : Prop :=
  ∀ s : State, s.writePosition.toNat < s.bufferLength.toNat →
    ringAdvance s = { s with writePosition := (ringAdvance s).writePosition }
    ∧ (ringAdvance s).writePosition.toNat =
        (if s.writePosition.toNat + 1 < s.bufferLength.toNat then s.writePosition.toNat + 1 else 0)
    ∧ (2 ≤ s.bufferLength.toNat → (ringAdvance s).writePosition ≠ s.writePosition)

/-- A relative read inside `1 .. FILTER_LENGTH` reads the cell `(wp - off) mod BL`, and outside it is
not defined (R123, R124); it is the window of the FIR engine (R152). -/
def Obligations.RelativeReadIsTheWindow : Prop :=
  ∀ (s : State) (c off : Nat), s.writePosition.toNat < s.bufferLength.toNat →
    s.filterLength.toNat ≤ s.bufferLength.toNat →
    (1 ≤ off ∧ off ≤ s.filterLength.toNat →
      ringReadRel s c off = some (ringCell s c
        (if off ≤ s.writePosition.toNat then s.writePosition.toNat - off
         else s.writePosition.toNat + s.bufferLength.toNat - off))
      ∧ ringReadRel s c off = some (windowSample s c (off - 1)))
    ∧ (off = 0 ∨ s.filterLength.toNat < off → ringReadRel s c off = none)

/-- R129: after a frame write the newest sample of every channel is the one just loaded, and what was
`k` behind the cursor is `k + 1` behind it. -/
def Obligations.FrameWriteShiftsTheWindow : Prop :=
  ∀ (s : State) (f c : Nat), RingShaped s → s.bitDepth = 16 ∨ s.bitDepth = 32 →
    s.writePosition.toNat < s.bufferLength.toNat → 2 ≤ s.bufferLength.toNat →
    c < s.numChannels.toNat →
    ringCell (frameWrite f s) c (indexBehind (frameWrite f s) 1) = inLoad s f c
    ∧ ∀ k, 1 ≤ k → k < s.bufferLength.toNat →
        ringCell (frameWrite f s) c (indexBehind (frameWrite f s) (k + 1))
          = ringCell s c (indexBehind s k)

/-- R173, an input step that is due: the active accumulator loses exactly `ONE`, the cursor advances,
each channel's row takes the loaded sample at the old cursor, and nothing else changes. -/
def Obligations.InputStepConsumesOneFrame : Prop :=
  ∀ (d : OperationMode) (f : Nat) (s : State), (Config.one : Int) ≤ s.time d →
    let t := trkConsume d f s
    t = { s with ring := t.ring, writePosition := t.writePosition
                 timeValue := t.timeValue, timeValuePull := t.timeValuePull }
    ∧ t.time d = s.time d - Config.one
    ∧ (∀ e, e ≠ d → t.time e = s.time e)
    ∧ t.writePosition = BitVec.ofNat 32 ((s.writePosition.toNat + 1) % s.bufferLength.toNat)
    ∧ t.ring.length = s.ring.length
    ∧ (∀ c < s.numChannels.toNat,
        t.ring[c]? = (s.ring[c]?).map
          (fun row => row.set s.writePosition.toNat (toWord (inLoad s f c))))
    ∧ (∀ c, s.numChannels.toNat ≤ c → t.ring[c]? = s.ring[c]?)

/-! ## Impulse Response Generator -/

/-- The evaluator `NUM_FILTERS` selects, of the four named ones, is the one recurrence of R142 on every
tap it writes, and it writes only `IR` (R138 to R142). -/
def Obligations.EvaluatorsFollowTheRecurrence : Prop :=
  ∀ (s : State) (t : Int), 4 ≤ s.numFilters.toNat → s.numFilters.toNat ≤ 7 →
    irgen t s = { s with ir := (irgen t s).ir }
    ∧ (irgen t s).ir.length = s.filterLength.toNat
    ∧ ∀ m < s.filterLength.toNat,
        irCell (irgen t s) m =
          hornerDown (fun j => coefCell s j m) (t * 16) (s.numFilters.toNat - 1)
            (coefCell s (s.numFilters.toNat - 1) m)

/-- At time 0 the impulse response is the constant row of the table (R143 (a)). -/
def Obligations.ImpulseResponseAtTimeZero : Prop :=
  ∀ (s : State) (m : Nat), 4 ≤ s.numFilters.toNat → s.numFilters.toNat ≤ 7 →
    m < s.filterLength.toNat → irCell (irgen 0 s) m = coefCell s 0 m

/-- R145: with `sum over j of |COEF[j][m]| < 2^31`, under which no step saturates (R143 (c)), a tap is
within `(N - 1) / 2` units of Q1.31 of the exact polynomial in the fractional time. -/
def Obligations.TapIsWithinHalfUnitPerStepOfThePolynomial : Prop :=
  ∀ (s : State) (t : Int) (m : Nat),
    4 ≤ s.numFilters.toNat → s.numFilters.toNat ≤ 7 → 0 ≤ t → t < Config.one →
    ((List.range s.numFilters.toNat).map (fun j => |coefCell s j m|)).sum < 2 ^ 31 →
    |(irgenTap s t m : ℚ) / 2 ^ 31
        - ((List.range s.numFilters.toNat).map
            (fun j => (coefCell s j m : ℚ) / 2 ^ 31 * ((t : ℚ) / 2 ^ 27) ^ j)).sum|
      ≤ ((s.numFilters.toNat : ℚ) - 1) / 2 / 2 ^ 31

/-! ## FIR Convolution Engine and output mux -/

/-- An all-zero window gives 0 whatever the taps, in both forms (R158 (a)), and a channel's output
depends on its own row of the ring only (R160). -/
def Obligations.FirReadsItsOwnChannel : Prop :=
  (∀ (s : State) (c : Nat), (∀ k < s.filterLength.toNat, windowSample s c k = 0) →
    fir16 s c = 0 ∧ fir32 s c = 0)
  ∧ ∀ (s : State) (r : List (List Word)) (c : Nat), r[c]? = s.ring[c]? →
      fir { s with ring := r } c = fir s c

/-- R175, an output step: the active accumulator gains the increment, saturating; the impulse response
is the one generated at the time before; each channel's sample is the FIR value under it, stored at
its address, where no other channel's sample of the frame overlaps it; every other byte reads as
before, and nothing else changes. -/
def Obligations.OutputStepStoresOneFrame : Prop :=
  ∀ (d : OperationMode) (f : Nat) (s : State), s.dmem.wf = true →
    let t := trkEmit d f s
    let g := irgen (s.time d) s
    t = { s with ir := g.ir, dmem := t.dmem
                 timeValue := t.timeValue, timeValuePull := t.timeValuePull }
    ∧ t.time d = sat 32 (s.time d + s.increment d)
    ∧ (∀ e, e ≠ d → t.time e = s.time e)
    ∧ (∀ c < s.numChannels.toNat, s.bitDepth = 16 ∨ s.bitDepth = 32 →
        (∀ c' < s.numChannels.toNat, c' ≠ c → ∀ b < s.sampleBytes, ∀ b' < s.sampleBytes,
          outputAddr s f c + BitVec.ofNat 32 b ≠ outputAddr s f c' + BitVec.ofNat 32 b') →
        sext s.bitDepth.toNat (memRead t.dmem (outputAddr s f c) s.sampleBytes)
          = if s.bitDepth = 16 then fir16 g c else fir32 g c)
    ∧ (∀ a, (∀ c < s.numChannels.toNat, ∀ b < s.sampleBytes,
          a ≠ (outputAddr s f c + BitVec.ofNat 32 b).toNat) →
        readByte t.dmem a = readByte s.dmem a)

/-! ## Drift Controller -/

/-- R186, with R187's clamp: `UPDRIFT` in its mode with a positive skew sets the ratio to the nominal
ratio times the skew, rounded and clamped, and the reciprocal of that, and changes nothing else but
`ERR`; its three errors, in order, change nothing but `ERR`. -/
def Obligations.UpdriftSetsTheSkewedRatio : Prop :=
  (∀ s : State, s.lifecycle = .ready → s.controlMode = .feedback → 0 < s.argInt 0 →
    let r := min (max (rshrSym (s.fsRatioNom.toInt * s.argInt 0) 30) s.params.ratioMin)
      s.params.ratioMax
    exec .updrift s = .next
      { s with err := .ok, fsRatio := toWord r, fsRatioInv := toWord (divRound (2 ^ 54) r.toNat) })
  ∧ (∀ s : State, s.lifecycle ≠ .ready → exec .updrift s = .next { s with err := .invalidPointer })
  ∧ (∀ s : State, s.lifecycle = .ready → s.controlMode ≠ .feedback →
      exec .updrift s = .next { s with err := .invalidControlMode })
  ∧ ∀ s : State, s.lifecycle = .ready → s.controlMode = .feedback → s.argInt 0 ≤ 0 →
      exec .updrift s = .next { s with err := .invalidClockSkew }

/-- A skew of exactly 1.0 sets the nominal ratio, when that is in the supported range (R188 (a)). -/
def Obligations.UnitySkewRestoresTheNominalRatio : Prop :=
  ∀ s : State, s.lifecycle = .ready → s.controlMode = .feedback → s.arg 0 = 0x40000000 →
    (s.params.ratioMin : Int) ≤ s.fsRatioNom.toInt →
    s.fsRatioNom.toInt ≤ (s.params.ratioMax : Int) →
    ∃ t, exec .updrift s = .next t ∧ t.fsRatio = s.fsRatioNom ∧ t.err = .ok

/-- R190, with R191's range: `UPDFS` in its mode with positive counts whose ratio is in range sets both
ratios from the counts and the flag, and changes nothing else but `ERR`; its four errors, in order,
change nothing but `ERR`. -/
def Obligations.UpdfsSetsTheMeasuredRatio : Prop :=
  (∀ s : State, s.lifecycle = .ready → s.controlMode = .fixed → 0 < s.argInt 0 → 0 < s.argInt 1 →
    let r := divRound ((s.argInt 0).toNat * 2 ^ 27) (s.argInt 1).toNat
    let ri := divRound ((s.argInt 1).toNat * 2 ^ 27) (s.argInt 0).toNat
    (s.params.ratioMin ≤ r → r ≤ s.params.ratioMax →
      exec .updfs s = .next
        { s with err := .ok, fsUpdated := true, fsRatio := toWord r, fsRatioInv := toWord ri })
    ∧ (r < s.params.ratioMin ∨ s.params.ratioMax < r →
      exec .updfs s = .next { s with err := .invalidConversionRatio }))
  ∧ (∀ s : State, s.lifecycle ≠ .ready → exec .updfs s = .next { s with err := .invalidPointer })
  ∧ (∀ s : State, s.lifecycle = .ready → s.controlMode ≠ .fixed →
      exec .updfs s = .next { s with err := .invalidControlMode })
  ∧ ∀ s : State, s.lifecycle = .ready → s.controlMode = .fixed → s.argInt 0 ≤ 0 ∨ s.argInt 1 ≤ 0 →
      exec .updfs s = .next { s with err := .invalidClockSkew }

/-- R194: the update command of the other control mode returns the mode error whatever its operands, and
changes nothing else. -/
def Obligations.WrongModeUpdateChangesOnlyErr : Prop :=
  (∀ s : State, s.lifecycle = .ready → s.controlMode = .fixed →
    exec .updrift s = .next { s with err := .invalidControlMode })
  ∧ ∀ s : State, s.lifecycle = .ready → s.controlMode = .feedback →
      exec .updfs s = .next { s with err := .invalidControlMode }

/-! ## Configuration -/

/-- R231: `QSIZE` returns the size in `A[0]`, in every lifecycle state, and changes nothing else but
`ERR`; its two errors, in order, change nothing but `ERR`; the rule's examples with the default
parameters. -/
def Obligations.QsizeReturnsTheRequiredSize : Prop :=
  (∀ s : State, 0 < s.argInt 0 → s.argInt 0 ≤ (s.params.maxChannels : Int) →
    s.argInt 1 = 16 ∨ s.argInt 1 = 32 →
    exec .qsize s = .next
      { s with
        err := .ok
        a := s.a.set 0 (toWord (s.argInt 0 * (s.params.ringCapacity : Int) * (s.argInt 1 / 8)
          + (s.params.maxFilterLength : Int) * 4)) })
  ∧ (∀ s : State, s.argInt 0 ≤ 0 ∨ (s.params.maxChannels : Int) < s.argInt 0 →
      exec .qsize s = .next { s with err := .invalidNumChannels })
  ∧ (∀ s : State, 0 < s.argInt 0 → s.argInt 0 ≤ (s.params.maxChannels : Int) →
      s.argInt 1 ≠ 16 → s.argInt 1 ≠ 32 →
      exec .qsize s = .next { s with err := .invalidBitDepth })
  ∧ ∀ k ∈ ([(1, 16, 1024), (2, 32, 2560), (8, 32, 8704)] : List (Int × Int × Int)), ∀ s : State,
      s.params = Config.defaults → s.argInt 0 = k.1 → s.argInt 1 = k.2.1 →
      exec .qsize s = .next { s with err := .ok, a := s.a.set 0 (toWord k.2.2) }

/-- R232: `QSIZE` accepts a pair of channel count and bit depth exactly when the checks of `INIT` on
those two operands pass, that is, when `INIT` reports neither of their errors. -/
def Obligations.QsizeAcceptsWhatInitAccepts : Prop :=
  ∀ s u t v : State, s.params = u.params → s.arg 0 = u.arg 0 → s.arg 1 = u.arg 7 →
    (∀ i ∈ ([3, 4, 5, 8, 9] : List (Fin 16)), u.argInt i = 0 ∨ u.argInt i = 1) →
    exec .qsize s = .next t → exec .init u = .next v →
    (t.err = .ok ↔ v.err ≠ .invalidNumChannels ∧ v.err ≠ .invalidBitDepth)

/-- R233, R238: `INIT` with operands that pass every check configures the block from them: the whole
next state. -/
def Obligations.InitInstallsTheConfiguration : Prop :=
  ∀ (s : State) (e : FilterEntry),
    (∀ i ∈ ([3, 4, 5, 8, 9] : List (Fin 16)), s.argInt i = 0 ∨ s.argInt i = 1) →
    0 < s.argInt 0 → s.argInt 0 ≤ (s.params.maxChannels : Int) →
    s.argInt 7 = 16 ∨ s.argInt 7 = 32 →
    1 < s.argInt 6 → s.argInt 6 ≤ (s.params.ringCapacity : Int) →
    (∃ r ∈ Config.supportedRates, s.argInt 1 = r) → (∃ r ∈ Config.supportedRates, s.argInt 2 = r) →
    filterLookup s.params (s.argInt 1) (s.argInt 2) = some e →
    let r := divRound ((s.arg 1).toNat * 2 ^ 27) (s.arg 2).toNat
    s.params.ratioMin ≤ r → r ≤ s.params.ratioMax →
    e.filterLength % 4 = 0 → 4 ≤ e.filterLength → e.filterLength ≤ s.params.maxFilterLength →
    (e.filterLength : Int) ≤ s.argInt 6 →
    exec .init s = .next
      { s with
        err := .ok, lifecycle := .ready, fsUpdated := false
        numChannels := s.arg 0, fsPrim := s.arg 1, fsSec := s.arg 2
        inputFormat := if s.arg 3 = 0 then .interleaved else .deinterleaved
        outputFormat := if s.arg 4 = 0 then .interleaved else .deinterleaved
        bufferMode := if s.arg 5 = 0 then .linear else .circular
        bufferLength := s.arg 6, bitDepth := s.arg 7
        controlMode := if s.arg 8 = 0 then .feedback else .fixed
        operationMode := if s.arg 9 = 0 then .push else .pull
        filterLength := BitVec.ofNat 32 e.filterLength
        numFilters := BitVec.ofNat 32 e.numFilters.toNat, coef := e.coef
        fsRatioNom := BitVec.ofNat 32 r, fsRatio := BitVec.ofNat 32 r
        fsRatioInv := BitVec.ofNat 32 (divRound (2 ^ 54) r)
        timeValue := 0x08000000, timeValuePull := 0x08000000, writePosition := 0
        ring := List.replicate (s.arg 0).toNat (List.replicate (s.arg 6).toNat 0) }

/-- R101: an enumeration operand of `INIT` that is neither 0 nor 1 is a malformed command: `ERR` and
nothing else changes, whatever the other operands and the lifecycle state. -/
def Obligations.InitMalformedEnumerationChangesOnlyErr : Prop :=
  ∀ (s : State) (i : Fin 16), i ∈ ([3, 4, 5, 8, 9] : List (Fin 16)) →
    s.argInt i ≠ 0 → s.argInt i ≠ 1 →
    exec .init s = .next { s with err := .illegalCommand }

/-- The checks of `INIT` after the enumeration operands, in their order, each with its code; the failing
command changes `ERR` and the lifecycle state only (R234 to R237, R239, R270). -/
def Obligations.InitReportsTheFirstFailingCheck : Prop :=
  ∀ s : State,
    (∀ i ∈ ([3, 4, 5, 8, 9] : List (Fin 16)), s.argInt i = 0 ∨ s.argInt i = 1) →
    let failsWith := fun ec => exec .init s = .next { s with lifecycle := .failed, err := ec }
    let channels := 0 < s.argInt 0 ∧ s.argInt 0 ≤ (s.params.maxChannels : Int)
    let depth := s.argInt 7 = 16 ∨ s.argInt 7 = 32
    let length := 1 < s.argInt 6 ∧ s.argInt 6 ≤ (s.params.ringCapacity : Int)
    let rates := (∃ r ∈ Config.supportedRates, s.argInt 1 = r)
      ∧ (∃ r ∈ Config.supportedRates, s.argInt 2 = r)
    let r := divRound ((s.argInt 1).toNat * 2 ^ 27) (s.argInt 2).toNat
    (¬ channels → failsWith .invalidNumChannels)
    ∧ (channels → ¬ depth → failsWith .invalidBitDepth)
    ∧ (channels → depth → ¬ length → failsWith .invalidBufferLength)
    ∧ (channels → depth → length → ¬ rates → failsWith .invalidSampleRate)
    ∧ (channels → depth → length → rates →
        filterLookup s.params (s.argInt 1) (s.argInt 2) = none → failsWith .invalidConversionRatio)
    ∧ ∀ e, channels → depth → length → rates →
        filterLookup s.params (s.argInt 1) (s.argInt 2) = some e →
        (r < s.params.ratioMin ∨ s.params.ratioMax < r → failsWith .invalidConversionRatio)
        ∧ (s.params.ratioMin ≤ r → r ≤ s.params.ratioMax →
            let good := e.filterLength % 4 = 0 ∧ 4 ≤ e.filterLength
              ∧ e.filterLength ≤ s.params.maxFilterLength
            (¬ good → failsWith .invalidFilterLength)
            ∧ (good → s.argInt 6 < (e.filterLength : Int) → failsWith .invalidBufferLength))

/-- R239: when a check of `INIT` fails after the enumeration operands passed, the block is `FAILED` and
nothing else but `ERR` changes; in `FAILED` every command but `QSIZE` and `INIT` is turned away; an
`INIT` that returns the malformed-command code leaves the lifecycle state alone. -/
def Obligations.FailedInitLeavesEverythingElse : Prop :=
  (∀ s t : State, exec .init s = .next t → t.err ≠ .ok → t.err ≠ .illegalCommand →
    t = { s with lifecycle := .failed, err := t.err })
  ∧ (∀ s t : State, exec .init s = .next t → t.err = .illegalCommand →
      t = { s with err := .illegalCommand })
  ∧ (∀ (s : State) (i : Instr), s.lifecycle = .failed → i ≠ .qsize → i ≠ .init →
      exec i s = .next { s with err := .invalidPointer })
  ∧ ∀ (s t : State) (i : Instr), s.lifecycle = .failed → i = .qsize ∨ i = .init →
      exec i s = .next t → t.err ≠ .invalidPointer

/-- `SETFS` in `READY` or `NOFILTER` with operands that pass its checks replaces the rates and the
table, restarts the time and flushes the ring, and keeps every other register: the whole next state
(R238, R241). -/
def Obligations.SetfsReplacesTheRates : Prop :=
  ∀ (s : State) (e : FilterEntry), s.lifecycle = .ready ∨ s.lifecycle = .noFilter →
    (∃ r ∈ Config.supportedRates, s.argInt 0 = r) → (∃ r ∈ Config.supportedRates, s.argInt 1 = r) →
    filterLookup s.params (s.argInt 0) (s.argInt 1) = some e →
    let r := divRound ((s.arg 0).toNat * 2 ^ 27) (s.arg 1).toNat
    s.params.ratioMin ≤ r → r ≤ s.params.ratioMax →
    e.filterLength % 4 = 0 → 4 ≤ e.filterLength → e.filterLength ≤ s.params.maxFilterLength →
    e.filterLength ≤ s.bufferLength.toNat →
    exec .setfs s = .next
      { s with
        err := .ok, lifecycle := .ready, fsUpdated := false
        fsPrim := s.arg 0, fsSec := s.arg 1
        filterLength := BitVec.ofNat 32 e.filterLength
        numFilters := BitVec.ofNat 32 e.numFilters.toNat, coef := e.coef
        fsRatioNom := BitVec.ofNat 32 r, fsRatio := BitVec.ofNat 32 r
        fsRatioInv := BitVec.ofNat 32 (divRound (2 ^ 54) r)
        timeValue := 0x08000000, timeValuePull := 0x08000000, writePosition := 0
        ring := List.replicate s.numChannels.toNat (List.replicate s.bufferLength.toNat 0) }

/-- R243: `FREEFLT` in `READY` or `NOFILTER` releases the table and keeps everything else; elsewhere it
returns the lifecycle error; after it the processing and drift commands are turned away; a second
one changes nothing.  That the released table is an empty one, whose cells read as free values, is
the model's choice (assumption 6). -/
def Obligations.FreefltReleasesTheTable : Prop :=
  (∀ s : State, s.lifecycle = .ready ∨ s.lifecycle = .noFilter →
    exec .freeflt s = .next
      { s with err := .ok, lifecycle := .noFilter, filterLength := 0, numFilters := 0, coef := [] })
  ∧ (∀ s : State, s.lifecycle = .unconfigured ∨ s.lifecycle = .failed →
      exec .freeflt s = .next { s with err := .invalidPointer })
  ∧ (∀ (s t : State) (i : Instr), exec .freeflt s = .next t → t.err = .ok →
      i ∈ ([.updrift, .updfs, .push16, .push32, .pull16, .pull32] : List Instr) →
      exec i t = .next { t with err := .invalidPointer })
  ∧ ∀ s t : State, exec .freeflt s = .next t → t.err = .ok → exec .freeflt t = .next t

/-- R245 to R247: in `READY` or `NOFILTER` a setter writes its one register and `ERR`, and nothing else,
for both values of its operand; elsewhere it returns the lifecycle error. -/
def Obligations.SettersChangeOneRegister : Prop :=
  (∀ s : State, s.lifecycle = .ready ∨ s.lifecycle = .noFilter →
    (∀ v, exec (.setifmt v) s = .next { s with err := .ok, inputFormat := v })
    ∧ (∀ v, exec (.setofmt v) s = .next { s with err := .ok, outputFormat := v })
    ∧ ∀ v, exec (.setbmode v) s = .next { s with err := .ok, bufferMode := v })
  ∧ ∀ s : State, s.lifecycle ≠ .ready → s.lifecycle ≠ .noFilter →
    (∀ v, exec (.setifmt v) s = .next { s with err := .invalidPointer })
    ∧ (∀ v, exec (.setofmt v) s = .next { s with err := .invalidPointer })
    ∧ ∀ v, exec (.setbmode v) s = .next { s with err := .invalidPointer }

/-- The acceptance table of R29: a command the lifecycle state does not accept returns
`ASRC_EC_INVALID_POINTER` and changes nothing but `ERR`. -/
def Obligations.RefusedCommandChangesOnlyErr : Prop :=
  ∀ (i : Instr) (s : State), accepts s.lifecycle i = false →
    exec i s = .next { s with err := .invalidPointer }

/-- How a command that answers moves `STATE` (R29, R230). -/
def Obligations.LifecycleMovesOnlyAsTheTableSays : Prop :=
  ∀ (i : Instr) (s t : State), exec i s = .next t →
    t.lifecycle =
      match i with
      | .init =>
        if t.err = .ok then .ready else if t.err = .illegalCommand then s.lifecycle else .failed
      | .setfs =>
        if s.lifecycle = .ready ∨ s.lifecycle = .noFilter then
          if t.err = .ok then .ready else .failed
        else s.lifecycle
      | .freeflt => if t.err = .ok then .noFilter else s.lifecycle
      | _ => s.lifecycle

/-! ## Processing -/

/-- R203: the seven checks of the four processing commands, in their order, each with its code; the
failing command changes nothing but `ERR`. -/
def Obligations.ProcessingReportsTheFirstFailingCheck : Prop :=
  ∀ k ∈ ([(.push16, 16, .push, .failedPushMode), (.push32, 32, .push, .failedPushMode),
      (.pull16, 16, .pull, .failedPullMode), (.pull32, 32, .pull, .failedPullMode)] :
      List (Instr × Nat × OperationMode × ErrorCode)),
  ∀ s : State,
    let failsWith := fun ec => exec k.1 s = .next { s with err := ec }
    let ready := s.lifecycle = .ready
    let width := s.bitDepth.toNat = k.2.1
    let direction := s.operationMode = k.2.2.1
    let updated := s.controlMode = .fixed → s.fsUpdated = true
    let aligned := SideAligned s.iptr s.inputFormat s.numChannels.toNat (k.2.1 / 8)
      ∧ SideAligned s.optr s.outputFormat s.numChannels.toNat (k.2.1 / 8)
    let count := 0 ≤ s.argInt (if k.2.2.1 = .push then 0 else 1)
    let indices := s.bufferMode = .circular →
      1 < s.argInt 4 ∧ 0 ≤ s.argInt 2 ∧ s.argInt 2 < s.argInt 4
        ∧ 0 ≤ s.argInt 3 ∧ s.argInt 3 < s.argInt 4
    (¬ ready → failsWith .invalidPointer)
    ∧ (ready → ¬ width → failsWith .invalidBitDepth)
    ∧ (ready → width → ¬ direction → failsWith k.2.2.2)
    ∧ (ready → width → direction → ¬ updated → failsWith .updateFsFailed)
    ∧ (ready → width → direction → updated → ¬ aligned → failsWith .invalidPointer)
    ∧ (ready → width → direction → updated → aligned → ¬ count → failsWith k.2.2.2)
    ∧ (ready → width → direction → updated → aligned → count → ¬ indices → failsWith k.2.2.2)

/-- `PUSH16` and `PUSH32` complete whenever their checks pass and the ratio is positive: the frames
consumed and produced (R205 to R207), the time and the cursor after them (R128, R178), and the frame:
only the result registers, `ERR`, `FS_UPDATED`, the active accumulator, the ring, its cursor and `IR`
change, and of DMEM only the bytes of the samples produced (R22, R83, R171). -/
def Obligations.PushCompletes : Prop :=
  ∀ k ∈ ([(.push16, 16), (.push32, 32)] : List (Instr × Nat)), ∀ s : State,
    ProcessingAllowed k.2 .push s → s.dmem.wf = true →
    0 < s.fsRatio.toInt → s.fsRatio.toInt ≤ 2 ^ 30 →
    s.writePosition.toNat < s.bufferLength.toNat →
    ∃ t, exec k.1 s = .next t
      ∧ t = { s with
              a := t.a, err := .ok
              fsUpdated := if s.controlMode = .fixed then false else s.fsUpdated
              timeValue := t.timeValue, writePosition := t.writePosition
              ring := t.ring, ir := t.ir, dmem := t.dmem }
      ∧ t.arg 0 = BitVec.ofNat 32 (framesDone .push s).1
      ∧ t.arg 1 = BitVec.ofNat 32 (framesDone .push s).2
      ∧ t.arg 2 = (if s.bufferMode = .circular then
            BitVec.ofNat 32 (((s.argInt 2).toNat + (framesDone .push s).2) % (s.argInt 4).toNat)
          else s.arg 2)
      ∧ (∀ i, 2 < i → t.arg i = s.arg i)
      ∧ t.timeValue.toInt = s.timeValue.toInt + (framesDone .push s).2 * s.fsRatio.toInt
          - (framesDone .push s).1 * Config.one
      ∧ t.writePosition.toNat
          = (s.writePosition.toNat + (framesDone .push s).1) % s.bufferLength.toNat
      ∧ ∀ a, (∀ j < (framesDone .push s).2, ∀ c < s.numChannels.toNat, ∀ b < s.sampleBytes,
            a ≠ outputByte .push s j c b) →
          readByte t.dmem a = readByte s.dmem a

/-- `PULL16` and `PULL32` complete whenever their checks pass and the increment is positive: the same,
for the pull direction (R211 to R215).  Of `A[3]` only the circular value is said: in linear mode it
is unspecified (R216), and the model's counter of free values moves (assumption 5). -/
def Obligations.PullCompletes : Prop :=
  ∀ k ∈ ([(.pull16, 16), (.pull32, 32)] : List (Instr × Nat)), ∀ s : State,
    ProcessingAllowed k.2 .pull s → s.dmem.wf = true →
    0 < s.fsRatioInv.toInt → s.fsRatioInv.toInt ≤ 2 ^ 30 + 2 ^ 5 →
    s.writePosition.toNat < s.bufferLength.toNat →
    ∃ t, exec k.1 s = .next t
      ∧ t = { s with
              a := t.a, err := .ok
              fsUpdated := if s.controlMode = .fixed then false else s.fsUpdated
              timeValuePull := t.timeValuePull, writePosition := t.writePosition
              ring := t.ring, ir := t.ir, dmem := t.dmem, freeCount := t.freeCount }
      ∧ t.arg 0 = BitVec.ofNat 32 (framesDone .pull s).1
      ∧ t.arg 1 = BitVec.ofNat 32 (framesDone .pull s).2
      ∧ t.arg 2 = s.arg 2
      ∧ (s.bufferMode = .circular → t.arg 3 =
          BitVec.ofNat 32 (((s.argInt 3).toNat + (framesDone .pull s).1) % (s.argInt 4).toNat))
      ∧ (∀ i, 3 < i → t.arg i = s.arg i)
      ∧ t.timeValuePull.toInt = s.timeValuePull.toInt + (framesDone .pull s).2 * s.fsRatioInv.toInt
          - (framesDone .pull s).1 * Config.one
      ∧ t.writePosition.toNat
          = (s.writePosition.toNat + (framesDone .pull s).1) % s.bufferLength.toNat
      ∧ ∀ a, (∀ j < (framesDone .pull s).2, ∀ c < s.numChannels.toNat, ∀ b < s.sampleBytes,
            a ≠ outputByte .pull s j c b) →
          readByte t.dmem a = readByte s.dmem a

/-- What a processing command stores: in a consistent configuration, with input and output samples that
do not overlap, the sample of every output frame and channel is the rounded and saturated
convolution of the taps generated at the frame's fractional position with the newest
`FILTER_LENGTH` samples at that position, the first of them from the ring the command found
(R150 to R154, R175, R177). -/
def Obligations.OutputIsTheFarrowConvolution : Prop :=
  ∀ k ∈ ([(.push16, 16, .push), (.push32, 32, .push), (.pull16, 16, .pull), (.pull32, 32, .pull)] :
      List (Instr × Nat × OperationMode)),
  ∀ s t : State, ReadyInv s → s.params.wf = true → s.dmem.wf = true →
    ProcessingAllowed k.2.1 k.2.2 s →
    (∀ j < (framesDone k.2.2 s).2, ∀ c < s.numChannels.toNat, ∀ b < s.sampleBytes,
      ∀ i < (framesDone k.2.2 s).1, ∀ c' < s.numChannels.toNat, ∀ b' < s.sampleBytes,
        outputByte k.2.2 s j c b ≠ inputByte k.2.2 s i c' b') →
    (∀ j < (framesDone k.2.2 s).2, ∀ c < s.numChannels.toNat, ∀ b < s.sampleBytes,
      ∀ j' < (framesDone k.2.2 s).2, ∀ c' < s.numChannels.toNat, ∀ b' < s.sampleBytes,
        outputByte k.2.2 s j c b = outputByte k.2.2 s j' c' b' → j = j' ∧ c = c') →
    exec k.1 s = .next t →
    ∀ j < (framesDone k.2.2 s).2, ∀ c < s.numChannels.toNat,
      sext s.bitDepth.toNat
          (memRead t.dmem (outputAddr s (outputSlot k.2.2 s j) c) s.sampleBytes)
        = farrowOutput k.2.2 s j c

/-- R178, chunking invariance: in feedback mode and linear buffers, offering `m + n` input frames at
once, or `m` frames and then `n`, gives the same total of output frames, the same time and the same
cursor, wherever the buffers of the second command lie. -/
def Obligations.PushCountsDoNotDependOnChunking : Prop :=
  ∀ k ∈ ([(.push16, 16), (.push32, 32)] : List (Instr × Nat)),
  ∀ (s u t1 t2 : State) (m n : Nat) (ip op : Vector Word 16),
    ProcessingAllowed k.2 .push s → s.bufferMode = .linear → s.controlMode = .feedback →
    0 < s.fsRatio.toInt → s.fsRatio.toInt ≤ 2 ^ 30 →
    s.writePosition.toNat < s.bufferLength.toNat → s.dmem.wf = true →
    m + n < 2 ^ 31 → s.arg 0 = BitVec.ofNat 32 m →
    exec k.1 { s with a := s.a.set 0 (BitVec.ofNat 32 (m + n)) } = .next u →
    exec k.1 s = .next t1 →
    ProcessingAllowed k.2 .push
      { t1 with a := t1.a.set 0 (BitVec.ofNat 32 n), iptr := ip, optr := op } →
    exec k.1 { t1 with a := t1.a.set 0 (BitVec.ofNat 32 n), iptr := ip, optr := op } = .next t2 →
    t1.arg 1 + t2.arg 1 = u.arg 1 ∧ t2.timeValue = u.timeValue
      ∧ t2.writePosition = u.writePosition

/-- R207: a push to a circular buffer never writes past the read index: it produces at most
`(r - w - 1) mod io_len` frames, and answers the write index advanced by what it produced. -/
def Obligations.PushNeverWritesPastTheReadIndex : Prop :=
  ∀ k ∈ ([(.push16, 16), (.push32, 32)] : List (Instr × Nat)), ∀ s t : State,
    ProcessingAllowed k.2 .push s → s.bufferMode = .circular → exec k.1 s = .next t →
    t.err = .ok ∧ t.argInt 1 ≤ (s.argInt 3 - s.argInt 2 - 1) % s.argInt 4
      ∧ t.argInt 2 = (s.argInt 2 + t.argInt 1) % s.argInt 4
      ∧ t.argInt 0 ≤ s.argInt 0

/-- R214: a pull from a circular buffer never reports consuming more input frames than are available,
and answers the read index advanced by what it consumed. -/
def Obligations.PullNeverReadsPastTheWriteIndex : Prop :=
  ∀ k ∈ ([(.pull16, 16), (.pull32, 32)] : List (Instr × Nat)), ∀ s t : State,
    ProcessingAllowed k.2 .pull s → s.bufferMode = .circular → exec k.1 s = .next t →
    t.argInt 0 ≤ (s.argInt 2 - s.argInt 3) % s.argInt 4
      ∧ t.argInt 3 = (s.argInt 3 + t.argInt 0) % s.argInt 4

/-- A pull of no frames writes its result registers and flags and nothing else (R217). -/
def Obligations.PullOfNoFramesWritesOnlyResults : Prop :=
  ∀ k ∈ ([(.pull16, 16), (.pull32, 32)] : List (Instr × Nat)), ∀ s : State,
    ProcessingAllowed k.2 .pull s → s.arg 1 = 0 →
    ∃ t, exec k.1 s = .next t
      ∧ t = { s with a := t.a, err := .ok, ir := t.ir, freeCount := t.freeCount
                     fsUpdated := if s.controlMode = .fixed then false else s.fsUpdated }
      ∧ t.arg 0 = 0 ∧ t.arg 1 = 0
      ∧ (s.bufferMode = .circular → t.arg 3 = s.arg 3)
      ∧ ∀ i, i ≠ 0 → i ≠ 1 → i ≠ 3 → t.arg i = s.arg i

/-- R193: in fixed mode a processing command that would run but for the flag fails with
`ASRC_EC_UPDATE_FS_FAILED`, one that runs clears the flag, and a failing one leaves it. -/
def Obligations.FixedModeNeedsAnUpdatePerCommand : Prop :=
  ∀ k ∈ ([(.push16, 16, .push), (.push32, 32, .push), (.pull16, 16, .pull), (.pull32, 32, .pull)] :
      List (Instr × Nat × OperationMode)),
  ∀ s t : State, s.controlMode = .fixed → exec k.1 s = .next t →
    (ProcessingAllowed k.2.1 k.2.2 { s with fsUpdated := true } → s.fsUpdated = false →
      t = { s with err := .updateFsFailed })
    ∧ (t.err = .ok → s.fsUpdated = true ∧ t.fsUpdated = false)
    ∧ (t.err ≠ .ok → t.fsUpdated = s.fsUpdated)

/-- The model's choice for states no run reaches (assumption 8): a push to a linear buffer whose ratio
is zero, with an output step due, has a loop without end, and the machine stops there. -/
def Obligations.PushWithZeroRatioNeverEnds : Prop :=
  ∀ k ∈ ([(.push16, 16), (.push32, 32)] : List (Instr × Nat)), ∀ s : State,
    ProcessingAllowed k.2 .push s → s.bufferMode = .linear → s.fsRatio = 0 →
    s.timeValue.toInt < Config.one → exec k.1 s = .fault .loopNeverEnds

/-! ## Errors -/

/-- R267: a command that returns an error changes `ERR` and nothing else, but for the lifecycle state
where `INIT` or `SETFS` reports a configuration error past its first check (R262). -/
def Obligations.FailingCommandHasNoPartialEffect : Prop :=
  ∀ (i : Instr) (s t : State), exec i s = .next t → t.err ≠ .ok →
    (t = { s with err := t.err }
      ∧ ¬ (i = .init ∧ t.err ≠ .illegalCommand)
      ∧ ¬ (i = .setfs ∧ (s.lifecycle = .ready ∨ s.lifecycle = .noFilter)))
    ∨ (t = { s with err := t.err, lifecycle := .failed }
      ∧ ((i = .init ∧ t.err ≠ .illegalCommand)
          ∨ (i = .setfs ∧ (s.lifecycle = .ready ∨ s.lifecycle = .noFilter)))
      ∧ errorClass t.err = .configuration)

/-- R265: no command returns `ASRC_EC_INVALID_FRAME_SIZE`, and the code keeps its number; a negative
frame count of a command that would otherwise run is reported as the command's own code. -/
def Obligations.InvalidFrameSizeIsNeverReturned : Prop :=
  (∀ (i : Instr) (s t : State), exec i s = .next t → t.err ≠ .invalidFrameSize)
  ∧ errorNumber .invalidFrameSize = -7
  ∧ ∀ k ∈ ([(.push16, 16, .push, .failedPushMode, 0), (.push32, 32, .push, .failedPushMode, 0),
      (.pull16, 16, .pull, .failedPullMode, 1), (.pull32, 32, .pull, .failedPullMode, 1)] :
      List (Instr × Nat × OperationMode × ErrorCode × Fin 16)),
    ∀ (s : State) (v : Word), ProcessingAllowed k.2.1 k.2.2.1 s → v.toInt < 0 →
      exec k.1 (s.setArg k.2.2.2.2 v) = .next { s.setArg k.2.2.2.2 v with err := k.2.2.2.1 }

/-- R261: the numbers and classes of the codes, and the words the host reads from `ERR` (R27). -/
def Obligations.ErrorNumbersReadFromErr : Prop :=
  (∀ s : State, readReg s .err = toWord (errorNumber s.err))
  ∧ ([.ok, .invalidPointer, .invalidSampleRate, .invalidConversionRatio, .invalidBitDepth,
      .invalidNumChannels, .invalidBufferLength, .invalidFrameSize, .invalidFilterLength,
      .invalidClockSkew, .invalidControlMode, .updateFsFailed, .failedPushMode, .failedPullMode,
      .illegalCommand] : List ErrorCode).map (fun ec => toWord (errorNumber ec))
    = [0x00000000, 0xFFFFFFFF, 0xFFFFFFFE, 0xFFFFFFFD, 0xFFFFFFFC, 0xFFFFFFFB, 0xFFFFFFFA,
       0xFFFFFFF9, 0xFFFFFFF8, 0xFFFFFFF7, 0xFFFFFFF6, 0xFFFFFFF5, 0xFFFFFFF4, 0xFFFFFFF3,
       0xFFFFFF80]
  ∧ (∀ ec : ErrorCode, errorNumber ec ∈ ([0, -1, -2, -3, -4, -5, -6, -7, -8, -9, -10, -11, -12, -13,
      -128] : List Int))
  ∧ (∀ ec : ErrorCode, errorClass ec =
      if errorNumber ec = 0 then .success
      else if errorNumber ec = -128 then .malformed
      else if -8 ≤ errorNumber ec then .configuration
      else if -11 ≤ errorNumber ec then .control else .processing)

/-! ## Reset and the host's accesses -/

/-- After reset every register the host can read is 0 but the two time accumulators, at offsets `0x14C`
and `0x150`, which hold `0x0800_0000` (R48, R54). -/
def Obligations.ResetRegistersReadAsTheMapSays : Prop :=
  ∀ k : BitVec 8, readReg State.reset (hostRegAt k) =
    if 4 * k.toNat = 0x14C ∨ 4 * k.toNat = 0x150 then 0x08000000 else 0

/-- The reset input, asserted between commands in any state that is not busy, takes every register to
its reset value and the lifecycle to `UNCONFIGURED`, and touches no byte of DMEM (R244, R290; the
model takes it between commands only, assumption 4). -/
def Obligations.HardwareResetFromAnyState : Prop :=
  ∀ (s : State) (rest : List HostEvent), s.busy = false → s.pending = .reset :: rest →
    ∃ t, step s = .next t ∧ t.lifecycle = .unconfigured ∧ t.dmem = s.dmem ∧ t.pending = rest
      ∧ t.params = s.params
      ∧ ∀ k, readReg t (hostRegAt k) = readReg State.reset (hostRegAt k)

/-- R49: a host write changes the register it names when that is an argument or pointer register, and
nothing else; to any other register but `CMD` it is ignored; a host read changes nothing of the
block; while `BUSY = 1` no access but a read of `STATUS` has a meaning, and the model refuses it
(its choice, assumption 9). -/
def Obligations.HostAccessTouchesOnlyItsRegister : Prop :=
  ∀ (s : State) (k : BitVec 8) (v : Word) (rest : List HostEvent),
    (s.busy = false → s.pending = .write k v :: rest → hostRegAt k ≠ .cmd →
      ∃ t, step s = .next t
        ∧ t = { s with a := t.a, iptr := t.iptr, optr := t.optr, pending := rest }
        ∧ ∀ k', readReg t (hostRegAt k') =
              if k' = k ∧ 16 ≤ k.toNat ∧ k.toNat < 64 then v else readReg s (hostRegAt k'))
    ∧ (s.busy = false → s.pending = .read k :: rest →
        step s = .next { s with hostData := readReg s (hostRegAt k), pending := rest })
    ∧ (s.busy = true → s.pending = .write k v :: rest →
        step s = .refused .registerAccessWhileBusy)
    ∧ (s.busy = true → s.pending = .read k :: rest → hostRegAt k ≠ .status →
        step s = .refused .registerAccessWhileBusy)

/-- R28: the fields of `STATUS`: the lifecycle state in bits 1:0, the flags in bits 8 and 31, every
other bit 0; after reset the word is 0. -/
def Obligations.StatusWordFields : Prop :=
  (∀ s : State,
    (statusWord s).extractLsb' 0 2 =
        (match s.lifecycle with | .unconfigured => 0 | .ready => 1 | .noFilter => 2 | .failed => 3)
    ∧ (statusWord s).extractLsb' 2 6 = 0
    ∧ (statusWord s).getLsbD 8 = s.fsUpdated
    ∧ (statusWord s).extractLsb' 9 22 = 0
    ∧ (statusWord s).getLsbD 31 = s.busy)
  ∧ statusWord State.reset = 0

/-- No step changes the parameters, which the model keeps in the state (assumption 1), and none leaves
`BUSY` set that was clear (R25). -/
def Obligations.StepsKeepParametersAndIdle : Prop :=
  ∀ s t : State, step s = .next t → t.params = s.params ∧ (s.busy = false → t.busy = false)

/-! ## What holds in every reachable state -/

/-- The reset state is consistent (R53, R54). -/
def Obligations.ResetIsConsistent : Prop :=
  Consistent State.reset

/-- R53: every step from a consistent state, whatever the coefficient store and the parameters inside
their constraints, leads to a consistent state. -/
def Obligations.EveryStepKeepsConsistency : Prop :=
  ∀ s t : State, s.params.wf = true → Consistent s → step s = .next t → Consistent t

/-- From a consistent state every command answers a next state, and so does every step: nothing a host
can do with the block idle stops the machine (R182, R218, R266). -/
def Obligations.NothingStopsTheMachine : Prop :=
  ∀ s : State, s.params.wf = true → Consistent s →
    (∀ i : Instr, ∃ t, exec i s = .next t) ∧ ∃ t, step s = .next t
end

