-- ==== Sys2Proof/Laws/Arith.lean ====
section
/-! SUPPORT. What the arithmetic primitives compute. -/

namespace Sys2Proof.Machine

theorem two_pow_cast_pos (n : Nat) : (0 : Int) < ((2 ^ n : Nat) : Int) := by
  have := Nat.two_pow_pos n
  omega

/-- A value already inside `intN` passes `sat_N` unchanged (R10). -/
theorem sat_of_mem {n : Nat} {v : Int} (lo : -((2 ^ (n - 1) : Nat) : Int) ≤ v)
    (hi : v < ((2 ^ (n - 1) : Nat) : Int)) : sat n v = v := by
  unfold sat
  split
  · omega
  · split <;> omega

/-- `sat_N` answers an `intN` (R10). -/
theorem sat_mem (n : Nat) (v : Int) :
    -((2 ^ (n - 1) : Nat) : Int) ≤ sat n v ∧ sat n v < ((2 ^ (n - 1) : Nat) : Int) := by
  have := two_pow_cast_pos (n - 1)
  unfold sat
  split
  · omega
  · split <;> omega

theorem sat32_mem (v : Int) : -(2 ^ 31) ≤ sat 32 v ∧ sat 32 v < 2 ^ 31 := by
  have := sat_mem 32 v
  norm_num at this ⊢
  exact this

/-- What `sat_32` does, in three cases (R10). -/
theorem sat32_cases (v : Int) :
    (v < -(2 ^ 31) ∧ sat 32 v = -(2 ^ 31)) ∨ (2 ^ 31 - 1 < v ∧ sat 32 v = 2 ^ 31 - 1)
      ∨ (-(2 ^ 31) ≤ v ∧ v ≤ 2 ^ 31 - 1 ∧ sat 32 v = v) := by
  unfold sat
  norm_num
  split
  · omega
  · split <;> omega

/-- An `int32` written to a register and read back is itself (R8). -/
theorem toInt_toWord {v : Int} (lo : -(2 ^ 31) ≤ v) (hi : v < 2 ^ 31) : (toWord v).toInt = v := by
  unfold toWord
  rw [BitVec.toInt_ofInt, Int.bmod_def]
  norm_num at *
  omega

/-- A register read as `int32` is an `int32` (R8). -/
theorem word_toInt_mem (w : Word) : -(2 ^ 31) ≤ w.toInt ∧ w.toInt < 2 ^ 31 := by
  have h1 := BitVec.toInt_lt (x := w)
  have h2 := BitVec.le_toInt w
  norm_num at *
  omega

theorem toWord_toInt (w : Word) : toWord w.toInt = w := by
  simp [toWord]

/-- A register whose `int32` reading is not negative has the same `uint32` reading (R8). -/
theorem toInt_eq_toNat_of_nonneg {w : Word} (h : 0 ≤ w.toInt) : w.toInt = w.toNat := by
  have := w.isLt
  rw [BitVec.toInt_eq_toNat_bmod, Int.bmod_def] at h ⊢
  norm_num at *
  omega

theorem toInt_eq_toNat_of_lt {w : Word} (h : w.toNat < 2 ^ 31) : w.toInt = w.toNat := by
  rw [BitVec.toInt_eq_toNat_bmod, Int.bmod_def]
  norm_num at *
  omega

/-- A small number stored in a register is read back as itself. -/
theorem toNat_ofNat_of_lt {n : Nat} (h : n < 2 ^ 32) : (BitVec.ofNat 32 n : Word).toNat = n := by
  simp
  omega

theorem toInt_ofNat_of_lt {n : Nat} (h : n < 2 ^ 31) : (BitVec.ofNat 32 n : Word).toInt = n := by
  rw [toInt_eq_toNat_of_lt] <;> rw [toNat_ofNat_of_lt] <;> omega

/-- `sext_N` answers an `intN` (R8). -/
theorem sext_mem (n : Nat) (v : Nat) :
    -((2 ^ (n - 1) : Nat) : Int) ≤ sext n v ∧ sext n v < ((2 ^ (n - 1) : Nat) : Int) := by
  unfold sext
  have h1 := BitVec.toInt_lt (x := BitVec.ofNat n v)
  have h2 := BitVec.le_toInt (BitVec.ofNat n v)
  push_cast
  exact ⟨h2, h1⟩

/-- The sign-extension of a wrapped `intN` is the `intN` (R8). -/
theorem sext_wrap {n : Nat} (hn : 0 < n) {v : Int} (lo : -((2 ^ (n - 1) : Nat) : Int) ≤ v)
    (hi : v < ((2 ^ (n - 1) : Nat) : Int)) : sext n (wrap n v) = v := by
  obtain ⟨k, rfl⟩ : ∃ k, n = k + 1 := ⟨n - 1, by omega⟩
  unfold sext wrap
  have hp := two_pow_cast_pos k
  have e : ((2 ^ (k + 1) : Nat) : Int) = 2 * ((2 ^ k : Nat) : Int) := by push_cast; ring
  have h0 : (0 : Int) ≤ v % ((2 ^ (k + 1) : Nat) : Int) := Int.emod_nonneg _ (by omega)
  have h1 : v % ((2 ^ (k + 1) : Nat) : Int) < ((2 ^ (k + 1) : Nat) : Int) :=
    Int.emod_lt_of_pos _ (by omega)
  simp only [Nat.add_sub_cancel] at lo hi
  rw [BitVec.toInt_eq_toNat_bmod, BitVec.toNat_ofNat, Nat.mod_eq_of_lt (by omega),
    Int.toNat_of_nonneg h0, Int.emod_bmod]
  exact Int.bmod_eq_of_le (by omega) (by omega)

/-- `wrap_N` answers a `uintN` (R8). -/
theorem wrap_lt (n : Nat) (v : Int) : wrap n v < 2 ^ n := by
  unfold wrap
  have hp := two_pow_cast_pos n
  have h0 : (0 : Int) ≤ v % ((2 ^ n : Nat) : Int) := Int.emod_nonneg _ (by omega)
  have h1 : v % ((2 ^ n : Nat) : Int) < ((2 ^ n : Nat) : Int) := Int.emod_lt_of_pos _ (by omega)
  omega

/-- `modIndex` answers an index below the modulus (R123). -/
theorem modIndex_lt (v : Int) {m : Nat} (hm : 0 < m) : modIndex v m < m := by
  unfold modIndex
  have h0 : (0 : Int) ≤ v % (m : Int) := Int.emod_nonneg _ (by omega)
  have h1 : v % (m : Int) < (m : Int) := Int.emod_lt_of_pos _ (by omega)
  omega

/-- The distance of a rounded shift from the exact quotient is at most half a unit (R11). -/
theorem rshrSym_near (v : Int) {s : Nat} (hs : 1 ≤ s) :
    2 * |((2 ^ s : Nat) : Int) * rshrSym v s - v| ≤ ((2 ^ s : Nat) : Int) := by
  obtain ⟨k, rfl⟩ : ∃ k, s = k + 1 := ⟨s - 1, by omega⟩
  unfold rshrSym
  simp only [Nat.add_sub_cancel]
  have hk := Nat.two_pow_pos k
  have e : 2 ^ (k + 1) = 2 * 2 ^ k := by ring
  set q := (v.natAbs + 2 ^ k) / 2 ^ (k + 1) with hq
  have h1 : 2 ^ (k + 1) * q ≤ v.natAbs + 2 ^ k := Nat.mul_div_le _ _
  have h2 : v.natAbs + 2 ^ k < 2 ^ (k + 1) * (q + 1) := by
    have := Nat.lt_mul_div_succ (v.natAbs + 2 ^ k) (Nat.two_pow_pos (k + 1))
    simpa [hq] using this
  generalize hP : (2 ^ k : Nat) = P at *
  rw [e] at h1 h2 ⊢
  clear_value q
  rcases lt_trichotomy v 0 with hv | hv | hv
  · rw [Int.sign_eq_neg_one_of_neg hv]
    zify at h1 h2
    rw [abs_of_neg hv] at h1 h2
    push_cast
    rw [← abs_of_pos (by norm_num : (0 : Int) < 2), ← abs_mul, abs_le,
      abs_of_pos (by norm_num : (0 : Int) < 2)]
    constructor <;> nlinarith
  · subst hv
    simp
  · rw [Int.sign_eq_one_of_pos hv]
    zify at h1 h2
    rw [abs_of_pos hv] at h1 h2
    push_cast
    rw [← abs_of_pos (by norm_num : (0 : Int) < 2), ← abs_mul, abs_le,
      abs_of_pos (by norm_num : (0 : Int) < 2)]
    constructor <;> nlinarith

/-- `div_round` answers the integer within half a unit of the quotient (R12). -/
theorem divRound_near (n : Nat) {d : Nat} (hd : 0 < d) :
    2 * d * divRound n d ≤ 2 * n + d ∧ 2 * n + d < 2 * d * (divRound n d + 1) := by
  unfold divRound
  exact ⟨Nat.mul_div_le _ _, Nat.lt_mul_div_succ _ (by omega)⟩

end Sys2Proof.Machine
end

