-- ==== Sys2Proof/Laws/Checks.lean ====
section
/-! SUPPORT. What the checks of the configuration commands and of the processing commands decide, in the
order they are made. -/

namespace Sys2Proof.Machine

/-- The enumeration operands of `INIT` pass when each is 0 or 1 (R101). -/
theorem initEnumsOk_iff (s : State) : initEnumsOk s = true ↔
    ∀ i ∈ ([3, 4, 5, 8, 9] : List (Fin 16)), s.argInt i = 0 ∨ s.argInt i = 1 := by
  simp [initEnumsOk, isBit, and_assoc]

theorem rateOk_iff (r : Int) : rateOk r = true ↔ ∃ k ∈ Config.supportedRates, r = k := by
  unfold rateOk
  simp only [Bool.and_eq_true, decide_eq_true_eq, List.contains_iff_mem]
  constructor
  · rintro ⟨h1, h2⟩
    exact ⟨_, h2, by omega⟩
  · rintro ⟨k, hk, rfl⟩
    exact ⟨by omega, by simpa using hk⟩

theorem filterLengthOk_iff (p : Params) (l : Nat) :
    filterLengthOk p l = true ↔ l % 4 = 0 ∧ 4 ≤ l ∧ l ≤ p.maxFilterLength := by
  simp [filterLengthOk, and_assoc]

theorem channelsOk_iff (p : Params) (n : Int) :
    channelsOk p n = true ↔ 0 < n ∧ n ≤ (p.maxChannels : Int) := by
  simp [channelsOk]

theorem bitDepthOk_iff (n : Int) : bitDepthOk n = true ↔ n = 16 ∨ n = 32 := by
  simp [bitDepthOk]

/-- Everything checks 4 to 7 can answer, in their order: the error of the first that fails, or the entry
(R235 to R237). -/
theorem rateCheck_cases (p : Params) (a b bl : Int) :
    (¬ ((∃ k ∈ Config.supportedRates, a = k) ∧ ∃ k ∈ Config.supportedRates, b = k)
        ∧ rateCheck p a b bl = .error .invalidSampleRate)
    ∨ ((∃ k ∈ Config.supportedRates, a = k) ∧ (∃ k ∈ Config.supportedRates, b = k)
      ∧ ((filterLookup p a b = none ∧ rateCheck p a b bl = .error .invalidConversionRatio)
        ∨ ∃ e, filterLookup p a b = some e
          ∧ (((nominalRatio a b < p.ratioMin ∨ p.ratioMax < nominalRatio a b)
              ∧ rateCheck p a b bl = .error .invalidConversionRatio)
            ∨ ((p.ratioMin ≤ nominalRatio a b ∧ nominalRatio a b ≤ p.ratioMax)
              ∧ ((¬ (e.filterLength % 4 = 0 ∧ 4 ≤ e.filterLength
                    ∧ e.filterLength ≤ p.maxFilterLength)
                  ∧ rateCheck p a b bl = .error .invalidFilterLength)
                ∨ ((e.filterLength % 4 = 0 ∧ 4 ≤ e.filterLength
                    ∧ e.filterLength ≤ p.maxFilterLength)
                  ∧ ((bl < e.filterLength ∧ rateCheck p a b bl = .error .invalidBufferLength)
                    ∨ ((e.filterLength : Int) ≤ bl ∧ rateCheck p a b bl = .ok e)))))))) := by
  rw [← rateOk_iff, ← rateOk_iff]
  unfold rateCheck
  by_cases h : rateOk a = false ∨ rateOk b = false
  · exact .inl ⟨by rcases h with h | h <;> simp [h], by rw [if_pos h]⟩
  · have h1 : rateOk a = true ∧ rateOk b = true := by simpa using h
    rw [if_neg h]
    refine .inr ⟨h1.1, h1.2, ?_⟩
    cases he : filterLookup p a b with
    | none => exact .inl ⟨rfl, rfl⟩
    | some e =>
      refine .inr ⟨e, rfl, ?_⟩
      simp only [← filterLengthOk_iff]
      by_cases hr : nominalRatio a b < p.ratioMin ∨ p.ratioMax < nominalRatio a b
      · exact .inl ⟨hr, by rw [if_pos hr]⟩
      · rw [if_neg hr]
        refine .inr ⟨by omega, ?_⟩
        by_cases hl : filterLengthOk p e.filterLength = false
        · exact .inl ⟨by simp [hl], by rw [if_pos hl]⟩
        · rw [if_neg hl]
          refine .inr ⟨by simpa using hl, ?_⟩
          by_cases hb : bl < (e.filterLength : Int)
          · exact .inl ⟨hb, by rw [if_pos hb]⟩
          · exact .inr ⟨by omega, by rw [if_neg hb]⟩

/-- Everything the checks of `INIT` after the enumerations can answer (R234, R270). -/
theorem initCheck_cases (s : State) :
    (channelsOk s.params (s.argInt 0) = false ∧ initCheck s = .error .invalidNumChannels)
    ∨ (channelsOk s.params (s.argInt 0) = true ∧ bitDepthOk (s.argInt 7) = false
      ∧ initCheck s = .error .invalidBitDepth)
    ∨ (channelsOk s.params (s.argInt 0) = true ∧ bitDepthOk (s.argInt 7) = true
      ∧ (((s.argInt 6 ≤ 1 ∨ (s.params.ringCapacity : Int) < s.argInt 6)
          ∧ initCheck s = .error .invalidBufferLength)
        ∨ ((1 < s.argInt 6 ∧ s.argInt 6 ≤ (s.params.ringCapacity : Int))
          ∧ initCheck s = rateCheck s.params (s.argInt 1) (s.argInt 2) (s.argInt 6)))) := by
  unfold initCheck
  by_cases h1 : channelsOk s.params (s.argInt 0) = false
  · exact .inl ⟨h1, by rw [if_pos h1]⟩
  · rw [if_neg h1]
    have h1' : channelsOk s.params (s.argInt 0) = true := by simpa using h1
    by_cases h2 : bitDepthOk (s.argInt 7) = false
    · exact .inr (.inl ⟨h1', h2, by rw [if_pos h2]⟩)
    · rw [if_neg h2]
      refine .inr (.inr ⟨h1', by simpa using h2, ?_⟩)
      by_cases h3 : s.argInt 6 ≤ 1 ∨ (s.params.ringCapacity : Int) < s.argInt 6
      · exact .inl ⟨h3, by rw [if_pos h3]⟩
      · exact .inr ⟨by omega, by rw [if_neg h3]⟩

/-- A failing check of `INIT` or `SETFS` names a configuration error (R262). -/
theorem rateCheck_error {p : Params} {a b bl : Int} {ec : ErrorCode}
    (h : rateCheck p a b bl = .error ec) :
    ec = .invalidSampleRate ∨ ec = .invalidConversionRatio ∨ ec = .invalidFilterLength
      ∨ ec = .invalidBufferLength := by
  rcases rateCheck_cases p a b bl with
    ⟨_, e⟩ | ⟨_, _, ⟨_, e⟩ | ⟨_, _, ⟨_, e⟩ | ⟨_, ⟨_, e⟩ | ⟨_, ⟨_, e⟩ | ⟨_, e⟩⟩⟩⟩⟩ <;>
    rw [e] at h <;> cases h <;> simp

theorem initCheck_error {s : State} {ec : ErrorCode} (h : initCheck s = .error ec) :
    ec = .invalidNumChannels ∨ ec = .invalidBitDepth ∨ ec = .invalidSampleRate
      ∨ ec = .invalidConversionRatio ∨ ec = .invalidFilterLength ∨ ec = .invalidBufferLength := by
  rcases initCheck_cases s with ⟨_, e⟩ | ⟨_, _, e⟩ | ⟨_, _, ⟨_, e⟩ | ⟨_, e⟩⟩ <;> rw [e] at h
  · cases h; simp
  · cases h; simp
  · cases h; simp
  · have := rateCheck_error h; tauto

/-- What a successful check 4 to 7 says of the entry it answers (R235 to R237). -/
theorem rateCheck_ok {p : Params} {a b bl : Int} {e : FilterEntry} (h : rateCheck p a b bl = .ok e) :
    (∃ k ∈ Config.supportedRates, a = k) ∧ (∃ k ∈ Config.supportedRates, b = k)
      ∧ filterLookup p a b = some e
      ∧ p.ratioMin ≤ nominalRatio a b ∧ nominalRatio a b ≤ p.ratioMax
      ∧ e.filterLength % 4 = 0 ∧ 4 ≤ e.filterLength ∧ e.filterLength ≤ p.maxFilterLength
      ∧ (e.filterLength : Int) ≤ bl := by
  rcases rateCheck_cases p a b bl with
    ⟨_, e'⟩ | ⟨h1, h2, ⟨_, e'⟩ | ⟨x, hx, ⟨_, e'⟩ | ⟨h3, ⟨_, e'⟩ | ⟨h4, ⟨_, e'⟩ | ⟨h5, e'⟩⟩⟩⟩⟩ <;>
    rw [e'] at h <;> cases h
  exact ⟨h1, h2, hx, h3.1, h3.2, h4.1, h4.2.1, h4.2.2, h5⟩

/-! ### The checks of a processing command -/

/-- The used pointers of one side are aligned exactly when each is (R65). -/
theorem usedPointers_all (p : Vector Word 16) (fmt : Layout) (n b : Nat) :
    (usedPointers p fmt n).all (fun q => q.toNat % b == 0) = true ↔
      (match fmt with
        | .interleaved => p[0].toNat % b = 0
        | .deinterleaved => ∀ c < n, (pointer p c).toNat % b = 0) := by
  cases fmt <;> simp [usedPointers]

/-- Everything the checks of a processing command can answer, in their order (R203, R270). -/
theorem processCheck_cases (w : Nat) (d : OperationMode) (s : State) :
    (s.lifecycle ≠ .ready ∧ processCheck w d s = .invalidPointer)
    ∨ (s.lifecycle = .ready ∧ s.bitDepth.toNat ≠ w ∧ processCheck w d s = .invalidBitDepth)
    ∨ (s.lifecycle = .ready ∧ s.bitDepth.toNat = w
      ∧ ((s.operationMode ≠ d ∧ processCheck w d s = failCode d)
        ∨ (s.operationMode = d
          ∧ (((s.controlMode = .fixed ∧ s.fsUpdated = false)
              ∧ processCheck w d s = .updateFsFailed)
            ∨ ((s.controlMode = .fixed → s.fsUpdated = true)
              ∧ ((pointersAligned s = false ∧ processCheck w d s = .invalidPointer)
                ∨ (pointersAligned s = true
                  ∧ ((frameCount d s < 0 ∧ processCheck w d s = failCode d)
                    ∨ (0 ≤ frameCount d s
                      ∧ (((s.bufferMode = .circular ∧ indicesValid s = false)
                          ∧ processCheck w d s = failCode d)
                        ∨ ((s.bufferMode = .circular → indicesValid s = true)
                          ∧ processCheck w d s = .ok))))))))))) := by
  unfold processCheck
  by_cases h1 : s.lifecycle ≠ .ready
  · exact .inl ⟨h1, by rw [if_pos h1]⟩
  rw [if_neg h1]
  have h1' : s.lifecycle = .ready := by simpa using h1
  by_cases h2 : s.bitDepth.toNat ≠ w
  · exact .inr (.inl ⟨h1', h2, by rw [if_pos h2]⟩)
  rw [if_neg h2]
  refine .inr (.inr ⟨h1', by simpa using h2, ?_⟩)
  by_cases h3 : s.operationMode ≠ d
  · exact .inl ⟨h3, by rw [if_pos h3]⟩
  rw [if_neg h3]
  refine .inr ⟨by simpa using h3, ?_⟩
  by_cases h4 : s.controlMode = .fixed ∧ s.fsUpdated = false
  · exact .inl ⟨h4, by rw [if_pos h4]⟩
  rw [if_neg h4]
  refine .inr ⟨by simpa using h4, ?_⟩
  by_cases h5 : pointersAligned s = false
  · exact .inl ⟨h5, by rw [if_pos h5]⟩
  rw [if_neg h5]
  refine .inr ⟨by simpa using h5, ?_⟩
  by_cases h6 : frameCount d s < 0
  · exact .inl ⟨h6, by rw [if_pos h6]⟩
  rw [if_neg h6]
  refine .inr ⟨by omega, ?_⟩
  by_cases h7 : s.bufferMode = .circular ∧ indicesValid s = false
  · exact .inl ⟨h7, by rw [if_pos h7]⟩
  rw [if_neg h7]
  exact .inr ⟨by simpa using h7, rfl⟩

/-- No processing check names the code the block never returns (R265). -/
theorem processCheck_ne (w : Nat) (d : OperationMode) (s : State) :
    processCheck w d s ≠ .invalidFrameSize := by
  have hf : failCode d ≠ .invalidFrameSize := by cases d <;> simp [failCode]
  rcases processCheck_cases w d s with
    ⟨_, e⟩ | ⟨_, _, e⟩ | ⟨_, _, ⟨_, e⟩ | ⟨_, ⟨_, e⟩ | ⟨_, ⟨_, e⟩ | ⟨_, ⟨_, e⟩ | ⟨_, ⟨_, e⟩ | ⟨_, e⟩⟩⟩⟩⟩⟩ <;>
    rw [e] <;> first | exact hf | simp

end Sys2Proof.Machine
end

