-- ==== Sys2Proof/Laws/Memory.lean ====
section
/-! SUPPORT. DMEM: reads after writes, and the canonical form every write keeps. -/

namespace Sys2Proof.Machine

/-- In canonical form nothing is listed at or below the first address again. -/
theorem Memory.wf_cons {c : Host.Cell} {rest : Memory} :
    Memory.wf (c :: rest) = true ↔
      c.1 < 2 ^ 32 ∧ c.2 ≠ unlistedByte ∧ (∀ d ∈ rest, c.1 < d.1) ∧ Memory.wf rest = true := by
  obtain ⟨a, b⟩ := c
  simp [Memory.wf, and_assoc]

theorem readByte_of_lt {m : Memory} {a : Nat} (h : ∀ c ∈ m, a < c.1) :
    readByte m a = unlistedByte := by
  cases m with
  | nil => rfl
  | cons c rest =>
    have := h c (by simp)
    simp [readByte, this]

/-- Every address a write lists is an old one or the one written. -/
theorem mem_writeByte {m : Memory} {a : Nat} {b : Byte} {c : Host.Cell}
    (h : c ∈ writeByte m a b) : c = (a, b) ∨ c ∈ m := by
  induction m with
  | nil =>
    simp only [writeByte] at h
    split at h <;> simp_all
  | cons d rest ih =>
    obtain ⟨k, v⟩ := d
    simp only [writeByte] at h
    split at h
    · split at h <;> simp_all
    · split at h
      · split at h
        · exact Or.inr (List.mem_cons_of_mem _ h)
        · rcases List.mem_cons.1 h with h | h
          · exact Or.inl h
          · exact Or.inr (List.mem_cons_of_mem _ h)
      · rcases List.mem_cons.1 h with rfl | h
        · simp
        · rcases ih h with h | h <;> simp [h]

/-- A write keeps the canonical form. -/
theorem writeByte_wf {m : Memory} (hm : m.wf = true) {a : Nat} (ha : a < 2 ^ 32) (b : Byte) :
    (writeByte m a b).wf = true := by
  induction m with
  | nil =>
    simp only [writeByte]
    split
    · rfl
    · simp_all [Memory.wf]
  | cons d rest ih =>
    obtain ⟨k, v⟩ := d
    have hd := Memory.wf_cons.1 hm
    simp only [writeByte]
    split
    · rename_i hlt
      split
      · exact hm
      · rename_i hb
        refine Memory.wf_cons.2 ⟨ha, hb, ?_, hm⟩
        intro c hc
        rcases List.mem_cons.1 hc with rfl | hc
        · exact hlt
        · have := hd.2.2.1 c hc
          simp only at this ⊢
          omega
    · split
      · rename_i heq
        split
        · exact hd.2.2.2
        · rename_i hb
          subst heq
          exact Memory.wf_cons.2 ⟨ha, hb, hd.2.2.1, hd.2.2.2⟩
      · rename_i h1 h2
        refine Memory.wf_cons.2 ⟨hd.1, hd.2.1, ?_, ih hd.2.2.2⟩
        intro c hc
        rcases mem_writeByte hc with rfl | hc
        · simp only
          omega
        · exact hd.2.2.1 c hc

/-- A byte read back where it was written is the byte; elsewhere a write changes nothing. -/
theorem readByte_writeByte {m : Memory} (hm : m.wf = true) (a : Nat) (b : Byte) (x : Nat) :
    readByte (writeByte m a b) x = if x = a then b else readByte m x := by
  induction m with
  | nil =>
    simp only [writeByte]
    split
    · split <;> simp_all [readByte]
    · simp only [readByte]
      split
      · split
        · omega
        · rfl
      · rfl
  | cons d rest ih =>
    obtain ⟨k, v⟩ := d
    have hd := Memory.wf_cons.1 hm
    simp only at hd
    simp only [writeByte]
    split
    · rename_i hlt
      split
      · rename_i hb
        by_cases hx : x = a
        · subst hx
          simp [readByte, hlt, hb]
        · simp [hx]
      · by_cases hx : x = a
        · subst hx
          simp [readByte]
        · simp only [hx, if_false, readByte]
          by_cases h1 : x < a
          · simp [h1, show x < k by omega]
          · simp [h1]
    · rename_i hlt
      split
      · rename_i heq
        subst heq
        split
        · rename_i hb
          by_cases hx : x = a
          · subst hx
            simp only [if_true, hb]
            exact readByte_of_lt hd.2.2.1
          · simp only [hx, if_false, readByte]
            by_cases h1 : x < a
            · simp only [h1, if_true]
              exact readByte_of_lt (fun c hc => lt_trans h1 (hd.2.2.1 c hc))
            · simp [h1]
        · by_cases hx : x = a
          · subst hx
            simp [readByte]
          · simp [hx, readByte]
      · rename_i hne
        simp only [readByte, ih hd.2.2.2]
        by_cases hx : x = a
        · subst hx
          simp [hlt, hne]
        · simp [hx]

/-- `MemWrite` keeps the canonical form (R63). -/
theorem memWrite_wf {m : Memory} (hm : m.wf = true) (addr : Word) (n v : Nat) :
    (memWrite m addr n v).wf = true := by
  induction n generalizing m addr v with
  | zero => exact hm
  | succ n ih => exact ih (writeByte_wf hm addr.isLt _) _ _

/-- `MemWrite` changes only the `n` bytes from its address, modulo `2^32` (R63, R64). -/
theorem readByte_memWrite_of_ne {m : Memory} (hm : m.wf = true) (addr : Word) (n v : Nat) (x : Nat)
    (hx : ∀ k < n, x ≠ (addr + BitVec.ofNat 32 k).toNat) :
    readByte (memWrite m addr n v) x = readByte m x := by
  induction n generalizing m addr v with
  | zero => rfl
  | succ n ih =>
    have h0 := hx 0 (by omega)
    simp only [BitVec.add_zero] at h0
    rw [memWrite, ih (writeByte_wf hm addr.isLt _), readByte_writeByte hm, if_neg h0]
    intro k hk
    have := hx (k + 1) (by omega)
    rw [BitVec.add_assoc]
    have e : (1 : Word) + BitVec.ofNat 32 k = BitVec.ofNat 32 (k + 1) := by
      apply BitVec.eq_of_toNat_eq
      simp [Nat.add_comm]
    rw [e]
    exact this

/-- `MemRead` reads only the `n` bytes from its address, modulo `2^32` (R62, R64). -/
theorem memRead_congr {m m' : Memory} (addr : Word) (n : Nat)
    (h : ∀ k < n, readByte m (addr + BitVec.ofNat 32 k).toNat
      = readByte m' (addr + BitVec.ofNat 32 k).toNat) :
    memRead m addr n = memRead m' addr n := by
  induction n generalizing addr with
  | zero => rfl
  | succ n ih =>
    have h0 := h 0 (by omega)
    simp only [BitVec.add_zero] at h0
    rw [memRead, memRead, h0, ih]
    intro k hk
    have := h (k + 1) (by omega)
    have e : addr + 1 + BitVec.ofNat 32 k = addr + BitVec.ofNat 32 (k + 1) := by
      rw [BitVec.add_assoc]
      congr 1
      apply BitVec.eq_of_toNat_eq
      simp [Nat.add_comm]
    rw [e]
    exact this

/-- An address is not reached again by counting on from it (R64). -/
theorem addr_ne_add {addr : Word} {k : Nat} (h0 : 0 < k) (h1 : k < 2 ^ 32) :
    addr.toNat ≠ (addr + BitVec.ofNat 32 k).toNat := by
  have := addr.isLt
  simp only [BitVec.toNat_add, BitVec.toNat_ofNat]
  omega

/-- `MemRead` of what `MemWrite` stored at the address is the value's low `8 n` bits (R61 to R63). -/
theorem memRead_memWrite {m : Memory} (hm : m.wf = true) (addr : Word) (n v : Nat)
    (hn : n < 2 ^ 32) : memRead (memWrite m addr n v) addr n = v % 256 ^ n := by
  induction n generalizing m addr v with
  | zero => simp [memRead, Nat.mod_one]
  | succ n ih =>
    have hb : readByte (memWrite (writeByte m addr.toNat (BitVec.ofNat 8 v)) (addr + 1) n (v / 256))
        addr.toNat = BitVec.ofNat 8 v := by
      rw [readByte_memWrite_of_ne (writeByte_wf hm addr.isLt _), readByte_writeByte hm, if_pos rfl]
      intro k hk
      have e : addr + 1 + BitVec.ofNat 32 k = addr + BitVec.ofNat 32 (k + 1) := by
        rw [BitVec.add_assoc]
        congr 1
        apply BitVec.eq_of_toNat_eq
        simp [Nat.add_comm]
      rw [e]
      exact addr_ne_add (by omega) (by omega)
    rw [memRead, memWrite, hb, ih (writeByte_wf hm addr.isLt _) _ _ (by omega), pow_succ,
      Nat.mul_comm (256 ^ n), Nat.mod_mul, BitVec.toNat_ofNat]

/-- A loaded value leaves a store to other bytes alone. -/
theorem memRead_memWrite_of_ne {m : Memory} (hm : m.wf = true) (addr addr' : Word) (n n' v : Nat)
    (h : ∀ k < n, ∀ k' < n', addr + BitVec.ofNat 32 k ≠ addr' + BitVec.ofNat 32 k') :
    memRead (memWrite m addr' n' v) addr n = memRead m addr n := by
  refine memRead_congr addr n fun k hk => readByte_memWrite_of_ne hm _ _ _ _ fun k' hk' e => ?_
  exact h k hk k' hk' (BitVec.eq_of_toNat_eq e)

/-! ### A row of stores, one after another -/

theorem foldl_memWrite_wf {m : Memory} (hm : m.wf = true) (cs : List Nat) (addr : Nat → Word)
    (n : Nat) (v : Nat → Nat) :
    (cs.foldl (fun m c => memWrite m (addr c) n (v c)) m).wf = true := by
  induction cs generalizing m with
  | nil => exact hm
  | cons c rest ih => exact ih (memWrite_wf hm _ _ _)

theorem readByte_foldl_of_ne {m : Memory} (hm : m.wf = true) (cs : List Nat) (addr : Nat → Word)
    (n : Nat) (v : Nat → Nat) (x : Nat)
    (hx : ∀ c ∈ cs, ∀ k < n, x ≠ (addr c + BitVec.ofNat 32 k).toNat) :
    readByte (cs.foldl (fun m c => memWrite m (addr c) n (v c)) m) x = readByte m x := by
  induction cs generalizing m with
  | nil => rfl
  | cons c rest ih =>
    rw [List.foldl_cons, ih (memWrite_wf hm _ _ _) fun d hd => hx d (List.mem_cons_of_mem _ hd),
      readByte_memWrite_of_ne hm _ _ _ _ (hx c List.mem_cons_self)]

/-- What a row of stores leaves at the place of one of them that no other overlaps. -/
theorem memRead_foldl_memWrite {m : Memory} (hm : m.wf = true) (cs : List Nat) (addr : Nat → Word)
    (n : Nat) (v : Nat → Nat) (hn : n < 2 ^ 32) (c : Nat) (hc : c ∈ cs)
    (h : ∀ d ∈ cs, d ≠ c → ∀ k < n, ∀ k' < n,
      addr c + BitVec.ofNat 32 k ≠ addr d + BitVec.ofNat 32 k') :
    memRead (cs.foldl (fun m c => memWrite m (addr c) n (v c)) m) (addr c) n = v c % 256 ^ n := by
  induction cs generalizing m with
  | nil => cases hc
  | cons d rest ih =>
    rw [List.foldl_cons]
    by_cases hr : c ∈ rest
    · exact ih (memWrite_wf hm _ _ _) hr fun e he => h e (List.mem_cons_of_mem _ he)
    · obtain rfl : c = d := by
        rcases List.mem_cons.1 hc with e | e
        · exact e
        · exact absurd e hr
      have e : memRead (rest.foldl (fun m c => memWrite m (addr c) n (v c))
            (memWrite m (addr c) n (v c))) (addr c) n
          = memRead (memWrite m (addr c) n (v c)) (addr c) n := by
        refine memRead_congr _ _ fun k hk =>
          readByte_foldl_of_ne (memWrite_wf hm _ _ _) _ _ _ _ _ fun e he k' hk' hEq => ?_
        exact h e (List.mem_cons_of_mem _ he) (fun e' => hr (e' ▸ he)) k hk k' hk'
          (BitVec.eq_of_toNat_eq hEq)
      rw [e, memRead_memWrite hm _ _ _ hn]

/-- The memory of the reset state is in canonical form. -/
theorem reset_dmem_wf : State.reset.dmem.wf = true := rfl

end Sys2Proof.Machine
end

