-- ==== Sys2Proof/Laws/State.lean ====
section
/-! SUPPORT. One lemma per field per update of the shared operations, so that no later proof unfolds a
record update. -/

namespace Sys2Proof.Machine

/-! ### `setArg` -/
@[simp] theorem setArg_a (s : State) (i : Fin 16) (v : Word) :
    (s.setArg i v).a = s.a.set i v := rfl
@[simp] theorem setArg_iptr (s : State) (i : Fin 16) (v : Word) :
    (s.setArg i v).iptr = s.iptr := rfl
@[simp] theorem setArg_optr (s : State) (i : Fin 16) (v : Word) :
    (s.setArg i v).optr = s.optr := rfl
@[simp] theorem setArg_err (s : State) (i : Fin 16) (v : Word) : (s.setArg i v).err = s.err := rfl
@[simp] theorem setArg_lifecycle (s : State) (i : Fin 16) (v : Word) :
    (s.setArg i v).lifecycle = s.lifecycle := rfl
@[simp] theorem setArg_fsUpdated (s : State) (i : Fin 16) (v : Word) :
    (s.setArg i v).fsUpdated = s.fsUpdated := rfl
@[simp] theorem setArg_busy (s : State) (i : Fin 16) (v : Word) :
    (s.setArg i v).busy = s.busy := rfl
@[simp] theorem setArg_numChannels (s : State) (i : Fin 16) (v : Word) :
    (s.setArg i v).numChannels = s.numChannels := rfl
@[simp] theorem setArg_fsPrim (s : State) (i : Fin 16) (v : Word) :
    (s.setArg i v).fsPrim = s.fsPrim := rfl
@[simp] theorem setArg_fsSec (s : State) (i : Fin 16) (v : Word) :
    (s.setArg i v).fsSec = s.fsSec := rfl
@[simp] theorem setArg_inputFormat (s : State) (i : Fin 16) (v : Word) :
    (s.setArg i v).inputFormat = s.inputFormat := rfl
@[simp] theorem setArg_outputFormat (s : State) (i : Fin 16) (v : Word) :
    (s.setArg i v).outputFormat = s.outputFormat := rfl
@[simp] theorem setArg_bufferMode (s : State) (i : Fin 16) (v : Word) :
    (s.setArg i v).bufferMode = s.bufferMode := rfl
@[simp] theorem setArg_bufferLength (s : State) (i : Fin 16) (v : Word) :
    (s.setArg i v).bufferLength = s.bufferLength := rfl
@[simp] theorem setArg_bitDepth (s : State) (i : Fin 16) (v : Word) :
    (s.setArg i v).bitDepth = s.bitDepth := rfl
@[simp] theorem setArg_controlMode (s : State) (i : Fin 16) (v : Word) :
    (s.setArg i v).controlMode = s.controlMode := rfl
@[simp] theorem setArg_operationMode (s : State) (i : Fin 16) (v : Word) :
    (s.setArg i v).operationMode = s.operationMode := rfl
@[simp] theorem setArg_filterLength (s : State) (i : Fin 16) (v : Word) :
    (s.setArg i v).filterLength = s.filterLength := rfl
@[simp] theorem setArg_numFilters (s : State) (i : Fin 16) (v : Word) :
    (s.setArg i v).numFilters = s.numFilters := rfl
@[simp] theorem setArg_fsRatio (s : State) (i : Fin 16) (v : Word) :
    (s.setArg i v).fsRatio = s.fsRatio := rfl
@[simp] theorem setArg_fsRatioInv (s : State) (i : Fin 16) (v : Word) :
    (s.setArg i v).fsRatioInv = s.fsRatioInv := rfl
@[simp] theorem setArg_fsRatioNom (s : State) (i : Fin 16) (v : Word) :
    (s.setArg i v).fsRatioNom = s.fsRatioNom := rfl
@[simp] theorem setArg_timeValue (s : State) (i : Fin 16) (v : Word) :
    (s.setArg i v).timeValue = s.timeValue := rfl
@[simp] theorem setArg_timeValuePull (s : State) (i : Fin 16) (v : Word) :
    (s.setArg i v).timeValuePull = s.timeValuePull := rfl
@[simp] theorem setArg_writePosition (s : State) (i : Fin 16) (v : Word) :
    (s.setArg i v).writePosition = s.writePosition := rfl
@[simp] theorem setArg_ring (s : State) (i : Fin 16) (v : Word) :
    (s.setArg i v).ring = s.ring := rfl
@[simp] theorem setArg_coef (s : State) (i : Fin 16) (v : Word) :
    (s.setArg i v).coef = s.coef := rfl
@[simp] theorem setArg_ir (s : State) (i : Fin 16) (v : Word) : (s.setArg i v).ir = s.ir := rfl
@[simp] theorem setArg_dmem (s : State) (i : Fin 16) (v : Word) :
    (s.setArg i v).dmem = s.dmem := rfl
@[simp] theorem setArg_params (s : State) (i : Fin 16) (v : Word) :
    (s.setArg i v).params = s.params := rfl
@[simp] theorem setArg_freeCount (s : State) (i : Fin 16) (v : Word) :
    (s.setArg i v).freeCount = s.freeCount := rfl
@[simp] theorem setArg_hostData (s : State) (i : Fin 16) (v : Word) :
    (s.setArg i v).hostData = s.hostData := rfl
@[simp] theorem setArg_pending (s : State) (i : Fin 16) (v : Word) :
    (s.setArg i v).pending = s.pending := rfl

/-! ### `returnCode` -/
@[simp] theorem returnCode_a (ec : ErrorCode) (s : State) : (returnCode ec s).a = s.a := rfl
@[simp] theorem returnCode_iptr (ec : ErrorCode) (s : State) :
    (returnCode ec s).iptr = s.iptr := rfl
@[simp] theorem returnCode_optr (ec : ErrorCode) (s : State) :
    (returnCode ec s).optr = s.optr := rfl
@[simp] theorem returnCode_err (ec : ErrorCode) (s : State) : (returnCode ec s).err = ec := rfl
@[simp] theorem returnCode_lifecycle (ec : ErrorCode) (s : State) :
    (returnCode ec s).lifecycle = s.lifecycle := rfl
@[simp] theorem returnCode_fsUpdated (ec : ErrorCode) (s : State) :
    (returnCode ec s).fsUpdated = s.fsUpdated := rfl
@[simp] theorem returnCode_busy (ec : ErrorCode) (s : State) :
    (returnCode ec s).busy = s.busy := rfl
@[simp] theorem returnCode_numChannels (ec : ErrorCode) (s : State) :
    (returnCode ec s).numChannels = s.numChannels := rfl
@[simp] theorem returnCode_fsPrim (ec : ErrorCode) (s : State) :
    (returnCode ec s).fsPrim = s.fsPrim := rfl
@[simp] theorem returnCode_fsSec (ec : ErrorCode) (s : State) :
    (returnCode ec s).fsSec = s.fsSec := rfl
@[simp] theorem returnCode_inputFormat (ec : ErrorCode) (s : State) :
    (returnCode ec s).inputFormat = s.inputFormat := rfl
@[simp] theorem returnCode_outputFormat (ec : ErrorCode) (s : State) :
    (returnCode ec s).outputFormat = s.outputFormat := rfl
@[simp] theorem returnCode_bufferMode (ec : ErrorCode) (s : State) :
    (returnCode ec s).bufferMode = s.bufferMode := rfl
@[simp] theorem returnCode_bufferLength (ec : ErrorCode) (s : State) :
    (returnCode ec s).bufferLength = s.bufferLength := rfl
@[simp] theorem returnCode_bitDepth (ec : ErrorCode) (s : State) :
    (returnCode ec s).bitDepth = s.bitDepth := rfl
@[simp] theorem returnCode_controlMode (ec : ErrorCode) (s : State) :
    (returnCode ec s).controlMode = s.controlMode := rfl
@[simp] theorem returnCode_operationMode (ec : ErrorCode) (s : State) :
    (returnCode ec s).operationMode = s.operationMode := rfl
@[simp] theorem returnCode_filterLength (ec : ErrorCode) (s : State) :
    (returnCode ec s).filterLength = s.filterLength := rfl
@[simp] theorem returnCode_numFilters (ec : ErrorCode) (s : State) :
    (returnCode ec s).numFilters = s.numFilters := rfl
@[simp] theorem returnCode_fsRatio (ec : ErrorCode) (s : State) :
    (returnCode ec s).fsRatio = s.fsRatio := rfl
@[simp] theorem returnCode_fsRatioInv (ec : ErrorCode) (s : State) :
    (returnCode ec s).fsRatioInv = s.fsRatioInv := rfl
@[simp] theorem returnCode_fsRatioNom (ec : ErrorCode) (s : State) :
    (returnCode ec s).fsRatioNom = s.fsRatioNom := rfl
@[simp] theorem returnCode_timeValue (ec : ErrorCode) (s : State) :
    (returnCode ec s).timeValue = s.timeValue := rfl
@[simp] theorem returnCode_timeValuePull (ec : ErrorCode) (s : State) :
    (returnCode ec s).timeValuePull = s.timeValuePull := rfl
@[simp] theorem returnCode_writePosition (ec : ErrorCode) (s : State) :
    (returnCode ec s).writePosition = s.writePosition := rfl
@[simp] theorem returnCode_ring (ec : ErrorCode) (s : State) :
    (returnCode ec s).ring = s.ring := rfl
@[simp] theorem returnCode_coef (ec : ErrorCode) (s : State) :
    (returnCode ec s).coef = s.coef := rfl
@[simp] theorem returnCode_ir (ec : ErrorCode) (s : State) : (returnCode ec s).ir = s.ir := rfl
@[simp] theorem returnCode_dmem (ec : ErrorCode) (s : State) :
    (returnCode ec s).dmem = s.dmem := rfl
@[simp] theorem returnCode_params (ec : ErrorCode) (s : State) :
    (returnCode ec s).params = s.params := rfl
@[simp] theorem returnCode_freeCount (ec : ErrorCode) (s : State) :
    (returnCode ec s).freeCount = s.freeCount := rfl
@[simp] theorem returnCode_hostData (ec : ErrorCode) (s : State) :
    (returnCode ec s).hostData = s.hostData := rfl
@[simp] theorem returnCode_pending (ec : ErrorCode) (s : State) :
    (returnCode ec s).pending = s.pending := rfl

/-! ### `failConfiguration` -/
@[simp] theorem failConfiguration_a (ec : ErrorCode) (s : State) :
    (failConfiguration ec s).a = s.a := rfl
@[simp] theorem failConfiguration_iptr (ec : ErrorCode) (s : State) :
    (failConfiguration ec s).iptr = s.iptr := rfl
@[simp] theorem failConfiguration_optr (ec : ErrorCode) (s : State) :
    (failConfiguration ec s).optr = s.optr := rfl
@[simp] theorem failConfiguration_err (ec : ErrorCode) (s : State) :
    (failConfiguration ec s).err = ec := rfl
@[simp] theorem failConfiguration_lifecycle (ec : ErrorCode) (s : State) :
    (failConfiguration ec s).lifecycle = .failed := rfl
@[simp] theorem failConfiguration_fsUpdated (ec : ErrorCode) (s : State) :
    (failConfiguration ec s).fsUpdated = s.fsUpdated := rfl
@[simp] theorem failConfiguration_busy (ec : ErrorCode) (s : State) :
    (failConfiguration ec s).busy = s.busy := rfl
@[simp] theorem failConfiguration_numChannels (ec : ErrorCode) (s : State) :
    (failConfiguration ec s).numChannels = s.numChannels := rfl
@[simp] theorem failConfiguration_fsPrim (ec : ErrorCode) (s : State) :
    (failConfiguration ec s).fsPrim = s.fsPrim := rfl
@[simp] theorem failConfiguration_fsSec (ec : ErrorCode) (s : State) :
    (failConfiguration ec s).fsSec = s.fsSec := rfl
@[simp] theorem failConfiguration_inputFormat (ec : ErrorCode) (s : State) :
    (failConfiguration ec s).inputFormat = s.inputFormat := rfl
@[simp] theorem failConfiguration_outputFormat (ec : ErrorCode) (s : State) :
    (failConfiguration ec s).outputFormat = s.outputFormat := rfl
@[simp] theorem failConfiguration_bufferMode (ec : ErrorCode) (s : State) :
    (failConfiguration ec s).bufferMode = s.bufferMode := rfl
@[simp] theorem failConfiguration_bufferLength (ec : ErrorCode) (s : State) :
    (failConfiguration ec s).bufferLength = s.bufferLength := rfl
@[simp] theorem failConfiguration_bitDepth (ec : ErrorCode) (s : State) :
    (failConfiguration ec s).bitDepth = s.bitDepth := rfl
@[simp] theorem failConfiguration_controlMode (ec : ErrorCode) (s : State) :
    (failConfiguration ec s).controlMode = s.controlMode := rfl
@[simp] theorem failConfiguration_operationMode (ec : ErrorCode) (s : State) :
    (failConfiguration ec s).operationMode = s.operationMode := rfl
@[simp] theorem failConfiguration_filterLength (ec : ErrorCode) (s : State) :
    (failConfiguration ec s).filterLength = s.filterLength := rfl
@[simp] theorem failConfiguration_numFilters (ec : ErrorCode) (s : State) :
    (failConfiguration ec s).numFilters = s.numFilters := rfl
@[simp] theorem failConfiguration_fsRatio (ec : ErrorCode) (s : State) :
    (failConfiguration ec s).fsRatio = s.fsRatio := rfl
@[simp] theorem failConfiguration_fsRatioInv (ec : ErrorCode) (s : State) :
    (failConfiguration ec s).fsRatioInv = s.fsRatioInv := rfl
@[simp] theorem failConfiguration_fsRatioNom (ec : ErrorCode) (s : State) :
    (failConfiguration ec s).fsRatioNom = s.fsRatioNom := rfl
@[simp] theorem failConfiguration_timeValue (ec : ErrorCode) (s : State) :
    (failConfiguration ec s).timeValue = s.timeValue := rfl
@[simp] theorem failConfiguration_timeValuePull (ec : ErrorCode) (s : State) :
    (failConfiguration ec s).timeValuePull = s.timeValuePull := rfl
@[simp] theorem failConfiguration_writePosition (ec : ErrorCode) (s : State) :
    (failConfiguration ec s).writePosition = s.writePosition := rfl
@[simp] theorem failConfiguration_ring (ec : ErrorCode) (s : State) :
    (failConfiguration ec s).ring = s.ring := rfl
@[simp] theorem failConfiguration_coef (ec : ErrorCode) (s : State) :
    (failConfiguration ec s).coef = s.coef := rfl
@[simp] theorem failConfiguration_ir (ec : ErrorCode) (s : State) :
    (failConfiguration ec s).ir = s.ir := rfl
@[simp] theorem failConfiguration_dmem (ec : ErrorCode) (s : State) :
    (failConfiguration ec s).dmem = s.dmem := rfl
@[simp] theorem failConfiguration_params (ec : ErrorCode) (s : State) :
    (failConfiguration ec s).params = s.params := rfl
@[simp] theorem failConfiguration_freeCount (ec : ErrorCode) (s : State) :
    (failConfiguration ec s).freeCount = s.freeCount := rfl
@[simp] theorem failConfiguration_hostData (ec : ErrorCode) (s : State) :
    (failConfiguration ec s).hostData = s.hostData := rfl
@[simp] theorem failConfiguration_pending (ec : ErrorCode) (s : State) :
    (failConfiguration ec s).pending = s.pending := rfl

/-! ### `setFsUpdated` -/
@[simp] theorem setFsUpdated_a (s : State) : (setFsUpdated s).a = s.a := rfl
@[simp] theorem setFsUpdated_iptr (s : State) : (setFsUpdated s).iptr = s.iptr := rfl
@[simp] theorem setFsUpdated_optr (s : State) : (setFsUpdated s).optr = s.optr := rfl
@[simp] theorem setFsUpdated_err (s : State) : (setFsUpdated s).err = s.err := rfl
@[simp] theorem setFsUpdated_lifecycle (s : State) :
    (setFsUpdated s).lifecycle = s.lifecycle := rfl
@[simp] theorem setFsUpdated_fsUpdated (s : State) : (setFsUpdated s).fsUpdated = true := rfl
@[simp] theorem setFsUpdated_busy (s : State) : (setFsUpdated s).busy = s.busy := rfl
@[simp] theorem setFsUpdated_numChannels (s : State) :
    (setFsUpdated s).numChannels = s.numChannels := rfl
@[simp] theorem setFsUpdated_fsPrim (s : State) : (setFsUpdated s).fsPrim = s.fsPrim := rfl
@[simp] theorem setFsUpdated_fsSec (s : State) : (setFsUpdated s).fsSec = s.fsSec := rfl
@[simp] theorem setFsUpdated_inputFormat (s : State) :
    (setFsUpdated s).inputFormat = s.inputFormat := rfl
@[simp] theorem setFsUpdated_outputFormat (s : State) :
    (setFsUpdated s).outputFormat = s.outputFormat := rfl
@[simp] theorem setFsUpdated_bufferMode (s : State) :
    (setFsUpdated s).bufferMode = s.bufferMode := rfl
@[simp] theorem setFsUpdated_bufferLength (s : State) :
    (setFsUpdated s).bufferLength = s.bufferLength := rfl
@[simp] theorem setFsUpdated_bitDepth (s : State) : (setFsUpdated s).bitDepth = s.bitDepth := rfl
@[simp] theorem setFsUpdated_controlMode (s : State) :
    (setFsUpdated s).controlMode = s.controlMode := rfl
@[simp] theorem setFsUpdated_operationMode (s : State) :
    (setFsUpdated s).operationMode = s.operationMode := rfl
@[simp] theorem setFsUpdated_filterLength (s : State) :
    (setFsUpdated s).filterLength = s.filterLength := rfl
@[simp] theorem setFsUpdated_numFilters (s : State) :
    (setFsUpdated s).numFilters = s.numFilters := rfl
@[simp] theorem setFsUpdated_fsRatio (s : State) : (setFsUpdated s).fsRatio = s.fsRatio := rfl
@[simp] theorem setFsUpdated_fsRatioInv (s : State) :
    (setFsUpdated s).fsRatioInv = s.fsRatioInv := rfl
@[simp] theorem setFsUpdated_fsRatioNom (s : State) :
    (setFsUpdated s).fsRatioNom = s.fsRatioNom := rfl
@[simp] theorem setFsUpdated_timeValue (s : State) :
    (setFsUpdated s).timeValue = s.timeValue := rfl
@[simp] theorem setFsUpdated_timeValuePull (s : State) :
    (setFsUpdated s).timeValuePull = s.timeValuePull := rfl
@[simp] theorem setFsUpdated_writePosition (s : State) :
    (setFsUpdated s).writePosition = s.writePosition := rfl
@[simp] theorem setFsUpdated_ring (s : State) : (setFsUpdated s).ring = s.ring := rfl
@[simp] theorem setFsUpdated_coef (s : State) : (setFsUpdated s).coef = s.coef := rfl
@[simp] theorem setFsUpdated_ir (s : State) : (setFsUpdated s).ir = s.ir := rfl
@[simp] theorem setFsUpdated_dmem (s : State) : (setFsUpdated s).dmem = s.dmem := rfl
@[simp] theorem setFsUpdated_params (s : State) : (setFsUpdated s).params = s.params := rfl
@[simp] theorem setFsUpdated_freeCount (s : State) :
    (setFsUpdated s).freeCount = s.freeCount := rfl
@[simp] theorem setFsUpdated_hostData (s : State) : (setFsUpdated s).hostData = s.hostData := rfl
@[simp] theorem setFsUpdated_pending (s : State) : (setFsUpdated s).pending = s.pending := rfl

/-! ### `consumeFsUpdated` -/
@[simp] theorem consumeFsUpdated_a (s : State) : (consumeFsUpdated s).a = s.a := rfl
@[simp] theorem consumeFsUpdated_iptr (s : State) : (consumeFsUpdated s).iptr = s.iptr := rfl
@[simp] theorem consumeFsUpdated_optr (s : State) : (consumeFsUpdated s).optr = s.optr := rfl
@[simp] theorem consumeFsUpdated_err (s : State) : (consumeFsUpdated s).err = s.err := rfl
@[simp] theorem consumeFsUpdated_lifecycle (s : State) :
    (consumeFsUpdated s).lifecycle = s.lifecycle := rfl
@[simp] theorem consumeFsUpdated_busy (s : State) : (consumeFsUpdated s).busy = s.busy := rfl
@[simp] theorem consumeFsUpdated_numChannels (s : State) :
    (consumeFsUpdated s).numChannels = s.numChannels := rfl
@[simp] theorem consumeFsUpdated_fsPrim (s : State) : (consumeFsUpdated s).fsPrim = s.fsPrim := rfl
@[simp] theorem consumeFsUpdated_fsSec (s : State) : (consumeFsUpdated s).fsSec = s.fsSec := rfl
@[simp] theorem consumeFsUpdated_inputFormat (s : State) :
    (consumeFsUpdated s).inputFormat = s.inputFormat := rfl
@[simp] theorem consumeFsUpdated_outputFormat (s : State) :
    (consumeFsUpdated s).outputFormat = s.outputFormat := rfl
@[simp] theorem consumeFsUpdated_bufferMode (s : State) :
    (consumeFsUpdated s).bufferMode = s.bufferMode := rfl
@[simp] theorem consumeFsUpdated_bufferLength (s : State) :
    (consumeFsUpdated s).bufferLength = s.bufferLength := rfl
@[simp] theorem consumeFsUpdated_bitDepth (s : State) :
    (consumeFsUpdated s).bitDepth = s.bitDepth := rfl
@[simp] theorem consumeFsUpdated_controlMode (s : State) :
    (consumeFsUpdated s).controlMode = s.controlMode := rfl
@[simp] theorem consumeFsUpdated_operationMode (s : State) :
    (consumeFsUpdated s).operationMode = s.operationMode := rfl
@[simp] theorem consumeFsUpdated_filterLength (s : State) :
    (consumeFsUpdated s).filterLength = s.filterLength := rfl
@[simp] theorem consumeFsUpdated_numFilters (s : State) :
    (consumeFsUpdated s).numFilters = s.numFilters := rfl
@[simp] theorem consumeFsUpdated_fsRatio (s : State) :
    (consumeFsUpdated s).fsRatio = s.fsRatio := rfl
@[simp] theorem consumeFsUpdated_fsRatioInv (s : State) :
    (consumeFsUpdated s).fsRatioInv = s.fsRatioInv := rfl
@[simp] theorem consumeFsUpdated_fsRatioNom (s : State) :
    (consumeFsUpdated s).fsRatioNom = s.fsRatioNom := rfl
@[simp] theorem consumeFsUpdated_timeValue (s : State) :
    (consumeFsUpdated s).timeValue = s.timeValue := rfl
@[simp] theorem consumeFsUpdated_timeValuePull (s : State) :
    (consumeFsUpdated s).timeValuePull = s.timeValuePull := rfl
@[simp] theorem consumeFsUpdated_writePosition (s : State) :
    (consumeFsUpdated s).writePosition = s.writePosition := rfl
@[simp] theorem consumeFsUpdated_ring (s : State) : (consumeFsUpdated s).ring = s.ring := rfl
@[simp] theorem consumeFsUpdated_coef (s : State) : (consumeFsUpdated s).coef = s.coef := rfl
@[simp] theorem consumeFsUpdated_ir (s : State) : (consumeFsUpdated s).ir = s.ir := rfl
@[simp] theorem consumeFsUpdated_dmem (s : State) : (consumeFsUpdated s).dmem = s.dmem := rfl
@[simp] theorem consumeFsUpdated_params (s : State) : (consumeFsUpdated s).params = s.params := rfl
@[simp] theorem consumeFsUpdated_freeCount (s : State) :
    (consumeFsUpdated s).freeCount = s.freeCount := rfl
@[simp] theorem consumeFsUpdated_hostData (s : State) :
    (consumeFsUpdated s).hostData = s.hostData := rfl
@[simp] theorem consumeFsUpdated_pending (s : State) :
    (consumeFsUpdated s).pending = s.pending := rfl

/-! ### `forgetTaps` -/
@[simp] theorem forgetTaps_a (s : State) : (forgetTaps s).a = s.a := rfl
@[simp] theorem forgetTaps_iptr (s : State) : (forgetTaps s).iptr = s.iptr := rfl
@[simp] theorem forgetTaps_optr (s : State) : (forgetTaps s).optr = s.optr := rfl
@[simp] theorem forgetTaps_err (s : State) : (forgetTaps s).err = s.err := rfl
@[simp] theorem forgetTaps_lifecycle (s : State) : (forgetTaps s).lifecycle = s.lifecycle := rfl
@[simp] theorem forgetTaps_fsUpdated (s : State) : (forgetTaps s).fsUpdated = s.fsUpdated := rfl
@[simp] theorem forgetTaps_busy (s : State) : (forgetTaps s).busy = s.busy := rfl
@[simp] theorem forgetTaps_numChannels (s : State) :
    (forgetTaps s).numChannels = s.numChannels := rfl
@[simp] theorem forgetTaps_fsPrim (s : State) : (forgetTaps s).fsPrim = s.fsPrim := rfl
@[simp] theorem forgetTaps_fsSec (s : State) : (forgetTaps s).fsSec = s.fsSec := rfl
@[simp] theorem forgetTaps_inputFormat (s : State) :
    (forgetTaps s).inputFormat = s.inputFormat := rfl
@[simp] theorem forgetTaps_outputFormat (s : State) :
    (forgetTaps s).outputFormat = s.outputFormat := rfl
@[simp] theorem forgetTaps_bufferMode (s : State) : (forgetTaps s).bufferMode = s.bufferMode := rfl
@[simp] theorem forgetTaps_bufferLength (s : State) :
    (forgetTaps s).bufferLength = s.bufferLength := rfl
@[simp] theorem forgetTaps_bitDepth (s : State) : (forgetTaps s).bitDepth = s.bitDepth := rfl
@[simp] theorem forgetTaps_controlMode (s : State) :
    (forgetTaps s).controlMode = s.controlMode := rfl
@[simp] theorem forgetTaps_operationMode (s : State) :
    (forgetTaps s).operationMode = s.operationMode := rfl
@[simp] theorem forgetTaps_filterLength (s : State) :
    (forgetTaps s).filterLength = s.filterLength := rfl
@[simp] theorem forgetTaps_numFilters (s : State) : (forgetTaps s).numFilters = s.numFilters := rfl
@[simp] theorem forgetTaps_fsRatio (s : State) : (forgetTaps s).fsRatio = s.fsRatio := rfl
@[simp] theorem forgetTaps_fsRatioInv (s : State) : (forgetTaps s).fsRatioInv = s.fsRatioInv := rfl
@[simp] theorem forgetTaps_fsRatioNom (s : State) : (forgetTaps s).fsRatioNom = s.fsRatioNom := rfl
@[simp] theorem forgetTaps_timeValue (s : State) : (forgetTaps s).timeValue = s.timeValue := rfl
@[simp] theorem forgetTaps_timeValuePull (s : State) :
    (forgetTaps s).timeValuePull = s.timeValuePull := rfl
@[simp] theorem forgetTaps_writePosition (s : State) :
    (forgetTaps s).writePosition = s.writePosition := rfl
@[simp] theorem forgetTaps_ring (s : State) : (forgetTaps s).ring = s.ring := rfl
@[simp] theorem forgetTaps_coef (s : State) : (forgetTaps s).coef = s.coef := rfl
@[simp] theorem forgetTaps_ir (s : State) : (forgetTaps s).ir = [] := rfl
@[simp] theorem forgetTaps_dmem (s : State) : (forgetTaps s).dmem = s.dmem := rfl
@[simp] theorem forgetTaps_params (s : State) : (forgetTaps s).params = s.params := rfl
@[simp] theorem forgetTaps_freeCount (s : State) : (forgetTaps s).freeCount = s.freeCount := rfl
@[simp] theorem forgetTaps_hostData (s : State) : (forgetTaps s).hostData = s.hostData := rfl
@[simp] theorem forgetTaps_pending (s : State) : (forgetTaps s).pending = s.pending := rfl

/-! ### `ringWrite` -/
@[simp] theorem ringWrite_a (s : State) (c : Nat) (x : Int) : (ringWrite s c x).a = s.a := rfl
@[simp] theorem ringWrite_iptr (s : State) (c : Nat) (x : Int) :
    (ringWrite s c x).iptr = s.iptr := rfl
@[simp] theorem ringWrite_optr (s : State) (c : Nat) (x : Int) :
    (ringWrite s c x).optr = s.optr := rfl
@[simp] theorem ringWrite_err (s : State) (c : Nat) (x : Int) :
    (ringWrite s c x).err = s.err := rfl
@[simp] theorem ringWrite_lifecycle (s : State) (c : Nat) (x : Int) :
    (ringWrite s c x).lifecycle = s.lifecycle := rfl
@[simp] theorem ringWrite_fsUpdated (s : State) (c : Nat) (x : Int) :
    (ringWrite s c x).fsUpdated = s.fsUpdated := rfl
@[simp] theorem ringWrite_busy (s : State) (c : Nat) (x : Int) :
    (ringWrite s c x).busy = s.busy := rfl
@[simp] theorem ringWrite_numChannels (s : State) (c : Nat) (x : Int) :
    (ringWrite s c x).numChannels = s.numChannels := rfl
@[simp] theorem ringWrite_fsPrim (s : State) (c : Nat) (x : Int) :
    (ringWrite s c x).fsPrim = s.fsPrim := rfl
@[simp] theorem ringWrite_fsSec (s : State) (c : Nat) (x : Int) :
    (ringWrite s c x).fsSec = s.fsSec := rfl
@[simp] theorem ringWrite_inputFormat (s : State) (c : Nat) (x : Int) :
    (ringWrite s c x).inputFormat = s.inputFormat := rfl
@[simp] theorem ringWrite_outputFormat (s : State) (c : Nat) (x : Int) :
    (ringWrite s c x).outputFormat = s.outputFormat := rfl
@[simp] theorem ringWrite_bufferMode (s : State) (c : Nat) (x : Int) :
    (ringWrite s c x).bufferMode = s.bufferMode := rfl
@[simp] theorem ringWrite_bufferLength (s : State) (c : Nat) (x : Int) :
    (ringWrite s c x).bufferLength = s.bufferLength := rfl
@[simp] theorem ringWrite_bitDepth (s : State) (c : Nat) (x : Int) :
    (ringWrite s c x).bitDepth = s.bitDepth := rfl
@[simp] theorem ringWrite_controlMode (s : State) (c : Nat) (x : Int) :
    (ringWrite s c x).controlMode = s.controlMode := rfl
@[simp] theorem ringWrite_operationMode (s : State) (c : Nat) (x : Int) :
    (ringWrite s c x).operationMode = s.operationMode := rfl
@[simp] theorem ringWrite_filterLength (s : State) (c : Nat) (x : Int) :
    (ringWrite s c x).filterLength = s.filterLength := rfl
@[simp] theorem ringWrite_numFilters (s : State) (c : Nat) (x : Int) :
    (ringWrite s c x).numFilters = s.numFilters := rfl
@[simp] theorem ringWrite_fsRatio (s : State) (c : Nat) (x : Int) :
    (ringWrite s c x).fsRatio = s.fsRatio := rfl
@[simp] theorem ringWrite_fsRatioInv (s : State) (c : Nat) (x : Int) :
    (ringWrite s c x).fsRatioInv = s.fsRatioInv := rfl
@[simp] theorem ringWrite_fsRatioNom (s : State) (c : Nat) (x : Int) :
    (ringWrite s c x).fsRatioNom = s.fsRatioNom := rfl
@[simp] theorem ringWrite_timeValue (s : State) (c : Nat) (x : Int) :
    (ringWrite s c x).timeValue = s.timeValue := rfl
@[simp] theorem ringWrite_timeValuePull (s : State) (c : Nat) (x : Int) :
    (ringWrite s c x).timeValuePull = s.timeValuePull := rfl
@[simp] theorem ringWrite_writePosition (s : State) (c : Nat) (x : Int) :
    (ringWrite s c x).writePosition = s.writePosition := rfl
@[simp] theorem ringWrite_ring (s : State) (c : Nat) (x : Int) :
    (ringWrite s c x).ring = s.ring.modify c (fun row => row.set s.writePosition.toNat (toWord x)) := rfl
@[simp] theorem ringWrite_coef (s : State) (c : Nat) (x : Int) :
    (ringWrite s c x).coef = s.coef := rfl
@[simp] theorem ringWrite_ir (s : State) (c : Nat) (x : Int) : (ringWrite s c x).ir = s.ir := rfl
@[simp] theorem ringWrite_dmem (s : State) (c : Nat) (x : Int) :
    (ringWrite s c x).dmem = s.dmem := rfl
@[simp] theorem ringWrite_params (s : State) (c : Nat) (x : Int) :
    (ringWrite s c x).params = s.params := rfl
@[simp] theorem ringWrite_freeCount (s : State) (c : Nat) (x : Int) :
    (ringWrite s c x).freeCount = s.freeCount := rfl
@[simp] theorem ringWrite_hostData (s : State) (c : Nat) (x : Int) :
    (ringWrite s c x).hostData = s.hostData := rfl
@[simp] theorem ringWrite_pending (s : State) (c : Nat) (x : Int) :
    (ringWrite s c x).pending = s.pending := rfl

/-! ### `ringAdvance` -/
@[simp] theorem ringAdvance_a (s : State) : (ringAdvance s).a = s.a := rfl
@[simp] theorem ringAdvance_iptr (s : State) : (ringAdvance s).iptr = s.iptr := rfl
@[simp] theorem ringAdvance_optr (s : State) : (ringAdvance s).optr = s.optr := rfl
@[simp] theorem ringAdvance_err (s : State) : (ringAdvance s).err = s.err := rfl
@[simp] theorem ringAdvance_lifecycle (s : State) : (ringAdvance s).lifecycle = s.lifecycle := rfl
@[simp] theorem ringAdvance_fsUpdated (s : State) : (ringAdvance s).fsUpdated = s.fsUpdated := rfl
@[simp] theorem ringAdvance_busy (s : State) : (ringAdvance s).busy = s.busy := rfl
@[simp] theorem ringAdvance_numChannels (s : State) :
    (ringAdvance s).numChannels = s.numChannels := rfl
@[simp] theorem ringAdvance_fsPrim (s : State) : (ringAdvance s).fsPrim = s.fsPrim := rfl
@[simp] theorem ringAdvance_fsSec (s : State) : (ringAdvance s).fsSec = s.fsSec := rfl
@[simp] theorem ringAdvance_inputFormat (s : State) :
    (ringAdvance s).inputFormat = s.inputFormat := rfl
@[simp] theorem ringAdvance_outputFormat (s : State) :
    (ringAdvance s).outputFormat = s.outputFormat := rfl
@[simp] theorem ringAdvance_bufferMode (s : State) :
    (ringAdvance s).bufferMode = s.bufferMode := rfl
@[simp] theorem ringAdvance_bufferLength (s : State) :
    (ringAdvance s).bufferLength = s.bufferLength := rfl
@[simp] theorem ringAdvance_bitDepth (s : State) : (ringAdvance s).bitDepth = s.bitDepth := rfl
@[simp] theorem ringAdvance_controlMode (s : State) :
    (ringAdvance s).controlMode = s.controlMode := rfl
@[simp] theorem ringAdvance_operationMode (s : State) :
    (ringAdvance s).operationMode = s.operationMode := rfl
@[simp] theorem ringAdvance_filterLength (s : State) :
    (ringAdvance s).filterLength = s.filterLength := rfl
@[simp] theorem ringAdvance_numFilters (s : State) :
    (ringAdvance s).numFilters = s.numFilters := rfl
@[simp] theorem ringAdvance_fsRatio (s : State) : (ringAdvance s).fsRatio = s.fsRatio := rfl
@[simp] theorem ringAdvance_fsRatioInv (s : State) :
    (ringAdvance s).fsRatioInv = s.fsRatioInv := rfl
@[simp] theorem ringAdvance_fsRatioNom (s : State) :
    (ringAdvance s).fsRatioNom = s.fsRatioNom := rfl
@[simp] theorem ringAdvance_timeValue (s : State) : (ringAdvance s).timeValue = s.timeValue := rfl
@[simp] theorem ringAdvance_timeValuePull (s : State) :
    (ringAdvance s).timeValuePull = s.timeValuePull := rfl
@[simp] theorem ringAdvance_writePosition (s : State) :
    (ringAdvance s).writePosition = BitVec.ofNat 32 ((s.writePosition.toNat + 1) % s.bufferLength.toNat) := rfl
@[simp] theorem ringAdvance_ring (s : State) : (ringAdvance s).ring = s.ring := rfl
@[simp] theorem ringAdvance_coef (s : State) : (ringAdvance s).coef = s.coef := rfl
@[simp] theorem ringAdvance_ir (s : State) : (ringAdvance s).ir = s.ir := rfl
@[simp] theorem ringAdvance_dmem (s : State) : (ringAdvance s).dmem = s.dmem := rfl
@[simp] theorem ringAdvance_params (s : State) : (ringAdvance s).params = s.params := rfl
@[simp] theorem ringAdvance_freeCount (s : State) : (ringAdvance s).freeCount = s.freeCount := rfl
@[simp] theorem ringAdvance_hostData (s : State) : (ringAdvance s).hostData = s.hostData := rfl
@[simp] theorem ringAdvance_pending (s : State) : (ringAdvance s).pending = s.pending := rfl

/-! ### `ringFlush` -/
@[simp] theorem ringFlush_a (s : State) : (ringFlush s).a = s.a := rfl
@[simp] theorem ringFlush_iptr (s : State) : (ringFlush s).iptr = s.iptr := rfl
@[simp] theorem ringFlush_optr (s : State) : (ringFlush s).optr = s.optr := rfl
@[simp] theorem ringFlush_err (s : State) : (ringFlush s).err = s.err := rfl
@[simp] theorem ringFlush_lifecycle (s : State) : (ringFlush s).lifecycle = s.lifecycle := rfl
@[simp] theorem ringFlush_fsUpdated (s : State) : (ringFlush s).fsUpdated = s.fsUpdated := rfl
@[simp] theorem ringFlush_busy (s : State) : (ringFlush s).busy = s.busy := rfl
@[simp] theorem ringFlush_numChannels (s : State) :
    (ringFlush s).numChannels = s.numChannels := rfl
@[simp] theorem ringFlush_fsPrim (s : State) : (ringFlush s).fsPrim = s.fsPrim := rfl
@[simp] theorem ringFlush_fsSec (s : State) : (ringFlush s).fsSec = s.fsSec := rfl
@[simp] theorem ringFlush_inputFormat (s : State) :
    (ringFlush s).inputFormat = s.inputFormat := rfl
@[simp] theorem ringFlush_outputFormat (s : State) :
    (ringFlush s).outputFormat = s.outputFormat := rfl
@[simp] theorem ringFlush_bufferMode (s : State) : (ringFlush s).bufferMode = s.bufferMode := rfl
@[simp] theorem ringFlush_bufferLength (s : State) :
    (ringFlush s).bufferLength = s.bufferLength := rfl
@[simp] theorem ringFlush_bitDepth (s : State) : (ringFlush s).bitDepth = s.bitDepth := rfl
@[simp] theorem ringFlush_controlMode (s : State) :
    (ringFlush s).controlMode = s.controlMode := rfl
@[simp] theorem ringFlush_operationMode (s : State) :
    (ringFlush s).operationMode = s.operationMode := rfl
@[simp] theorem ringFlush_filterLength (s : State) :
    (ringFlush s).filterLength = s.filterLength := rfl
@[simp] theorem ringFlush_numFilters (s : State) : (ringFlush s).numFilters = s.numFilters := rfl
@[simp] theorem ringFlush_fsRatio (s : State) : (ringFlush s).fsRatio = s.fsRatio := rfl
@[simp] theorem ringFlush_fsRatioInv (s : State) : (ringFlush s).fsRatioInv = s.fsRatioInv := rfl
@[simp] theorem ringFlush_fsRatioNom (s : State) : (ringFlush s).fsRatioNom = s.fsRatioNom := rfl
@[simp] theorem ringFlush_timeValue (s : State) : (ringFlush s).timeValue = s.timeValue := rfl
@[simp] theorem ringFlush_timeValuePull (s : State) :
    (ringFlush s).timeValuePull = s.timeValuePull := rfl
@[simp] theorem ringFlush_writePosition (s : State) : (ringFlush s).writePosition = 0 := rfl
@[simp] theorem ringFlush_ring (s : State) :
    (ringFlush s).ring = List.replicate s.numChannels.toNat (List.replicate s.bufferLength.toNat 0) := rfl
@[simp] theorem ringFlush_coef (s : State) : (ringFlush s).coef = s.coef := rfl
@[simp] theorem ringFlush_ir (s : State) : (ringFlush s).ir = s.ir := rfl
@[simp] theorem ringFlush_dmem (s : State) : (ringFlush s).dmem = s.dmem := rfl
@[simp] theorem ringFlush_params (s : State) : (ringFlush s).params = s.params := rfl
@[simp] theorem ringFlush_freeCount (s : State) : (ringFlush s).freeCount = s.freeCount := rfl
@[simp] theorem ringFlush_hostData (s : State) : (ringFlush s).hostData = s.hostData := rfl
@[simp] theorem ringFlush_pending (s : State) : (ringFlush s).pending = s.pending := rfl

/-! ### `outStore` -/
@[simp] theorem outStore_a (s : State) (f c : Nat) (y : Int) : (outStore s f c y).a = s.a := rfl
@[simp] theorem outStore_iptr (s : State) (f c : Nat) (y : Int) :
    (outStore s f c y).iptr = s.iptr := rfl
@[simp] theorem outStore_optr (s : State) (f c : Nat) (y : Int) :
    (outStore s f c y).optr = s.optr := rfl
@[simp] theorem outStore_err (s : State) (f c : Nat) (y : Int) :
    (outStore s f c y).err = s.err := rfl
@[simp] theorem outStore_lifecycle (s : State) (f c : Nat) (y : Int) :
    (outStore s f c y).lifecycle = s.lifecycle := rfl
@[simp] theorem outStore_fsUpdated (s : State) (f c : Nat) (y : Int) :
    (outStore s f c y).fsUpdated = s.fsUpdated := rfl
@[simp] theorem outStore_busy (s : State) (f c : Nat) (y : Int) :
    (outStore s f c y).busy = s.busy := rfl
@[simp] theorem outStore_numChannels (s : State) (f c : Nat) (y : Int) :
    (outStore s f c y).numChannels = s.numChannels := rfl
@[simp] theorem outStore_fsPrim (s : State) (f c : Nat) (y : Int) :
    (outStore s f c y).fsPrim = s.fsPrim := rfl
@[simp] theorem outStore_fsSec (s : State) (f c : Nat) (y : Int) :
    (outStore s f c y).fsSec = s.fsSec := rfl
@[simp] theorem outStore_inputFormat (s : State) (f c : Nat) (y : Int) :
    (outStore s f c y).inputFormat = s.inputFormat := rfl
@[simp] theorem outStore_outputFormat (s : State) (f c : Nat) (y : Int) :
    (outStore s f c y).outputFormat = s.outputFormat := rfl
@[simp] theorem outStore_bufferMode (s : State) (f c : Nat) (y : Int) :
    (outStore s f c y).bufferMode = s.bufferMode := rfl
@[simp] theorem outStore_bufferLength (s : State) (f c : Nat) (y : Int) :
    (outStore s f c y).bufferLength = s.bufferLength := rfl
@[simp] theorem outStore_bitDepth (s : State) (f c : Nat) (y : Int) :
    (outStore s f c y).bitDepth = s.bitDepth := rfl
@[simp] theorem outStore_controlMode (s : State) (f c : Nat) (y : Int) :
    (outStore s f c y).controlMode = s.controlMode := rfl
@[simp] theorem outStore_operationMode (s : State) (f c : Nat) (y : Int) :
    (outStore s f c y).operationMode = s.operationMode := rfl
@[simp] theorem outStore_filterLength (s : State) (f c : Nat) (y : Int) :
    (outStore s f c y).filterLength = s.filterLength := rfl
@[simp] theorem outStore_numFilters (s : State) (f c : Nat) (y : Int) :
    (outStore s f c y).numFilters = s.numFilters := rfl
@[simp] theorem outStore_fsRatio (s : State) (f c : Nat) (y : Int) :
    (outStore s f c y).fsRatio = s.fsRatio := rfl
@[simp] theorem outStore_fsRatioInv (s : State) (f c : Nat) (y : Int) :
    (outStore s f c y).fsRatioInv = s.fsRatioInv := rfl
@[simp] theorem outStore_fsRatioNom (s : State) (f c : Nat) (y : Int) :
    (outStore s f c y).fsRatioNom = s.fsRatioNom := rfl
@[simp] theorem outStore_timeValue (s : State) (f c : Nat) (y : Int) :
    (outStore s f c y).timeValue = s.timeValue := rfl
@[simp] theorem outStore_timeValuePull (s : State) (f c : Nat) (y : Int) :
    (outStore s f c y).timeValuePull = s.timeValuePull := rfl
@[simp] theorem outStore_writePosition (s : State) (f c : Nat) (y : Int) :
    (outStore s f c y).writePosition = s.writePosition := rfl
@[simp] theorem outStore_ring (s : State) (f c : Nat) (y : Int) :
    (outStore s f c y).ring = s.ring := rfl
@[simp] theorem outStore_coef (s : State) (f c : Nat) (y : Int) :
    (outStore s f c y).coef = s.coef := rfl
@[simp] theorem outStore_ir (s : State) (f c : Nat) (y : Int) : (outStore s f c y).ir = s.ir := rfl
@[simp] theorem outStore_dmem (s : State) (f c : Nat) (y : Int) :
    (outStore s f c y).dmem = memWrite s.dmem (outputAddr s f c) s.sampleBytes (wrap s.bitDepth.toNat y) := rfl
@[simp] theorem outStore_params (s : State) (f c : Nat) (y : Int) :
    (outStore s f c y).params = s.params := rfl
@[simp] theorem outStore_freeCount (s : State) (f c : Nat) (y : Int) :
    (outStore s f c y).freeCount = s.freeCount := rfl
@[simp] theorem outStore_hostData (s : State) (f c : Nat) (y : Int) :
    (outStore s f c y).hostData = s.hostData := rfl
@[simp] theorem outStore_pending (s : State) (f c : Nat) (y : Int) :
    (outStore s f c y).pending = s.pending := rfl

/-! ### `irgen` -/
@[simp] theorem irgen_a (t : Int) (s : State) : (irgen t s).a = s.a := rfl
@[simp] theorem irgen_iptr (t : Int) (s : State) : (irgen t s).iptr = s.iptr := rfl
@[simp] theorem irgen_optr (t : Int) (s : State) : (irgen t s).optr = s.optr := rfl
@[simp] theorem irgen_err (t : Int) (s : State) : (irgen t s).err = s.err := rfl
@[simp] theorem irgen_lifecycle (t : Int) (s : State) : (irgen t s).lifecycle = s.lifecycle := rfl
@[simp] theorem irgen_fsUpdated (t : Int) (s : State) : (irgen t s).fsUpdated = s.fsUpdated := rfl
@[simp] theorem irgen_busy (t : Int) (s : State) : (irgen t s).busy = s.busy := rfl
@[simp] theorem irgen_numChannels (t : Int) (s : State) :
    (irgen t s).numChannels = s.numChannels := rfl
@[simp] theorem irgen_fsPrim (t : Int) (s : State) : (irgen t s).fsPrim = s.fsPrim := rfl
@[simp] theorem irgen_fsSec (t : Int) (s : State) : (irgen t s).fsSec = s.fsSec := rfl
@[simp] theorem irgen_inputFormat (t : Int) (s : State) :
    (irgen t s).inputFormat = s.inputFormat := rfl
@[simp] theorem irgen_outputFormat (t : Int) (s : State) :
    (irgen t s).outputFormat = s.outputFormat := rfl
@[simp] theorem irgen_bufferMode (t : Int) (s : State) :
    (irgen t s).bufferMode = s.bufferMode := rfl
@[simp] theorem irgen_bufferLength (t : Int) (s : State) :
    (irgen t s).bufferLength = s.bufferLength := rfl
@[simp] theorem irgen_bitDepth (t : Int) (s : State) : (irgen t s).bitDepth = s.bitDepth := rfl
@[simp] theorem irgen_controlMode (t : Int) (s : State) :
    (irgen t s).controlMode = s.controlMode := rfl
@[simp] theorem irgen_operationMode (t : Int) (s : State) :
    (irgen t s).operationMode = s.operationMode := rfl
@[simp] theorem irgen_filterLength (t : Int) (s : State) :
    (irgen t s).filterLength = s.filterLength := rfl
@[simp] theorem irgen_numFilters (t : Int) (s : State) :
    (irgen t s).numFilters = s.numFilters := rfl
@[simp] theorem irgen_fsRatio (t : Int) (s : State) : (irgen t s).fsRatio = s.fsRatio := rfl
@[simp] theorem irgen_fsRatioInv (t : Int) (s : State) :
    (irgen t s).fsRatioInv = s.fsRatioInv := rfl
@[simp] theorem irgen_fsRatioNom (t : Int) (s : State) :
    (irgen t s).fsRatioNom = s.fsRatioNom := rfl
@[simp] theorem irgen_timeValue (t : Int) (s : State) : (irgen t s).timeValue = s.timeValue := rfl
@[simp] theorem irgen_timeValuePull (t : Int) (s : State) :
    (irgen t s).timeValuePull = s.timeValuePull := rfl
@[simp] theorem irgen_writePosition (t : Int) (s : State) :
    (irgen t s).writePosition = s.writePosition := rfl
@[simp] theorem irgen_ring (t : Int) (s : State) : (irgen t s).ring = s.ring := rfl
@[simp] theorem irgen_coef (t : Int) (s : State) : (irgen t s).coef = s.coef := rfl
@[simp] theorem irgen_ir (t : Int) (s : State) :
    (irgen t s).ir = (List.range s.filterLength.toNat).map (fun m => toWord (irgenTap s t m)) := rfl
@[simp] theorem irgen_dmem (t : Int) (s : State) : (irgen t s).dmem = s.dmem := rfl
@[simp] theorem irgen_params (t : Int) (s : State) : (irgen t s).params = s.params := rfl
@[simp] theorem irgen_freeCount (t : Int) (s : State) : (irgen t s).freeCount = s.freeCount := rfl
@[simp] theorem irgen_hostData (t : Int) (s : State) : (irgen t s).hostData = s.hostData := rfl
@[simp] theorem irgen_pending (t : Int) (s : State) : (irgen t s).pending = s.pending := rfl

/-! ### `setTime` -/
@[simp] theorem setTime_a (d : OperationMode) (v : Int) (s : State) :
    (s.setTime d v).a = s.a := by
  cases d <;> rfl
@[simp] theorem setTime_iptr (d : OperationMode) (v : Int) (s : State) :
    (s.setTime d v).iptr = s.iptr := by
  cases d <;> rfl
@[simp] theorem setTime_optr (d : OperationMode) (v : Int) (s : State) :
    (s.setTime d v).optr = s.optr := by
  cases d <;> rfl
@[simp] theorem setTime_err (d : OperationMode) (v : Int) (s : State) :
    (s.setTime d v).err = s.err := by
  cases d <;> rfl
@[simp] theorem setTime_lifecycle (d : OperationMode) (v : Int) (s : State) :
    (s.setTime d v).lifecycle = s.lifecycle := by
  cases d <;> rfl
@[simp] theorem setTime_fsUpdated (d : OperationMode) (v : Int) (s : State) :
    (s.setTime d v).fsUpdated = s.fsUpdated := by
  cases d <;> rfl
@[simp] theorem setTime_busy (d : OperationMode) (v : Int) (s : State) :
    (s.setTime d v).busy = s.busy := by
  cases d <;> rfl
@[simp] theorem setTime_numChannels (d : OperationMode) (v : Int) (s : State) :
    (s.setTime d v).numChannels = s.numChannels := by
  cases d <;> rfl
@[simp] theorem setTime_fsPrim (d : OperationMode) (v : Int) (s : State) :
    (s.setTime d v).fsPrim = s.fsPrim := by
  cases d <;> rfl
@[simp] theorem setTime_fsSec (d : OperationMode) (v : Int) (s : State) :
    (s.setTime d v).fsSec = s.fsSec := by
  cases d <;> rfl
@[simp] theorem setTime_inputFormat (d : OperationMode) (v : Int) (s : State) :
    (s.setTime d v).inputFormat = s.inputFormat := by
  cases d <;> rfl
@[simp] theorem setTime_outputFormat (d : OperationMode) (v : Int) (s : State) :
    (s.setTime d v).outputFormat = s.outputFormat := by
  cases d <;> rfl
@[simp] theorem setTime_bufferMode (d : OperationMode) (v : Int) (s : State) :
    (s.setTime d v).bufferMode = s.bufferMode := by
  cases d <;> rfl
@[simp] theorem setTime_bufferLength (d : OperationMode) (v : Int) (s : State) :
    (s.setTime d v).bufferLength = s.bufferLength := by
  cases d <;> rfl
@[simp] theorem setTime_bitDepth (d : OperationMode) (v : Int) (s : State) :
    (s.setTime d v).bitDepth = s.bitDepth := by
  cases d <;> rfl
@[simp] theorem setTime_controlMode (d : OperationMode) (v : Int) (s : State) :
    (s.setTime d v).controlMode = s.controlMode := by
  cases d <;> rfl
@[simp] theorem setTime_operationMode (d : OperationMode) (v : Int) (s : State) :
    (s.setTime d v).operationMode = s.operationMode := by
  cases d <;> rfl
@[simp] theorem setTime_filterLength (d : OperationMode) (v : Int) (s : State) :
    (s.setTime d v).filterLength = s.filterLength := by
  cases d <;> rfl
@[simp] theorem setTime_numFilters (d : OperationMode) (v : Int) (s : State) :
    (s.setTime d v).numFilters = s.numFilters := by
  cases d <;> rfl
@[simp] theorem setTime_fsRatio (d : OperationMode) (v : Int) (s : State) :
    (s.setTime d v).fsRatio = s.fsRatio := by
  cases d <;> rfl
@[simp] theorem setTime_fsRatioInv (d : OperationMode) (v : Int) (s : State) :
    (s.setTime d v).fsRatioInv = s.fsRatioInv := by
  cases d <;> rfl
@[simp] theorem setTime_fsRatioNom (d : OperationMode) (v : Int) (s : State) :
    (s.setTime d v).fsRatioNom = s.fsRatioNom := by
  cases d <;> rfl
@[simp] theorem setTime_writePosition (d : OperationMode) (v : Int) (s : State) :
    (s.setTime d v).writePosition = s.writePosition := by
  cases d <;> rfl
@[simp] theorem setTime_ring (d : OperationMode) (v : Int) (s : State) :
    (s.setTime d v).ring = s.ring := by
  cases d <;> rfl
@[simp] theorem setTime_coef (d : OperationMode) (v : Int) (s : State) :
    (s.setTime d v).coef = s.coef := by
  cases d <;> rfl
@[simp] theorem setTime_ir (d : OperationMode) (v : Int) (s : State) :
    (s.setTime d v).ir = s.ir := by
  cases d <;> rfl
@[simp] theorem setTime_dmem (d : OperationMode) (v : Int) (s : State) :
    (s.setTime d v).dmem = s.dmem := by
  cases d <;> rfl
@[simp] theorem setTime_params (d : OperationMode) (v : Int) (s : State) :
    (s.setTime d v).params = s.params := by
  cases d <;> rfl
@[simp] theorem setTime_freeCount (d : OperationMode) (v : Int) (s : State) :
    (s.setTime d v).freeCount = s.freeCount := by
  cases d <;> rfl
@[simp] theorem setTime_hostData (d : OperationMode) (v : Int) (s : State) :
    (s.setTime d v).hostData = s.hostData := by
  cases d <;> rfl
@[simp] theorem setTime_pending (d : OperationMode) (v : Int) (s : State) :
    (s.setTime d v).pending = s.pending := by
  cases d <;> rfl

/-! ### `FS_UPDATED` -/

theorem consumeFsUpdated_fsUpdated_fixed {s : State} (h : s.controlMode = .fixed) :
    (consumeFsUpdated s).fsUpdated = false := by
  simp [consumeFsUpdated, h]

theorem consumeFsUpdated_fsUpdated_feedback {s : State} (h : s.controlMode = .feedback) :
    (consumeFsUpdated s).fsUpdated = s.fsUpdated := by
  simp [consumeFsUpdated, h]

/-! ### The accumulators -/

@[simp] theorem setTime_push_timeValue (v : Int) (s : State) :
    (s.setTime .push v).timeValue = toWord v := rfl
@[simp] theorem setTime_push_timeValuePull (v : Int) (s : State) :
    (s.setTime .push v).timeValuePull = s.timeValuePull := rfl
@[simp] theorem setTime_pull_timeValue (v : Int) (s : State) :
    (s.setTime .pull v).timeValue = s.timeValue := rfl
@[simp] theorem setTime_pull_timeValuePull (v : Int) (s : State) :
    (s.setTime .pull v).timeValuePull = toWord v := rfl

/-! ### Argument registers -/

theorem arg_setArg (s : State) (i j : Fin 16) (v : Word) :
    (s.setArg i v).arg j = if j = i then v else s.arg j := by
  unfold State.setArg State.arg
  rw [Fin.getElem_fin, Fin.getElem_fin, Vector.getElem_set]
  by_cases h : j = i
  · simp [h]
  · have : i.val ≠ j.val := fun e => h (Fin.ext e.symm)
    simp [h, this]

@[simp] theorem arg_setArg_same (s : State) (i : Fin 16) (v : Word) : (s.setArg i v).arg i = v := by
  simp [arg_setArg]

@[simp] theorem arg_setArg_ne (s : State) {i j : Fin 16} (v : Word) (h : j ≠ i) :
    (s.setArg i v).arg j = s.arg j := by
  simp [arg_setArg, h]

end Sys2Proof.Machine
end

