-- ==== Sys2Proof/Laws/Tracker.lean ====
section
/-! SUPPORT. What an input step and an output step do, said once. -/

namespace Sys2Proof.Machine

/-! ### What only some fields decide -/

@[simp] theorem inLoad_ringWrite (s : State) (c : Nat) (x : Int) (f c' : Nat) :
    inLoad (ringWrite s c x) f c' = inLoad s f c' := rfl

@[simp] theorem fir_outStore (s : State) (f c : Nat) (y : Int) (c' : Nat) :
    fir (outStore s f c y) c' = fir s c' := rfl

@[simp] theorem outputAddr_outStore (s : State) (f c : Nat) (y : Int) (f' c' : Nat) :
    outputAddr (outStore s f c y) f' c' = outputAddr s f' c' := rfl

@[simp] theorem time_setTime (d : OperationMode) (v : Int) (s : State) :
    (s.setTime d v).time d = (toWord v).toInt := by
  cases d <;> rfl

/-! ### The frame write -/

/-- Loading a frame changes only the ring. -/
theorem loadChannels_eq (f : Nat) (cs : List Nat) (s : State) :
    loadChannels f cs s = { s with ring := (loadChannels f cs s).ring } := by
  induction cs generalizing s with
  | nil => rfl
  | cons c rest ih => rw [loadChannels, ih]; rfl

/-- What loading a frame leaves in each row of the ring. -/
theorem loadChannels_ring (f : Nat) (cs : List Nat) (s : State) (c : Nat) :
    (loadChannels f cs s).ring[c]? =
      if c ∈ cs then
        (s.ring[c]?).map (fun row => row.set s.writePosition.toNat (toWord (inLoad s f c)))
      else s.ring[c]? := by
  induction cs generalizing s with
  | nil => simp [loadChannels]
  | cons d rest ih =>
    rw [loadChannels, ih]
    simp only [ringWrite_ring, inLoad_ringWrite, ringWrite_writePosition, List.getElem?_modify,
      List.mem_cons]
    by_cases h1 : d = c
    · subst h1
      by_cases h2 : d ∈ rest
      · simp only [h2, if_true, or_true]
        cases s.ring[d]? <;> simp
      · simp [h2]
    · have h3 : ¬ c = d := fun e => h1 e.symm
      by_cases h2 : c ∈ rest <;> simp [h1, h2, h3]

@[simp] theorem loadChannels_ring_length (f : Nat) (cs : List Nat) (s : State) :
    (loadChannels f cs s).ring.length = s.ring.length := by
  induction cs generalizing s with
  | nil => rfl
  | cons c rest ih => rw [loadChannels, ih]; simp

/-- A frame write changes only the ring and its cursor. -/
theorem frameWrite_eq (f : Nat) (s : State) :
    frameWrite f s =
      { s with ring := (frameWrite f s).ring, writePosition := (frameWrite f s).writePosition } := by
  unfold frameWrite
  rw [loadChannels_eq]
  rfl

theorem frameWrite_writePosition (f : Nat) (s : State) :
    (frameWrite f s).writePosition =
      BitVec.ofNat 32 ((s.writePosition.toNat + 1) % s.bufferLength.toNat) := by
  unfold frameWrite
  rw [loadChannels_eq]
  rfl

theorem frameWrite_ring (f : Nat) (s : State) :
    (frameWrite f s).ring = (loadChannels f (List.range s.numChannels.toNat) s).ring := rfl

/-! ### The stores of an output step -/

/-- Storing a frame changes only DMEM. -/
theorem storeChannels_eq (f : Nat) (cs : List Nat) (s : State) :
    storeChannels f cs s = { s with dmem := (storeChannels f cs s).dmem } := by
  induction cs generalizing s with
  | nil => rfl
  | cons c rest ih => rw [storeChannels, ih]; rfl

/-- The stores of an output step, one after another from the same state. -/
theorem storeChannels_dmem (f : Nat) (cs : List Nat) (s : State) :
    (storeChannels f cs s).dmem =
      cs.foldl (fun m c => memWrite m (outputAddr s f c) s.sampleBytes
        (wrap s.bitDepth.toNat (fir s c))) s.dmem := by
  induction cs generalizing s with
  | nil => rfl
  | cons c rest ih => rw [storeChannels, ih]; rfl

/-! ### The two steps -/

/-- An input step changes the ring, its cursor and the active accumulator (R173). -/
theorem trkConsume_eq (d : OperationMode) (f : Nat) (s : State) :
    trkConsume d f s =
      { s with
        ring := (frameWrite f s).ring, writePosition := (frameWrite f s).writePosition
        timeValue := (trkConsume d f s).timeValue
        timeValuePull := (trkConsume d f s).timeValuePull } := by
  unfold trkConsume
  rw [frameWrite_eq]
  cases d <;> rfl

/-- An output step changes the impulse response, DMEM and the active accumulator (R175). -/
theorem trkEmit_eq (d : OperationMode) (f : Nat) (s : State) :
    trkEmit d f s =
      { s with
        ir := (irgen (s.time d) s).ir, dmem := (trkEmit d f s).dmem
        timeValue := (trkEmit d f s).timeValue
        timeValuePull := (trkEmit d f s).timeValuePull } := by
  unfold trkEmit
  rw [storeChannels_eq]
  cases d <;> rfl

/-- The bytes an output step stores (R175). -/
theorem trkEmit_dmem (d : OperationMode) (f : Nat) (s : State) :
    (trkEmit d f s).dmem =
      (List.range s.numChannels.toNat).foldl (fun m c => memWrite m (outputAddr s f c) s.sampleBytes
        (wrap s.bitDepth.toNat (fir (irgen (s.time d) s) c))) s.dmem := by
  unfold trkEmit
  rw [show ∀ (t : State) v, (t.setTime d v).dmem = t.dmem by intros; simp, storeChannels_dmem]
  rfl

theorem trkConsume_time (d : OperationMode) (f : Nat) (s : State) :
    (trkConsume d f s).time d = (toWord (s.time d - Config.one)).toInt := by
  simp [trkConsume, timeAfterInput]

theorem trkEmit_time (d : OperationMode) (f : Nat) (s : State) :
    (trkEmit d f s).time d = sat 32 (s.time d + s.increment d) := by
  rw [trkEmit, time_setTime, timeAfterOutput]
  exact toInt_toWord (sat32_mem _).1 (sat32_mem _).2

theorem time_mem (d : OperationMode) (s : State) : -(2 ^ 31) ≤ s.time d ∧ s.time d < 2 ^ 31 := by
  cases d <;> exact word_toInt_mem _

/-- After an input step that was due, the time is exactly `ONE` less (R174). -/
theorem trkConsume_time_of_due {d : OperationMode} {s : State} (f : Nat)
    (h : (Config.one : Int) ≤ s.time d) :
    (trkConsume d f s).time d = s.time d - Config.one := by
  have := time_mem d s
  rw [trkConsume_time]
  unfold Config.one at *
  exact toInt_toWord (by omega) (by omega)

/-- An input step leaves the accumulator of the other direction alone (R171). -/
theorem trkConsume_time_other {d e : OperationMode} (hde : e ≠ d) (f : Nat) (s : State) :
    (trkConsume d f s).time e = s.time e := by
  unfold trkConsume
  rw [frameWrite_eq]
  cases d <;> cases e <;> first | rfl | exact absurd rfl hde

/-- An output step leaves the accumulator of the other direction alone (R171). -/
theorem trkEmit_time_other {d e : OperationMode} (hde : e ≠ d) (f : Nat) (s : State) :
    (trkEmit d f s).time e = s.time e := by
  unfold trkEmit
  rw [storeChannels_eq]
  cases d <;> cases e <;> first | rfl | exact absurd rfl hde

/-! ### The frame of a run of steps -/

theorem SameButStream.refl (s : State) : SameButStream s s := rfl

theorem SameButStream.trans {s t u : State} (h1 : SameButStream s t) (h2 : SameButStream t u) :
    SameButStream s u := by
  unfold SameButStream at *
  rw [h1] at h2
  exact h2

theorem trkConsume_stream (d : OperationMode) (f : Nat) (s : State) :
    SameButStream s (trkConsume d f s) := by
  unfold SameButStream
  rw [trkConsume_eq]

theorem trkEmit_stream (d : OperationMode) (f : Nat) (s : State) :
    SameButStream s (trkEmit d f s) := by
  unfold SameButStream
  rw [trkEmit_eq]

/-- What does not change along steps is equal field by field. -/
theorem SameButStream.fields {s t : State} (h : SameButStream s t) :
    t.a = s.a ∧ t.iptr = s.iptr ∧ t.optr = s.optr ∧ t.numChannels = s.numChannels
      ∧ t.inputFormat = s.inputFormat ∧ t.outputFormat = s.outputFormat
      ∧ t.bufferMode = s.bufferMode ∧ t.bufferLength = s.bufferLength ∧ t.bitDepth = s.bitDepth
      ∧ t.controlMode = s.controlMode ∧ t.filterLength = s.filterLength
      ∧ t.numFilters = s.numFilters ∧ t.fsRatio = s.fsRatio ∧ t.fsRatioInv = s.fsRatioInv
      ∧ t.coef = s.coef ∧ t.freeCount = s.freeCount := by
  unfold SameButStream at h
  rw [h]
  simp

theorem SameButStream.increment {s t : State} (h : SameButStream s t) (d : OperationMode) :
    t.increment d = s.increment d := by
  unfold SameButStream at h
  rw [h]
  cases d <;> rfl

theorem SameButStream.outputAddr {s t : State} (h : SameButStream s t) (f c : Nat) :
    outputAddr t f c = Machine.outputAddr s f c := by
  unfold SameButStream at h
  rw [h]
  rfl

theorem SameButStream.inputAddr {s t : State} (h : SameButStream s t) (f c : Nat) :
    inputAddr t f c = Machine.inputAddr s f c := by
  unfold SameButStream at h
  rw [h]
  rfl

theorem SameButStream.sampleBytes {s t : State} (h : SameButStream s t) :
    t.sampleBytes = s.sampleBytes := by
  unfold SameButStream at h
  rw [h]
  rfl

end Sys2Proof.Machine
end

