-- ==== Sys2Proof/Laws/Process.lean ====
section
/-! SUPPORT. The two processing loops: one induction over their steps, where they stop, and that the
steps they are given are enough. -/

namespace Sys2Proof.Machine

/-! ### Where a loop stops -/

/-- Why a push loop stopped: no input left where an input step is due, or no room where an output step
is due (R205). -/
def PushStopped (q : Request) (p : Progress) (t : State) : Prop :=
  ((Config.one : Int) ≤ t.time .push ∧ p.i = q.frames)
    ∨ (t.time .push < (Config.one : Int) ∧ q.circular = true ∧ (p.w + 1) % q.ioLen = p.r)

/-- Why a pull loop stopped: every output made, or no input where an input step is due (R211). -/
def PullStopped (q : Request) (p : Progress) (t : State) : Prop :=
  q.frames ≤ p.j
    ∨ (p.j < q.frames ∧ (Config.one : Int) ≤ t.time .pull ∧ q.circular = true ∧ p.r = p.w)

/-! ### The steps of a loop -/

/-- A property that every step of a push loop keeps (R205). -/
structure PushKeeps (q : Request) (P : Progress → State → Prop) : Prop where
  input : ∀ p s, P p s → (Config.one : Int) ≤ s.time .push → p.i ≠ q.frames →
    P { p with i := p.i + 1 } (trkConsume .push p.i s)
  outputCircular : ∀ p s, P p s → s.time .push < (Config.one : Int) → q.circular = true →
    (p.w + 1) % q.ioLen ≠ p.r →
    P { p with j := p.j + 1, w := (p.w + 1) % q.ioLen } (trkEmit .push p.w s)
  outputLinear : ∀ p s, P p s → s.time .push < (Config.one : Int) → q.circular = false →
    P { p with j := p.j + 1 } (trkEmit .push p.j s)

/-- A property that every step of a pull loop keeps (R211). -/
structure PullKeeps (q : Request) (P : Progress → State → Prop) : Prop where
  inputCircular : ∀ p s, P p s → p.j < q.frames → (Config.one : Int) ≤ s.time .pull →
    q.circular = true → p.r ≠ p.w →
    P { p with i := p.i + 1, r := (p.r + 1) % q.ioLen } (trkConsume .pull p.r s)
  inputLinear : ∀ p s, P p s → p.j < q.frames → (Config.one : Int) ≤ s.time .pull →
    q.circular = false → P { p with i := p.i + 1 } (trkConsume .pull p.i s)
  output : ∀ p s, P p s → p.j < q.frames → s.time .pull < (Config.one : Int) →
    P { p with j := p.j + 1 } (trkEmit .pull p.j s)

/-- What every step of a push loop keeps holds where the loop stops. -/
theorem pushLoop_keeps {q : Request} {P : Progress → State → Prop} (hP : PushKeeps q P) {n : Nat}
    {p p' : Progress} {s t : State} (h0 : P p s) (h : pushLoop q n p s = some (p', t)) :
    P p' t ∧ PushStopped q p' t := by
  induction n generalizing p s with
  | zero => simp [pushLoop] at h
  | succ n ih =>
    rw [pushLoop] at h
    unfold trkDecide at h
    by_cases ht : (Config.one : Int) ≤ s.time .push
    · simp only [ht, if_true] at h
      by_cases hi : p.i = q.frames
      · simp only [hi, if_true, Option.some.injEq, Prod.mk.injEq] at h
        obtain ⟨rfl, rfl⟩ := h
        exact ⟨h0, .inl ⟨ht, hi⟩⟩
      · simp only [hi, if_false] at h
        exact ih (hP.input p s h0 ht hi) h
    · simp only [ht, if_false] at h
      by_cases hc : q.circular = true
      · simp only [hc, if_true] at h
        by_cases hw : (p.w + 1) % q.ioLen = p.r
        · simp only [hw, if_true, Option.some.injEq, Prod.mk.injEq] at h
          obtain ⟨rfl, rfl⟩ := h
          exact ⟨h0, .inr ⟨by omega, hc, hw⟩⟩
        · simp only [hw, if_false] at h
          exact ih (hP.outputCircular p s h0 (by omega) hc hw) h
      · simp only [hc] at h
        exact ih (hP.outputLinear p s h0 (by omega) (by simpa using hc)) h

/-- What every step of a pull loop keeps holds where the loop stops. -/
theorem pullLoop_keeps {q : Request} {P : Progress → State → Prop} (hP : PullKeeps q P) {n : Nat}
    {p p' : Progress} {s t : State} (h0 : P p s) (h : pullLoop q n p s = some (p', t)) :
    P p' t ∧ PullStopped q p' t := by
  induction n generalizing p s with
  | zero => simp [pullLoop] at h
  | succ n ih =>
    rw [pullLoop] at h
    unfold trkDecide at h
    by_cases hj : p.j < q.frames
    · simp only [hj, if_true] at h
      by_cases ht : (Config.one : Int) ≤ s.time .pull
      · simp only [ht, if_true] at h
        by_cases hc : q.circular = true
        · simp only [hc, if_true] at h
          by_cases hw : p.r = p.w
          · simp only [hw, if_true, Option.some.injEq, Prod.mk.injEq] at h
            obtain ⟨rfl, rfl⟩ := h
            exact ⟨h0, .inr ⟨hj, ht, hc, hw⟩⟩
          · simp only [hw, if_false] at h
            exact ih (hP.inputCircular p s h0 hj ht hc hw) h
        · simp only [hc] at h
          exact ih (hP.inputLinear p s h0 hj ht (by simpa using hc)) h
      · simp only [ht, if_false] at h
        exact ih (hP.output p s h0 hj (by omega)) h
    · simp only [hj, if_false, Option.some.injEq, Prod.mk.injEq] at h
      obtain ⟨rfl, rfl⟩ := h
      exact ⟨h0, .inl (by omega)⟩

/-- A push loop ends when a measure falls at every step and is below the steps given. -/
theorem pushLoop_ends {q : Request} {P : Progress → State → Prop} {μ : Progress → State → Nat}
    (hP : PushKeeps q P)
    (hin : ∀ p s, P p s → (Config.one : Int) ≤ s.time .push → p.i ≠ q.frames →
      μ { p with i := p.i + 1 } (trkConsume .push p.i s) < μ p s)
    (hcirc : ∀ p s, P p s → s.time .push < (Config.one : Int) → q.circular = true →
      (p.w + 1) % q.ioLen ≠ p.r →
      μ { p with j := p.j + 1, w := (p.w + 1) % q.ioLen } (trkEmit .push p.w s) < μ p s)
    (hlin : ∀ p s, P p s → s.time .push < (Config.one : Int) → q.circular = false →
      μ { p with j := p.j + 1 } (trkEmit .push p.j s) < μ p s)
    {n : Nat} {p : Progress} {s : State} (h0 : P p s) (hn : μ p s < n) :
    ∃ p' t, pushLoop q n p s = some (p', t) := by
  induction n generalizing p s with
  | zero => omega
  | succ n ih =>
    rw [pushLoop]
    unfold trkDecide
    by_cases ht : (Config.one : Int) ≤ s.time .push
    · simp only [ht, if_true]
      by_cases hi : p.i = q.frames
      · simp only [hi, if_true]
        exact ⟨_, _, rfl⟩
      · simp only [hi, if_false]
        exact ih (hP.input p s h0 ht hi) (by have := hin p s h0 ht hi; omega)
    · simp only [ht, if_false]
      by_cases hc : q.circular = true
      · simp only [hc, if_true]
        by_cases hw : (p.w + 1) % q.ioLen = p.r
        · simp only [hw, if_true]
          exact ⟨_, _, rfl⟩
        · simp only [hw, if_false]
          exact ih (hP.outputCircular p s h0 (by omega) hc hw)
            (by have := hcirc p s h0 (by omega) hc hw; omega)
      · simp only [hc]
        have hc' : q.circular = false := by simpa using hc
        exact ih (hP.outputLinear p s h0 (by omega) hc')
          (by have := hlin p s h0 (by omega) hc'; omega)

/-- A pull loop ends when a measure falls at every step and is below the steps given. -/
theorem pullLoop_ends {q : Request} {μ : Progress → State → Nat}
    (hcirc : ∀ p s, p.j < q.frames → (Config.one : Int) ≤ s.time .pull →
      μ { p with i := p.i + 1, r := (p.r + 1) % q.ioLen } (trkConsume .pull p.r s) < μ p s)
    (hlin : ∀ p s, p.j < q.frames → (Config.one : Int) ≤ s.time .pull →
      μ { p with i := p.i + 1 } (trkConsume .pull p.i s) < μ p s)
    (hout : ∀ p s, p.j < q.frames → s.time .pull < (Config.one : Int) →
      μ { p with j := p.j + 1 } (trkEmit .pull p.j s) < μ p s)
    {n : Nat} {p : Progress} {s : State} (hn : μ p s < n) :
    ∃ p' t, pullLoop q n p s = some (p', t) := by
  induction n generalizing p s with
  | zero => omega
  | succ n ih =>
    rw [pullLoop]
    unfold trkDecide
    by_cases hj : p.j < q.frames
    · simp only [hj, if_true]
      by_cases ht : (Config.one : Int) ≤ s.time .pull
      · simp only [ht, if_true]
        by_cases hc : q.circular = true
        · simp only [hc, if_true]
          by_cases hw : p.r = p.w
          · simp only [hw, if_true]
            exact ⟨_, _, rfl⟩
          · simp only [hw, if_false]
            exact ih (by have := hcirc p s hj ht; omega)
        · simp only [hc]
          exact ih (by have := hlin p s hj ht; omega)
      · simp only [ht, if_false]
        exact ih (by have := hout p s hj (by omega); omega)
    · simp only [hj, if_false]
      exact ⟨_, _, rfl⟩

/-! ### What a loop leaves alone -/

theorem pushKeeps_stream (q : Request) (s0 : State) :
    PushKeeps q (fun _ s => SameButStream s0 s) where
  input _ _ h _ _ := h.trans (trkConsume_stream _ _ _)
  outputCircular _ _ h _ _ _ := h.trans (trkEmit_stream _ _ _)
  outputLinear _ _ h _ _ := h.trans (trkEmit_stream _ _ _)

theorem pullKeeps_stream (q : Request) (s0 : State) :
    PullKeeps q (fun _ s => SameButStream s0 s) where
  inputCircular _ _ h _ _ _ _ := h.trans (trkConsume_stream _ _ _)
  inputLinear _ _ h _ _ _ := h.trans (trkConsume_stream _ _ _)
  output _ _ h _ _ := h.trans (trkEmit_stream _ _ _)

/-- A push loop changes only the stream (R205). -/
theorem pushRun_stream {s t : State} {p : Progress} (h : pushRun s = some (p, t)) :
    SameButStream s t :=
  (pushLoop_keeps (pushKeeps_stream _ s) (SameButStream.refl s) h).1

/-- A pull loop changes only the stream (R211). -/
theorem pullRun_stream {s t : State} {p : Progress} (h : pullRun s = some (p, t)) :
    SameButStream s t :=
  (pullLoop_keeps (pullKeeps_stream _ s) (SameButStream.refl s) h).1

/-! ### Every pull ends, and every push that can -/

/-- The budget of a pull is enough in every state (R218). -/
theorem pullRun_isSome (s : State) : ∃ p t, pullRun s = some (p, t) := by
  refine pullLoop_ends
    (μ := fun p t => ((requestOf .pull s).frames - p.j) * 2 ^ 31 + (t.time .pull).toNat)
    ?_ ?_ ?_ ?_
  · intro p t _ ht
    simp only [trkConsume_time_of_due _ ht]
    unfold Config.one at *
    omega
  · intro p t _ ht
    simp only [trkConsume_time_of_due _ ht]
    unfold Config.one at *
    omega
  · intro p t hj ht
    simp only
    have := time_mem .pull (trkEmit .pull p.j t)
    have := time_mem .pull t
    generalize (requestOf .pull s).frames = F at *
    obtain ⟨k, hk⟩ : ∃ k, F - p.j = k + 1 := ⟨F - p.j - 1, by omega⟩
    rw [hk, show F - (p.j + 1) = k by omega, Nat.add_mul]
    omega
  · simp only [startProgress, pullBudget]
    omega

/-- How many frames the output may still take, in the one-slot-free convention (R207). -/
def roomOf (q : Request) (p : Progress) : Nat := modIndex ((p.r : Int) - p.w - 1) q.ioLen

/-- Room falls by one with every frame written. -/
theorem roomOf_next {q : Request} {p : Progress} (hw : p.w < q.ioLen) (hr : p.r < q.ioLen)
    (h : (p.w + 1) % q.ioLen ≠ p.r) :
    roomOf q p = roomOf q { p with j := p.j + 1, w := (p.w + 1) % q.ioLen } + 1 := by
  unfold roomOf modIndex
  simp only
  rcases Nat.lt_or_ge (p.w + 1) q.ioLen with h1 | h1
  · rw [Nat.mod_eq_of_lt h1] at h ⊢
    rcases Nat.lt_or_ge p.w p.r with h2 | h2
    · rw [Int.emod_eq_of_lt (by omega) (by omega), Int.emod_eq_of_lt (by omega) (by omega)]
      omega
    · rw [← Int.add_emod_right ((p.r : Int) - p.w - 1),
        ← Int.add_emod_right ((p.r : Int) - ((p.w + 1 : Nat) : Int) - 1),
        Int.emod_eq_of_lt (by omega) (by omega), Int.emod_eq_of_lt (by omega) (by omega)]
      omega
  · have e : p.w + 1 = q.ioLen := by omega
    rw [e, Nat.mod_self] at h ⊢
    rw [← Int.add_emod_right ((p.r : Int) - p.w - 1), Int.emod_eq_of_lt (by omega) (by omega),
      Int.emod_eq_of_lt (by omega) (by omega)]
    omega

theorem roomOf_eq_zero {q : Request} {p : Progress} (hw : p.w < q.ioLen) (hr : p.r < q.ioLen) :
    roomOf q p = 0 ↔ (p.w + 1) % q.ioLen = p.r := by
  constructor
  · intro h0
    by_contra h
    have := roomOf_next hw hr h
    omega
  · intro h
    unfold roomOf modIndex
    rcases Nat.lt_or_ge (p.w + 1) q.ioLen with h1 | h1
    · rw [Nat.mod_eq_of_lt h1] at h
      rw [show (p.r : Int) - p.w - 1 = 0 by omega]
      simp
    · have e : p.w + 1 = q.ioLen := by omega
      rw [e, Nat.mod_self] at h
      rw [show (p.r : Int) - p.w - 1 = -(q.ioLen : Int) by omega]
      simp

theorem roomOf_lt {q : Request} {p : Progress} (h : 0 < q.ioLen) : roomOf q p < q.ioLen :=
  modIndex_lt _ h

/-- The index operands, once checked, are below `io_len` (R203 check 7). -/
theorem indicesValid_bounds {s : State} (h : indicesValid s = true) :
    1 < (s.ioLen).toNat ∧ s.writeIndex.toNat < s.ioLen.toNat ∧ s.readIndex.toNat < s.ioLen.toNat
      ∧ s.ioLen.toNat < 2 ^ 31 := by
  have := word_toInt_mem (s.arg 4)
  unfold indicesValid at h
  simp only [Bool.and_eq_true, decide_eq_true_eq] at h
  unfold State.ioLen State.argInt at *
  omega

/-- The budget of a push is enough, to a linear buffer when the ratio is positive and to a circular one
with valid indices always (R218). -/
theorem pushRun_isSome {s : State} (hlin : s.bufferMode = .linear → 0 < s.fsRatio.toInt)
    (hcirc : s.bufferMode = .circular → indicesValid s = true) :
    ∃ p t, pushRun s = some (p, t) := by
  have hm := time_mem .push s
  cases hb : s.bufferMode with
  | linear =>
    have hr := hlin hb
    have hq : (requestOf .push s).circular = false := by simp [requestOf, hb]
    refine pushLoop_ends
      (P := fun p t => p.i ≤ (requestOf .push s).frames ∧ SameButStream s t)
      (μ := fun p t => ((requestOf .push s).frames - p.i) * (Config.one + 1)
        + (Config.one - t.time .push).toNat) ?_ ?_ ?_ ?_ ?_ ?_
    · exact
        { input := fun p t h _ hi => ⟨by simp only; omega, h.2.trans (trkConsume_stream _ _ _)⟩
          outputCircular := fun p t h _ hc _ => by simp [hq] at hc
          outputLinear := fun p t h _ _ => ⟨h.1, h.2.trans (trkEmit_stream _ _ _)⟩ }
    · intro p t h ht hi
      have := time_mem .push t
      simp only [trkConsume_time_of_due _ ht]
      generalize (requestOf .push s).frames = F at *
      obtain ⟨k, hk⟩ : ∃ k, F - p.i = k + 1 := ⟨F - p.i - 1, by omega⟩
      rw [hk, show F - (p.i + 1) = k by omega, Nat.add_mul]
      unfold Config.one at *
      omega
    · intro p t h _ hc
      simp [hq] at hc
    · intro p t h ht _
      have hinc := h.2.increment .push
      have := time_mem .push t
      simp only [trkEmit_time, hinc]
      have hr' : 0 < s.increment .push := hr
      rcases sat32_cases (t.time .push + s.increment .push) with ⟨_, e⟩ | ⟨_, e⟩ | ⟨_, _, e⟩ <;>
        rw [e] <;> unfold Config.one at * <;> omega
    · exact ⟨Nat.zero_le _, SameButStream.refl s⟩
    · simp only [startProgress, pushBudget, Nat.sub_zero]
      omega
  | circular =>
    have hv := indicesValid_bounds (hcirc hb)
    refine pushLoop_ends
      (P := fun p _ => p.i ≤ (requestOf .push s).frames ∧ p.w < (requestOf .push s).ioLen
        ∧ p.r < (requestOf .push s).ioLen)
      (μ := fun p _ => ((requestOf .push s).frames - p.i) + roomOf (requestOf .push s) p)
      ?_ ?_ ?_ ?_ ?_ ?_
    · exact
        { input := fun p t h _ hi => ⟨by simp only; omega, h.2⟩
          outputCircular := fun p t h _ _ _ => ⟨h.1, Nat.mod_lt _ (by omega), h.2.2⟩
          outputLinear := fun p t h _ _ => h }
    · intro p t h _ hi
      simp only [roomOf]
      omega
    · intro p t h _ _ hw
      have := roomOf_next h.2.1 h.2.2 hw
      simp only at this ⊢
      omega
    · intro p t h _ hc
      simp [requestOf, hb] at hc
    · simp only [startProgress, requestOf]
      exact ⟨Nat.zero_le _, hv.2.1, hv.2.2.1⟩
    · have := roomOf_lt (q := requestOf .push s) (p := startProgress s)
        (by simp only [requestOf]; omega)
      simp only [requestOf] at this ⊢
      simp only [pushBudget, startProgress]
      have e : (frameCount .push s).toNat ≤ (frameCount .push s).toNat * (Config.one + 1) :=
        Nat.le_mul_of_pos_right _ (by omega)
      simp only [startProgress] at this
      omega

/-! ### What a processing command can answer -/

/-- The pointers of both sides, checked (R65, R203 check 5). -/
theorem pointersAligned_iff (s : State) : pointersAligned s = true ↔
    SideAligned s.iptr s.inputFormat s.numChannels.toNat s.sampleBytes
      ∧ SideAligned s.optr s.outputFormat s.numChannels.toNat s.sampleBytes := by
  unfold pointersAligned
  rw [List.all_append, Bool.and_eq_true, usedPointers_all, usedPointers_all]
  rfl

theorem indicesValid_iff (s : State) : indicesValid s = true ↔
    1 < s.argInt 4 ∧ 0 ≤ s.argInt 2 ∧ s.argInt 2 < s.argInt 4
      ∧ 0 ≤ s.argInt 3 ∧ s.argInt 3 < s.argInt 4 := by
  unfold indicesValid State.ioLen State.writeIndex State.readIndex
  simp [and_assoc]

/-- The seven checks pass exactly when the command is allowed (R203). -/
theorem processCheck_ok_iff (w : Nat) (d : OperationMode) (s : State) :
    processCheck w d s = .ok ↔ ProcessingAllowed w d s := by
  have hf : failCode d ≠ .ok := by cases d <;> simp [failCode]
  constructor
  · intro h
    rcases processCheck_cases w d s with
      ⟨_, e⟩ | ⟨_, _, e⟩ | ⟨h1, h2, ⟨_, e⟩ | ⟨h3, ⟨_, e⟩ | ⟨h4, ⟨_, e⟩ | ⟨h5, ⟨_, e⟩ | ⟨h6, ⟨_, e⟩ |
        ⟨h7, e⟩⟩⟩⟩⟩⟩ <;> rw [e] at h <;>
      try first | exact absurd h hf | cases h
    have h8 := (pointersAligned_iff s).1 h5
    unfold State.sampleBytes at h8
    rw [h2] at h8
    exact ⟨h1, h2, h3, h4, h8.1, h8.2, h6, fun hb => (indicesValid_iff s).1 (h7 hb)⟩
  · intro h
    have h5 : pointersAligned s = true := by
      rw [pointersAligned_iff]
      unfold State.sampleBytes
      rw [h.width]
      exact ⟨h.input, h.output⟩
    have h7 : s.bufferMode = .circular → indicesValid s = true :=
      fun hb => (indicesValid_iff s).2 (h.indices hb)
    unfold processCheck
    rw [if_neg (by simp [h.ready]), if_neg (by simp [h.width]), if_neg (by simp [h.direction]),
      if_neg (by rintro ⟨h1, h2⟩; simp [h.updated h1] at h2), if_neg (by simp [h5]),
      if_neg (by have := h.frames; omega),
      if_neg (by rintro ⟨h1, h2⟩; simp [h7 h1] at h2)]

/-- What a push can answer (R203, R205). -/
theorem execPush_cases (w : Nat) (s : State) :
    (ProcessingAllowed w .push s ∧ ∃ p t, pushRun s = some (p, t)
      ∧ execPush w s = .next (finishProcessing (pushResults p t)))
    ∨ (ProcessingAllowed w .push s ∧ pushRun s = none ∧ execPush w s = .fault .loopNeverEnds)
    ∨ (processCheck w .push s ≠ .ok
      ∧ execPush w s = .next (returnCode (processCheck w .push s) s)) := by
  by_cases h : processCheck w .push s = .ok
  · have ha := (processCheck_ok_iff w .push s).1 h
    unfold execPush
    rw [h]
    generalize pushRun s = r
    cases r with
    | none => exact .inr (.inl ⟨ha, rfl, rfl⟩)
    | some x => exact .inl ⟨ha, x.1, x.2, rfl, rfl⟩
  · refine .inr (.inr ⟨h, ?_⟩)
    unfold execPush
    generalize processCheck w .push s = ec at *
    cases ec <;> first | exact absurd rfl h | rfl

/-- What a pull can answer (R203, R211). -/
theorem execPull_cases (w : Nat) (s : State) :
    (ProcessingAllowed w .pull s ∧ ∃ p t, pullRun s = some (p, t)
      ∧ execPull w s = .next (finishProcessing (pullResults p t)))
    ∨ (processCheck w .pull s ≠ .ok
      ∧ execPull w s = .next (returnCode (processCheck w .pull s) s)) := by
  by_cases h : processCheck w .pull s = .ok
  · have ha := (processCheck_ok_iff w .pull s).1 h
    obtain ⟨p, t, hr⟩ := pullRun_isSome s
    unfold execPull
    rw [h]
    generalize pullRun s = r at *
    subst hr
    exact .inl ⟨ha, p, t, rfl, rfl⟩
  · refine .inr ⟨h, ?_⟩
    unfold execPull
    generalize processCheck w .pull s = ec at *
    cases ec <;> first | exact absurd rfl h | rfl

/-! ### The results of a processing command -/

/-- What the exit of a push writes: its results, `ERR`, the flag, and no impulse response (R25, R51). -/
theorem pushDone_eq (p : Progress) (s : State) :
    finishProcessing (pushResults p s) =
      { s with
        a := (pushResults p s).a, err := .ok, ir := []
        fsUpdated := if s.controlMode = .fixed then false else s.fsUpdated } := by
  unfold finishProcessing pushResults consumeFsUpdated
  cases h : s.bufferMode <;> cases h' : s.controlMode <;>
    simp [returnCode, forgetTaps, State.setArg, h, h']

/-- The argument registers after a push (R22). -/
theorem pushDone_arg (p : Progress) (s : State) (i : Fin 16) :
    (finishProcessing (pushResults p s)).arg i =
      if i = 0 then BitVec.ofNat 32 p.i
      else if i = 1 then BitVec.ofNat 32 p.j
      else if i = 2 ∧ s.bufferMode = .circular then BitVec.ofNat 32 p.w
      else s.arg i := by
  rw [pushDone_eq]
  show (pushResults p s).arg i = _
  unfold pushResults
  cases s.bufferMode <;> simp only [arg_setArg, and_true, and_false, if_false, reduceCtorEq] <;>
    by_cases h0 : i = 0 <;> by_cases h1 : i = 1 <;> by_cases h2 : i = 2 <;> simp_all

/-- What the exit of a pull writes: the same, and it may have taken a free value (R216). -/
theorem pullDone_eq (p : Progress) (s : State) :
    finishProcessing (pullResults p s) =
      { s with
        a := (pullResults p s).a, err := .ok, ir := []
        freeCount := (pullResults p s).freeCount
        fsUpdated := if s.controlMode = .fixed then false else s.fsUpdated } := by
  unfold finishProcessing pullResults consumeFsUpdated
  cases h : s.bufferMode <;> cases h' : s.controlMode <;>
    simp [returnCode, forgetTaps, State.setArg, h, h']

/-- The argument registers after a pull, `A[3]` free in linear mode (R22, R216). -/
theorem pullDone_arg (p : Progress) (s : State) (i : Fin 16) :
    (finishProcessing (pullResults p s)).arg i =
      if i = 0 then BitVec.ofNat 32 p.i
      else if i = 1 then BitVec.ofNat 32 p.j
      else if i = 3 then
        (if s.bufferMode = .circular then BitVec.ofNat 32 p.r
         else Config.freeReadIndex s.freeCount)
      else s.arg i := by
  rw [pullDone_eq]
  show (pullResults p s).arg i = _
  unfold pullResults
  cases s.bufferMode
  · show ((_ : State).setArg 3 _).arg i = _
    simp only [arg_setArg]
    by_cases h0 : i = 0 <;> by_cases h1 : i = 1 <;> by_cases h3 : i = 3 <;> simp_all
  · simp only [arg_setArg]
    by_cases h0 : i = 0 <;> by_cases h1 : i = 1 <;> by_cases h3 : i = 3 <;> simp_all

end Sys2Proof.Machine
end

