-- ==== Sys2Proof/Laws/Stream.lean ====
section
/-! SUPPORT. The ring under a frame write: every cell, the window of a channel, and the shape the ring
keeps. -/

namespace Sys2Proof.Machine

/-! ### Cells -/

/-- A used cell of a ring with one row per channel has a value (R70). -/
theorem ringShaped_row {s : State} (h : RingShaped s) {c : Nat} (hc : c < s.numChannels.toNat) :
    ∃ row, s.ring[c]? = some row ∧ row.length = s.bufferLength.toNat := by
  have hl : c < s.ring.length := h.1 ▸ hc
  exact ⟨s.ring[c], List.getElem?_eq_getElem hl, h.2 _ (List.getElem_mem hl)⟩

/-- A loaded sample is inside the sample type (R61, R68). -/
theorem inLoad_mem (s : State) (f c : Nat) : InInt s.bitDepth.toNat (inLoad s f c) := sext_mem _ _

/-- A sample fits the 32-bit cell of the ring (R70, R121). -/
theorem toWord_toInt_of_mem {w : Nat} (hw : w = 16 ∨ w = 32) {v : Int} (h : InInt w v) :
    (toWord v).toInt = v := by
  unfold InInt at h
  refine toInt_toWord ?_ ?_ <;> rcases hw with rfl | rfl <;> norm_num at h ⊢ <;> omega

theorem bitDepth_cases {s : State} (h : s.bitDepth = 16 ∨ s.bitDepth = 32) :
    s.bitDepth.toNat = 16 ∨ s.bitDepth.toNat = 32 := by
  rcases h with h | h <;> simp [h]

/-- An output sample is inside the sample type (R154, R159). -/
theorem fir_mem {s : State} (h : s.bitDepth = 16 ∨ s.bitDepth = 32) (c : Nat) :
    InInt s.bitDepth.toNat (fir s c) := by
  unfold fir
  split
  · rename_i e
    rw [e]
    exact sat_mem 16 _
  · rename_i e
    rw [h.resolve_left e]
    exact sat_mem 32 _

/-- A sample stored in its bytes and loaded again is the sample (R68, R69). -/
theorem sext_wrap_sample {w : Nat} (hw : w = 16 ∨ w = 32) {y : Int} (hy : InInt w y) :
    sext w (wrap w y % 256 ^ (w / 8)) = y := by
  have e : wrap w y % 256 ^ (w / 8) = wrap w y := by
    apply Nat.mod_eq_of_lt
    have := wrap_lt w y
    rcases hw with rfl | rfl <;> norm_num at this ⊢ <;> exact this
  rw [e, sext_wrap (by omega) hy.1 hy.2]

/-- Every used cell after a frame write: the one at the cursor holds the loaded sample, the others are
as before (R121, R129). -/
theorem frameWrite_cell {s : State} (f : Nat) (h : RingShaped s)
    (hd : s.bitDepth = 16 ∨ s.bitDepth = 32) {c p : Nat} (hc : c < s.numChannels.toNat)
    (hp : p < s.bufferLength.toNat) :
    ringCell (frameWrite f s) c p =
      if p = s.writePosition.toNat then inLoad s f c else ringCell s c p := by
  obtain ⟨row, hrow, hlen⟩ := ringShaped_row h hc
  have hfree : (frameWrite f s).freeCount = s.freeCount := by rw [frameWrite_eq]
  unfold ringCell
  rw [frameWrite_ring, loadChannels_ring, if_pos (List.mem_range.2 hc), hrow, hfree]
  simp only [Option.map_some, Option.bind_some, List.getElem?_set]
  by_cases hpw : p = s.writePosition.toNat
  · subst hpw
    simp only [if_true, hlen, hp, Option.getD_some]
    exact toWord_toInt_of_mem (bitDepth_cases hd) (inLoad_mem s f c)
  · rw [if_neg fun e => hpw e.symm, if_neg hpw]

/-- A frame write keeps the shape of the ring (R70, R129). -/
theorem frameWrite_shaped {s : State} (f : Nat) (h : RingShaped s) : RingShaped (frameWrite f s) := by
  have e := frameWrite_eq f s
  have hn : (frameWrite f s).numChannels = s.numChannels := by rw [e]
  have hb : (frameWrite f s).bufferLength = s.bufferLength := by rw [e]
  unfold RingShaped
  rw [hn, hb, frameWrite_ring]
  refine ⟨(loadChannels_ring_length f _ s).trans h.1, fun row hrow => ?_⟩
  obtain ⟨c, hc, rfl⟩ := List.getElem_of_mem hrow
  have hc' : c < s.ring.length := by simpa using hc
  have hget := List.getElem?_eq_getElem hc
  rw [loadChannels_ring] at hget
  have hlen := h.2 _ (List.getElem_mem hc')
  rw [List.getElem?_eq_getElem hc'] at hget
  split at hget <;> simp only [Option.map_some, Option.some.injEq] at hget <;> rw [← hget]
  · simpa using hlen
  · exact hlen

/-! ### The cursor and the window -/

/-- The cursor after a frame write (R122, R129). -/
theorem frameWrite_cursor (f : Nat) {s : State} (hw : s.writePosition.toNat < s.bufferLength.toNat) :
    (frameWrite f s).writePosition.toNat = (s.writePosition.toNat + 1) % s.bufferLength.toNat := by
  rw [frameWrite_writePosition, toNat_ofNat_of_lt]
  exact lt_trans (Nat.mod_lt _ (by omega)) s.bufferLength.isLt

/-- The position `off` behind the cursor, inside one turn of the ring (R123). -/
theorem indexBehind_eq {s : State} {off : Nat} (hw : s.writePosition.toNat < s.bufferLength.toNat)
    (ho : off ≤ s.bufferLength.toNat) :
    indexBehind s off =
      if off ≤ s.writePosition.toNat then s.writePosition.toNat - off
      else s.writePosition.toNat + s.bufferLength.toNat - off := by
  unfold indexBehind modIndex
  split
  · rw [Int.emod_eq_of_lt (by omega) (by omega)]
    omega
  · rw [← Int.add_emod_right, Int.emod_eq_of_lt (by omega) (by omega)]
    omega

theorem indexBehind_lt {s : State} (off : Nat) (hb : 0 < s.bufferLength.toNat) :
    indexBehind s off < s.bufferLength.toNat := modIndex_lt _ hb

/-- After a frame write the newest sample of a channel is the loaded one (R129, R152). -/
theorem frameWrite_newest {s : State} (f : Nat) (h : RingShaped s)
    (hd : s.bitDepth = 16 ∨ s.bitDepth = 32)
    (hw : s.writePosition.toNat < s.bufferLength.toNat) {c : Nat} (hc : c < s.numChannels.toNat) :
    ringCell (frameWrite f s) c (indexBehind (frameWrite f s) 1) = inLoad s f c := by
  have hb : (frameWrite f s).bufferLength = s.bufferLength := by rw [frameWrite_eq]
  have hcur := frameWrite_cursor f hw
  have hlt := Nat.mod_lt (s.writePosition.toNat + 1) (show 0 < s.bufferLength.toNat by omega)
  rw [frameWrite_cell f h hd hc (by rw [← hb]; exact indexBehind_lt _ (by rw [hb]; omega)), if_pos]
  rw [indexBehind_eq (by rw [hcur, hb]; exact hlt) (by rw [hb]; omega), hcur, hb]
  rcases Nat.lt_or_ge (s.writePosition.toNat + 1) s.bufferLength.toNat with h1 | h1
  · rw [Nat.mod_eq_of_lt h1]
    split <;> omega
  · have e : s.writePosition.toNat + 1 = s.bufferLength.toNat := by omega
    rw [e, Nat.mod_self]
    split <;> omega

/-- After a frame write what was `k` behind the cursor is `k + 1` behind it (R129, R152). -/
theorem frameWrite_older {s : State} (f : Nat) (h : RingShaped s)
    (hd : s.bitDepth = 16 ∨ s.bitDepth = 32)
    (hw : s.writePosition.toNat < s.bufferLength.toNat) {c : Nat} (hc : c < s.numChannels.toNat)
    {k : Nat} (h1 : 1 ≤ k) (hk : k < s.bufferLength.toNat) :
    ringCell (frameWrite f s) c (indexBehind (frameWrite f s) (k + 1))
      = ringCell s c (indexBehind s k) := by
  have hb : (frameWrite f s).bufferLength = s.bufferLength := by rw [frameWrite_eq]
  have hcur := frameWrite_cursor f hw
  have hlt := Nat.mod_lt (s.writePosition.toNat + 1) (show 0 < s.bufferLength.toNat by omega)
  have e : indexBehind (frameWrite f s) (k + 1) = indexBehind s k := by
    rw [indexBehind_eq (by rw [hcur, hb]; exact hlt) (by rw [hb]; omega), hcur, hb,
      indexBehind_eq hw (by omega)]
    rcases Nat.lt_or_ge (s.writePosition.toNat + 1) s.bufferLength.toNat with h2 | h2
    · rw [Nat.mod_eq_of_lt h2]
      split <;> split <;> omega
    · have e : s.writePosition.toNat + 1 = s.bufferLength.toNat := by omega
      rw [e, Nat.mod_self]
      split <;> split <;> omega
  rw [e, frameWrite_cell f h hd hc (indexBehind_lt _ (by omega)), if_neg]
  rw [indexBehind_eq hw (by omega)]
  split <;> omega

/-! ### The impulse response -/

/-- Every Horner step answers an `int32` (R137). -/
theorem hstep_mem (acc tw g : Int) : -(2 ^ 31) ≤ hstep acc tw g ∧ hstep acc tw g < 2 ^ 31 :=
  sat32_mem _

theorem coefCell_mem (s : State) (j m : Nat) :
    -(2 ^ 31) ≤ coefCell s j m ∧ coefCell s j m < 2 ^ 31 := word_toInt_mem _

/-- A tap of any of the four evaluators is an `int32` (R142). -/
theorem irgenTap_mem {s : State} (h1 : 4 ≤ s.numFilters.toNat) (h2 : s.numFilters.toNat ≤ 7)
    (t : Int) (m : Nat) : -(2 ^ 31) ≤ irgenTap s t m ∧ irgenTap s t m < 2 ^ 31 := by
  unfold irgenTap
  have h : s.numFilters.toNat = 4 ∨ s.numFilters.toNat = 5 ∨ s.numFilters.toNat = 6
      ∨ s.numFilters.toNat = 7 := by omega
  rcases h with h | h | h | h <;> rw [h] <;> exact hstep_mem _ _ _

/-- What `IRGEN` leaves in `IR[m]` (R142). -/
theorem irCell_irgen {s : State} (h1 : 4 ≤ s.numFilters.toNat) (h2 : s.numFilters.toNat ≤ 7)
    (t : Int) {m : Nat} (hm : m < s.filterLength.toNat) : irCell (irgen t s) m = irgenTap s t m := by
  unfold irCell irgen
  simp only [List.getElem?_map, List.getElem?_range hm, Option.map_some, Option.getD_some]
  exact toInt_toWord (irgenTap_mem h1 h2 t m).1 (irgenTap_mem h1 h2 t m).2

/-! ### Parameters -/

/-- What the constraints of R5 and R6 say of the parameters. -/
theorem params_bounds {p : Params} (h : p.wf = true) :
    1 ≤ p.maxChannels ∧ p.maxChannels ≤ 16 ∧ 2 ^ 24 ≤ p.ratioMin ∧ p.ratioMin ≤ p.ratioMax
      ∧ p.ratioMax ≤ 2 ^ 30 ∧ ∀ row ∈ p.filterRom, row.entry.wf = true := by
  unfold Params.wf at h
  simp only [Bool.and_eq_true, decide_eq_true_eq, List.all_eq_true] at h
  obtain ⟨⟨⟨⟨⟨⟨⟨a, b⟩, _⟩, _⟩, e⟩, f⟩, g⟩, i⟩ := h
  exact ⟨a, b, e, f, g, i⟩

/-- An entry that is looked up is inside its type (R6). -/
theorem filterLookup_wf {p : Params} {a b : Int} {e : FilterEntry} (hp : p.wf = true)
    (h : filterLookup p a b = some e) : e.wf = true := by
  unfold filterLookup at h
  rw [Option.map_eq_some_iff] at h
  obtain ⟨row, hr, rfl⟩ := h
  exact (params_bounds hp).2.2.2.2.2 row (List.mem_of_find?_eq_some hr)

end Sys2Proof.Machine
end

