-- ==== Sys2Proof/Laws/Counts.lean ====
section
/-! SUPPORT. How far a processing loop has got: the frames on both sides, the time, the cursor, the
caller's indices and the bytes stored. -/

namespace Sys2Proof.Machine

/-- How far a loop of direction `d` that began in `s` has got, in both directions (R174, R178). -/
structure Counted (d : OperationMode) (s : State) (p : Progress) (t : State) : Prop where
  stream : SameButStream s t
  other  : ∀ e, e ≠ d → t.time e = s.time e
  time   : t.time d = s.time d + p.j * s.increment d - p.i * Config.one
  lastOut : 0 < p.j → s.time d + (p.j - 1) * s.increment d < (p.i + 1) * Config.one
  lastIn : 0 < p.i → (p.i : Int) * Config.one ≤ s.time d + p.j * s.increment d
  cursor : t.writePosition.toNat = (s.writePosition.toNat + p.i) % s.bufferLength.toNat
  memory : t.dmem.wf = true
  frame  : ∀ a, (∀ j < p.j, ∀ c < s.numChannels.toNat, ∀ b < s.sampleBytes,
              a ≠ outputByte d s j c b) → readByte t.dmem a = readByte s.dmem a

/-- An increment that no output step saturates with (R174, R176). -/
def IncrementOk (d : OperationMode) (s : State) : Prop :=
  0 < s.increment d ∧ s.increment d ≤ 2 ^ 30 + 2 ^ 5

theorem trkConsume_dmem (d : OperationMode) (f : Nat) (s : State) :
    (trkConsume d f s).dmem = s.dmem := by
  rw [trkConsume_eq]

theorem trkConsume_writePosition (d : OperationMode) (f : Nat) (s : State) :
    (trkConsume d f s).writePosition = (frameWrite f s).writePosition := by
  rw [trkConsume_eq]

theorem trkEmit_writePosition (d : OperationMode) (f : Nat) (s : State) :
    (trkEmit d f s).writePosition = s.writePosition := by
  rw [trkEmit_eq]

theorem trkEmit_wf {d : OperationMode} {s : State} (f : Nat) (h : s.dmem.wf = true) :
    (trkEmit d f s).dmem.wf = true := by
  rw [trkEmit_dmem]
  exact foldl_memWrite_wf h _ (fun c => outputAddr s f c) _
    (fun c => wrap s.bitDepth.toNat (fir (irgen (s.time d) s) c))

/-- After an output step that was due, the time is exactly one increment more (R174). -/
theorem trkEmit_time_of_due {d : OperationMode} {s : State} (f : Nat)
    (h : s.time d < (Config.one : Int)) (hinc : IncrementOk d s) :
    (trkEmit d f s).time d = s.time d + s.increment d := by
  have hm := time_mem d s
  obtain ⟨h1, h2⟩ := hinc
  rw [trkEmit_time]
  rcases sat32_cases (s.time d + s.increment d) with ⟨_, _⟩ | ⟨_, _⟩ | ⟨_, _, e⟩
  · omega
  · unfold Config.one at h
    omega
  · exact e

theorem Counted.start {d : OperationMode} {s : State} (hm : s.dmem.wf = true)
    (hw : s.writePosition.toNat < s.bufferLength.toNat) : Counted d s (startProgress s) s where
  stream := SameButStream.refl s
  other _ _ := rfl
  time := by simp [startProgress]
  lastOut := by simp [startProgress]
  lastIn := by simp [startProgress]
  cursor := by simp [startProgress, Nat.mod_eq_of_lt hw]
  memory := hm
  frame _ _ := rfl

/-- An input step that is due counts one input frame. -/
theorem Counted.consume {d : OperationMode} {s t : State} {p p' : Progress} {f : Nat}
    (h : Counted d s p t) (hw : s.writePosition.toNat < s.bufferLength.toNat)
    (hi : p'.i = p.i + 1) (hj : p'.j = p.j) (ht : (Config.one : Int) ≤ t.time d) :
    Counted d s p' (trkConsume d f t) where
  stream := h.stream.trans (trkConsume_stream _ _ _)
  other e he := (trkConsume_time_other he f t).trans (h.other e he)
  time := by
    rw [trkConsume_time_of_due f ht, h.time, hi, hj]
    push_cast
    ring
  lastOut hp := by
    rw [hj] at hp
    have := h.lastOut hp
    rw [hi, hj]
    push_cast
    have : (0 : Int) < Config.one := by decide
    linarith
  lastIn _ := by
    have := h.time
    rw [hi, hj]
    push_cast
    linarith
  cursor := by
    have hb := h.stream.fields.2.2.2.2.2.2.2.1
    have hlt : t.writePosition.toNat < t.bufferLength.toNat := by
      rw [h.cursor, hb]
      exact Nat.mod_lt _ (by omega)
    rw [trkConsume_writePosition, frameWrite_cursor f hlt, h.cursor, hb, hi, ← Nat.add_assoc]
    simp
  memory := by
    rw [trkConsume_dmem]
    exact h.memory
  frame a ha := by
    rw [trkConsume_dmem]
    rw [hj] at ha
    exact h.frame a ha

/-- An output step that is due counts one output frame. -/
theorem Counted.emit {d : OperationMode} {s t : State} {p p' : Progress}
    (h : Counted d s p t) (hinc : IncrementOk d s) (hi : p'.i = p.i) (hj : p'.j = p.j + 1)
    {f : Nat} (hf : f = outputSlot d s p.j) (ht : t.time d < (Config.one : Int)) :
    Counted d s p' (trkEmit d f t) where
  stream := h.stream.trans (trkEmit_stream _ _ _)
  other e he := (trkEmit_time_other he f t).trans (h.other e he)
  time := by
    have e := h.stream.increment d
    rw [trkEmit_time_of_due f ht (by unfold IncrementOk; rw [e]; exact hinc), h.time, e, hi, hj]
    push_cast
    ring
  lastOut _ := by
    have := h.time
    rw [hi, hj]
    push_cast
    linarith
  lastIn hp := by
    rw [hi] at hp
    have := h.lastIn hp
    have := hinc.1
    rw [hi, hj]
    push_cast
    linarith
  cursor := by
    rw [trkEmit_writePosition, hi]
    exact h.cursor
  memory := trkEmit_wf f h.memory
  frame a ha := by
    have hn := h.stream.fields.2.2.2.1
    rw [trkEmit_dmem, readByte_foldl_of_ne h.memory _ (fun c => outputAddr t f c) _
      (fun c => wrap t.bitDepth.toNat (fir (irgen (t.time d) t) c))]
    · exact h.frame a fun j hj' => ha j (by omega)
    · intro c hc k hk
      rw [hn, List.mem_range] at hc
      rw [h.stream.sampleBytes] at hk
      have := ha p.j (by omega) c hc k hk
      rw [h.stream.outputAddr]
      unfold outputByte at this
      rw [← hf] at this
      exact this

/-! ### The counts as least and greatest -/

/-- `outputsDue` is the least count of output steps after which the time passes the last input (R206). -/
theorem outputsDue_eq {n j : Nat} {t r : Int} (hr : 0 < r)
    (h1 : ((n : Int) + 1) * Config.one ≤ t + j * r)
    (h2 : 0 < j → t + ((j : Int) - 1) * r < ((n : Int) + 1) * Config.one) :
    outputsDue n t r = j := by
  unfold outputsDue
  have hle : ((n : Int) * Config.one + Config.one - t + r - 1) / r < j + 1 :=
    Int.ediv_lt_of_lt_mul hr (by linarith)
  rcases Nat.eq_zero_or_pos j with h0 | h0
  · subst h0
    simp only [Int.natCast_zero] at hle
    omega
  · have hge : (j : Int) ≤ ((n : Int) * Config.one + Config.one - t + r - 1) / r :=
      (Int.le_ediv_iff_mul_le hr).2 (by have := h2 h0; linarith)
    omega

theorem outputsDue_gt {n j : Nat} {t r : Int} (hr : 0 < r)
    (h : t + j * r < ((n : Int) + 1) * Config.one) : j < outputsDue n t r := by
  unfold outputsDue
  have hge : (j : Int) + 1 ≤ ((n : Int) * Config.one + Config.one - t + r - 1) / r :=
    (Int.le_ediv_iff_mul_le hr).2 (by linarith)
  omega

/-- `inputsDue` is the count of whole periods of input before the last output (R215). -/
theorem inputsDue_eq {n i : Nat} {t q : Int} (hn : 0 < n)
    (h1 : t + ((n : Int) - 1) * q < ((i : Int) + 1) * Config.one)
    (h2 : 0 < i → (i : Int) * Config.one ≤ t + ((n : Int) - 1) * q) : inputsDue n t q = i := by
  have hone : (0 : Int) < Config.one := by decide
  unfold inputsDue
  rw [if_neg (by omega)]
  have hlt := Int.ediv_lt_of_lt_mul hone h1
  rcases Nat.eq_zero_or_pos i with h0 | h0
  · subst h0
    simp only [Int.natCast_zero] at hlt
    omega
  · have := (Int.le_ediv_iff_mul_le hone).2 (h2 h0)
    omega

theorem inputsDue_gt {n i : Nat} {t q : Int} (hn : 0 < n)
    (h : ((i : Int) + 1) * Config.one ≤ t + ((n : Int) - 1) * q) : i < inputsDue n t q := by
  have hone : (0 : Int) < Config.one := by decide
  unfold inputsDue
  rw [if_neg (by omega)]
  have := (Int.le_ediv_iff_mul_le hone).2 h
  omega

/-! ### Push -/

/-- How far a push loop has got: also the frames and the room used (R205, R207). -/
structure PushCounted (s : State) (p : Progress) (t : State) : Prop extends Counted .push s p t where
  input  : p.i ≤ framesAsked .push s
  reads  : p.r = s.readIndex.toNat
  linear : s.bufferMode = .linear → p.w = s.writeIndex.toNat
  room   : s.bufferMode = .circular →
    roomOf (requestOf .push s) p + p.j = roomFor s
      ∧ p.w = (s.writeIndex.toNat + p.j) % s.ioLen.toNat

theorem requestOf_circular (d : OperationMode) (s : State) :
    (requestOf d s).circular = true ↔ s.bufferMode = .circular := by
  simp [requestOf]

theorem roomOf_start {s : State} (h : indicesValid s = true) :
    roomOf (requestOf .push s) (startProgress s) = roomFor s := by
  have hv := (indicesValid_iff s).1 h
  unfold roomOf roomFor startProgress requestOf
  simp only [State.writeIndex, State.readIndex, State.ioLen]
  congr 1
  omega

theorem PushCounted.start {s : State} (hm : s.dmem.wf = true)
    (hw : s.writePosition.toNat < s.bufferLength.toNat)
    (hv : s.bufferMode = .circular → indicesValid s = true) :
    PushCounted s (startProgress s) s where
  toCounted := Counted.start hm hw
  input := Nat.zero_le _
  reads := rfl
  linear _ := rfl
  room hb := by
    have hi := indicesValid_bounds (hv hb)
    refine ⟨by rw [roomOf_start (hv hb)]; rfl, ?_⟩
    simp only [startProgress, Nat.add_zero]
    exact (Nat.mod_eq_of_lt hi.2.1).symm

theorem pushKeeps_counted {s : State} (hw : s.writePosition.toNat < s.bufferLength.toNat)
    (hinc : IncrementOk .push s) (hv : s.bufferMode = .circular → indicesValid s = true) :
    PushKeeps (requestOf .push s) (PushCounted s) where
  input p t h ht hi :=
    { toCounted := h.toCounted.consume hw rfl rfl ht
      input := by
        have := h.input
        have : (requestOf .push s).frames = framesAsked .push s := rfl
        simp only
        omega
      reads := h.reads
      linear := h.linear
      room := h.room }
  outputCircular p t h ht hc hne := by
    have hb := (requestOf_circular .push s).1 hc
    have hi := indicesValid_bounds (hv hb)
    have hr := h.room hb
    have hwlt : p.w < (requestOf .push s).ioLen := by
      rw [hr.2]
      exact Nat.mod_lt _ (by omega)
    have hrlt : p.r < (requestOf .push s).ioLen := by
      rw [h.reads]
      exact hi.2.2.1
    have hnext := roomOf_next hwlt hrlt hne
    refine
      { toCounted := h.toCounted.emit
          (p' := { p with j := p.j + 1, w := (p.w + 1) % (requestOf .push s).ioLen })
          hinc rfl rfl ?_ ht
        input := h.input
        reads := h.reads
        linear := fun hl => by rw [hl] at hb; cases hb
        room := fun _ => ⟨?_, ?_⟩ }
    · rw [hr.2]
      simp only [outputSlot, hb]
      rfl
    · simp only at hnext ⊢
      omega
    · simp only
      rw [hr.2]
      show _ % (s.ioLen).toNat = _
      rw [← Nat.add_assoc]
      simp
  outputLinear p t h ht hc := by
    have hb : s.bufferMode = .linear := by
      cases hb : s.bufferMode with
      | linear => rfl
      | circular => rw [(requestOf_circular .push s).2 hb] at hc; cases hc
    exact
      { toCounted := h.toCounted.emit (p' := { p with j := p.j + 1 }) hinc rfl rfl
          (by simp [outputSlot, hb]) ht
        input := h.input
        reads := h.reads
        linear := h.linear
        room := fun hl => by rw [hb] at hl; cases hl }

/-- Where a push loop ends: at the counts of R206 and R207. -/
theorem PushCounted.stopped {s t : State} {p : Progress} (h : PushCounted s p t)
    (hinc : IncrementOk .push s) (hs : PushStopped (requestOf .push s) p t)
    (hv : s.bufferMode = .circular → indicesValid s = true) :
    (p.i, p.j) = framesDone .push s := by
  have ht := h.time
  have hin := h.input
  have hpos := hinc.1
  have hfr : (requestOf .push s).frames = framesAsked .push s := rfl
  unfold framesDone
  simp only
  rcases hs with ⟨h1, h2⟩ | ⟨h1, hc, hr⟩
  · rw [hfr] at h2
    have hj : outputsDue (framesAsked .push s) (s.time .push) (s.increment .push) = p.j := by
      rw [← h2]
      exact outputsDue_eq hpos (by linarith) h.lastOut
    rw [if_neg, hj, h2]
    rintro ⟨hb, hlt⟩
    have := (h.room hb).1
    omega
  · have hb := (requestOf_circular .push s).1 hc
    have hi := indicesValid_bounds (hv hb)
    have hrm := h.room hb
    have hwlt : p.w < (requestOf .push s).ioLen := by
      rw [hrm.2]
      exact Nat.mod_lt _ (by omega)
    have hrlt : p.r < (requestOf .push s).ioLen := by
      rw [h.reads]
      exact hi.2.2.1
    have h0 := (roomOf_eq_zero hwlt hrlt).2 hr
    have hj : roomFor s = p.j := by omega
    rw [if_pos, hj, inputsDue_eq (i := p.i) (by omega) (by push_cast; linarith)
      (fun hp => by have := h.lastIn hp; push_cast; linarith)]
    refine ⟨hb, ?_⟩
    rw [hj]
    refine outputsDue_gt hpos ?_
    have : (p.i : Int) * Config.one ≤ (framesAsked .push s : Int) * Config.one :=
      Int.mul_le_mul_of_nonneg_right (by omega) (by decide)
    linarith

/-- Every count on the way is within the counts at the end. -/
theorem PushCounted.within {s t : State} {p : Progress} (h : PushCounted s p t)
    (hinc : IncrementOk .push s) :
    p.i ≤ (framesDone .push s).1 ∧ p.j ≤ (framesDone .push s).2 := by
  have hin := h.input
  have hpos := hinc.1
  have hli := h.lastIn
  have hlo := h.lastOut
  have hone : (0 : Int) < Config.one := by decide
  have hout : p.j ≤ outputsDue (framesAsked .push s) (s.time .push) (s.increment .push) := by
    rcases Nat.eq_zero_or_pos p.j with h0 | h0
    · omega
    · have hg := outputsDue_gt (n := framesAsked .push s) (j := p.j - 1) (t := s.time .push) hpos (by
        have : (p.i : Int) * Config.one ≤ (framesAsked .push s : Int) * Config.one :=
          Int.mul_le_mul_of_nonneg_right (by omega) (by decide)
        have := hlo h0
        rw [Nat.cast_sub h0]
        push_cast
        linarith)
      omega
  unfold framesDone
  simp only
  split
  · rename_i hb
    have hrm := (h.room hb.1).1
    refine ⟨?_, by simp only; omega⟩
    simp only
    rcases Nat.eq_zero_or_pos p.i with h0 | h0
    · omega
    · have hg := inputsDue_gt (n := roomFor s + 1) (i := p.i - 1) (t := s.time .push)
        (q := s.increment .push) (by omega) (by
          have := hli h0
          have : (p.j : Int) * s.increment .push ≤ (roomFor s : Int) * s.increment .push :=
            Int.mul_le_mul_of_nonneg_right (by omega) (by omega)
          rw [Nat.cast_sub h0]
          push_cast
          linarith)
      omega
  · exact ⟨hin, hout⟩

/-! ### Pull -/

/-- How many frames the circular input still holds (R212). -/
def heldOf (q : Request) (p : Progress) : Nat := modIndex ((p.w : Int) - p.r) q.ioLen

theorem heldOf_next {q : Request} {p : Progress} (hw : p.w < q.ioLen) (hr : p.r < q.ioLen)
    (h : p.r ≠ p.w) :
    heldOf q p = heldOf q { p with i := p.i + 1, r := (p.r + 1) % q.ioLen } + 1 := by
  unfold heldOf modIndex
  simp only
  rcases Nat.lt_or_ge (p.r + 1) q.ioLen with h1 | h1
  · rw [Nat.mod_eq_of_lt h1]
    rcases Nat.lt_or_ge p.r p.w with h2 | h2
    · rw [Int.emod_eq_of_lt (by omega) (by omega), Int.emod_eq_of_lt (by omega) (by omega)]
      omega
    · rw [← Int.add_emod_right ((p.w : Int) - p.r),
        ← Int.add_emod_right ((p.w : Int) - ((p.r + 1 : Nat) : Int)),
        Int.emod_eq_of_lt (by omega) (by omega), Int.emod_eq_of_lt (by omega) (by omega)]
      omega
  · have e : p.r + 1 = q.ioLen := by omega
    rw [e, Nat.mod_self]
    rw [← Int.add_emod_right ((p.w : Int) - p.r), Int.emod_eq_of_lt (by omega) (by omega),
      Int.emod_eq_of_lt (by omega) (by omega)]
    omega

theorem heldOf_self {q : Request} {p : Progress} (h : p.r = p.w) : heldOf q p = 0 := by
  simp [heldOf, modIndex, h]

/-- How far a pull loop has got: also the frames and the input used (R211 to R213). -/
structure PullCounted (s : State) (p : Progress) (t : State) : Prop extends Counted .pull s p t where
  output   : p.j ≤ framesAsked .pull s
  inBefore : 0 < p.i → 0 < framesAsked .pull s ∧
    (p.i : Int) * Config.one ≤ s.time .pull + ((framesAsked .pull s : Int) - 1) * s.increment .pull
  writes   : p.w = s.writeIndex.toNat
  linear   : s.bufferMode = .linear → p.r = s.readIndex.toNat
  held     : s.bufferMode = .circular →
    heldOf (requestOf .pull s) p + p.i = framesHeld s
      ∧ p.r = (s.readIndex.toNat + p.i) % s.ioLen.toNat

theorem heldOf_start {s : State} (h : indicesValid s = true) :
    heldOf (requestOf .pull s) (startProgress s) = framesHeld s := by
  have hv := (indicesValid_iff s).1 h
  unfold heldOf framesHeld startProgress requestOf
  simp only [State.writeIndex, State.readIndex, State.ioLen]
  congr 1
  omega

theorem PullCounted.start {s : State} (hm : s.dmem.wf = true)
    (hw : s.writePosition.toNat < s.bufferLength.toNat)
    (hv : s.bufferMode = .circular → indicesValid s = true) :
    PullCounted s (startProgress s) s where
  toCounted := Counted.start hm hw
  output := Nat.zero_le _
  inBefore hp := by simp [startProgress] at hp
  writes := rfl
  linear _ := rfl
  held hb := by
    have hi := indicesValid_bounds (hv hb)
    refine ⟨by rw [heldOf_start (hv hb)]; rfl, ?_⟩
    simp only [startProgress, Nat.add_zero]
    exact (Nat.mod_eq_of_lt hi.2.2.1).symm

/-- An input step of a pull is made only for an output frame still to come. -/
theorem PullCounted.inBefore_next {s t : State} {p : Progress} (h : PullCounted s p t)
    (hinc : IncrementOk .pull s) (hj : p.j < (requestOf .pull s).frames)
    (ht : (Config.one : Int) ≤ t.time .pull) :
    0 < framesAsked .pull s ∧ ((p.i + 1 : Nat) : Int) * Config.one
      ≤ s.time .pull + ((framesAsked .pull s : Int) - 1) * s.increment .pull := by
  have hfr : (requestOf .pull s).frames = framesAsked .pull s := rfl
  rw [hfr] at hj
  have := h.time
  have : (p.j : Int) * s.increment .pull
      ≤ ((framesAsked .pull s : Int) - 1) * s.increment .pull :=
    Int.mul_le_mul_of_nonneg_right (by omega) (by have := hinc.1; omega)
  refine ⟨by omega, ?_⟩
  push_cast
  linarith

theorem pullKeeps_counted {s : State} (hw : s.writePosition.toNat < s.bufferLength.toNat)
    (hinc : IncrementOk .pull s) (hv : s.bufferMode = .circular → indicesValid s = true) :
    PullKeeps (requestOf .pull s) (PullCounted s) where
  inputCircular p t h hj ht hc hne := by
    have hb := (requestOf_circular .pull s).1 hc
    have hi := indicesValid_bounds (hv hb)
    have hr := h.held hb
    have hrlt : p.r < (requestOf .pull s).ioLen := by
      rw [hr.2]
      exact Nat.mod_lt _ (by omega)
    have hwlt : p.w < (requestOf .pull s).ioLen := by
      rw [h.writes]
      exact hi.2.1
    have hnext := heldOf_next hwlt hrlt hne
    refine
      { toCounted := h.toCounted.consume
          (p' := { p with i := p.i + 1, r := (p.r + 1) % (requestOf .pull s).ioLen }) hw rfl rfl ht
        output := h.output
        inBefore := fun _ => h.inBefore_next hinc hj ht
        writes := h.writes
        linear := fun hl => by rw [hl] at hb; cases hb
        held := fun _ => ⟨?_, ?_⟩ }
    · simp only at hnext ⊢
      omega
    · simp only
      rw [hr.2]
      show _ % (s.ioLen).toNat = _
      rw [← Nat.add_assoc]
      simp
  inputLinear p t h hj ht hc := by
    have hb : s.bufferMode = .linear := by
      cases hb : s.bufferMode with
      | linear => rfl
      | circular => rw [(requestOf_circular .pull s).2 hb] at hc; cases hc
    exact
      { toCounted := h.toCounted.consume (p' := { p with i := p.i + 1 }) hw rfl rfl ht
        output := h.output
        inBefore := fun _ => h.inBefore_next hinc hj ht
        writes := h.writes
        linear := h.linear
        held := fun hl => by rw [hb] at hl; cases hl }
  output p t h hj ht :=
    { toCounted := h.toCounted.emit (p' := { p with j := p.j + 1 }) hinc rfl rfl
        (by simp [outputSlot]) ht
      output := by
        have : (requestOf .pull s).frames = framesAsked .pull s := rfl
        simp only
        omega
      inBefore := h.inBefore
      writes := h.writes
      linear := h.linear
      held := h.held }

/-- Where a pull loop ends: at the counts of R213 and R215. -/
theorem PullCounted.stopped {s t : State} {p : Progress} (h : PullCounted s p t)
    (hinc : IncrementOk .pull s) (hs : PullStopped (requestOf .pull s) p t) :
    (p.i, p.j) = framesDone .pull s := by
  have ht := h.time
  have hout := h.output
  have hpos := hinc.1
  have hfr : (requestOf .pull s).frames = framesAsked .pull s := rfl
  unfold framesDone
  simp only
  rcases hs with h1 | ⟨h1, h2, hc, hr⟩
  · rw [hfr] at h1
    have hj : p.j = framesAsked .pull s := by omega
    have hi : inputsDue (framesAsked .pull s) (s.time .pull) (s.increment .pull) = p.i := by
      rcases Nat.eq_zero_or_pos (framesAsked .pull s) with h0 | h0
      · have : p.i = 0 := by
          by_contra hne
          have := (h.inBefore (by omega)).1
          omega
        rw [h0, this]
        rfl
      · refine inputsDue_eq h0 ?_ fun hp => (h.inBefore hp).2
        have := h.lastOut (by omega)
        rw [← hj]
        exact this
    rw [if_neg, hi, hj]
    rintro ⟨hb, hlt⟩
    have := (h.held hb).1
    omega
  · have hb := (requestOf_circular .pull s).1 hc
    have hh := (h.held hb).1
    rw [heldOf_self hr] at hh
    have hi : framesHeld s = p.i := by omega
    rw [hfr] at h1
    rw [if_pos, hi, outputsDue_eq hpos (j := p.j) (by linarith) h.lastOut]
    refine ⟨hb, ?_⟩
    rw [hi]
    refine inputsDue_gt (by omega) ?_
    have : (p.j : Int) * s.increment .pull
        ≤ ((framesAsked .pull s : Int) - 1) * s.increment .pull :=
      Int.mul_le_mul_of_nonneg_right (by omega) (by omega)
    linarith

/-- Every count on the way is within the counts at the end. -/
theorem PullCounted.within {s t : State} {p : Progress} (h : PullCounted s p t)
    (hinc : IncrementOk .pull s) :
    p.i ≤ (framesDone .pull s).1 ∧ p.j ≤ (framesDone .pull s).2 := by
  have hout := h.output
  have hpos := hinc.1
  have hone : (0 : Int) < Config.one := by decide
  have hin : p.i ≤ inputsDue (framesAsked .pull s) (s.time .pull) (s.increment .pull) := by
    rcases Nat.eq_zero_or_pos p.i with h0 | h0
    · omega
    · have hb := h.inBefore h0
      have hg := inputsDue_gt (n := framesAsked .pull s) (i := p.i - 1) (t := s.time .pull)
        (q := s.increment .pull) hb.1 (by
          rw [Nat.cast_sub h0]
          push_cast
          linarith)
      omega
  unfold framesDone
  simp only
  split
  · rename_i hb
    have hrm := (h.held hb.1).1
    refine ⟨by simp only; omega, ?_⟩
    simp only
    rcases Nat.eq_zero_or_pos p.j with h0 | h0
    · omega
    · have hg := outputsDue_gt (n := framesHeld s) (j := p.j - 1) (t := s.time .pull) hpos (by
        have := h.lastOut h0
        have : (p.i : Int) * Config.one ≤ (framesHeld s : Int) * Config.one :=
          Int.mul_le_mul_of_nonneg_right (by omega) (by decide)
        rw [Nat.cast_sub h0]
        push_cast
        linarith)
      omega
  · exact ⟨hin, hout⟩

end Sys2Proof.Machine
end

