-- ==== Sys2Proof/Laws/PerInstr.lean ====
section
/-! SUPPORT. One lemma per command for the statements made about each command. -/

namespace Sys2Proof.Laws

/-- No command word uses `imm16[15:1]`: bits 31:17 are must-be-zero in both formats (R92 to R94). -/
def HighImmediateClear.Statement (i : Instr) : Prop := (encode i).extractLsb' 17 15 = 0

theorem HighImmediateClear.qsize : HighImmediateClear.Statement .qsize := by
  unfold HighImmediateClear.Statement
  decide

theorem HighImmediateClear.init : HighImmediateClear.Statement .init := by
  unfold HighImmediateClear.Statement
  decide

theorem HighImmediateClear.setfs : HighImmediateClear.Statement .setfs := by
  unfold HighImmediateClear.Statement
  decide

theorem HighImmediateClear.freeflt : HighImmediateClear.Statement .freeflt := by
  unfold HighImmediateClear.Statement
  decide

theorem HighImmediateClear.setifmt (v : Layout) : HighImmediateClear.Statement (.setifmt v) := by
  cases v <;> unfold HighImmediateClear.Statement <;> decide

theorem HighImmediateClear.setofmt (v : Layout) : HighImmediateClear.Statement (.setofmt v) := by
  cases v <;> unfold HighImmediateClear.Statement <;> decide

theorem HighImmediateClear.setbmode (v : BufferMode) : HighImmediateClear.Statement (.setbmode v) := by
  cases v <;> unfold HighImmediateClear.Statement <;> decide

theorem HighImmediateClear.updrift : HighImmediateClear.Statement .updrift := by
  unfold HighImmediateClear.Statement
  decide

theorem HighImmediateClear.updfs : HighImmediateClear.Statement .updfs := by
  unfold HighImmediateClear.Statement
  decide

theorem HighImmediateClear.push16 : HighImmediateClear.Statement .push16 := by
  unfold HighImmediateClear.Statement
  decide

theorem HighImmediateClear.push32 : HighImmediateClear.Statement .push32 := by
  unfold HighImmediateClear.Statement
  decide

theorem HighImmediateClear.pull16 : HighImmediateClear.Statement .pull16 := by
  unfold HighImmediateClear.Statement
  decide

theorem HighImmediateClear.pull32 : HighImmediateClear.Statement .pull32 := by
  unfold HighImmediateClear.Statement
  decide

end Sys2Proof.Laws
end

