-- ==== Sys2Proof/Tests/Slice0.lean ====
section
/-! SUPPORT. Tests: the spec's own vectors (spec/95_test_vectors.md, `V<n>`, `P<n>`), the checks of
well-formedness on ill-formed terms, and for every obligation with hypotheses a state and operands
that meet them. -/

open Sys2Proof Sys2Proof.Machine

namespace Sys2Proof.Tests

-- Elaborated one after another: a thread for each `decide` would pass the checker's memory limit.
set_option Elab.async false

/-! ## Test tables, parameters and states -/

/-- Table T4 of spec/95_test_vectors.md section 1. -/
def t4 : FilterEntry where
  numFilters := .n4
  filterLength := 4
  coef := [[0x00000000, 0x7FFFFFFF, 0x00000000, 0x00000000],
           [0x40000000, 0xC0000000, 0x10000000, 0xF0000000],
           [0x20000000, 0xE0000000, 0x00000000, 0x00000000],
           [0xF8000000, 0x08000000, 0x04000000, 0x00000000]]

/-- Table T5. -/
def t5 : FilterEntry where
  numFilters := .n5
  filterLength := 4
  coef := [[0x00000000, 0x40000000, 0x40000000, 0x00000000],
           [0x30000000, 0xD0000000, 0x10000000, 0xF0000000],
           [0x10000000, 0xF0000000, 0x01234567, 0xFEDCBA99],
           [0xFC000000, 0x04000000, 0x00000005, 0xFFFFFFFD],
           [0x02000000, 0xFE000000, 0x00000000, 0x00000001]]

/-- Table T6. -/
def t6 : FilterEntry where
  numFilters := .n6
  filterLength := 4
  coef := [[0x20000000, 0x20000000, 0x20000000, 0x20000000],
           [0x08000000, 0x04000000, 0xFC000000, 0xF8000000],
           [0xFE000000, 0x02000000, 0x02000000, 0xFE000000],
           [0x01000000, 0xFF000000, 0x01000000, 0xFF000000],
           [0x00800000, 0x00000000, 0x00000000, 0xFF800000],
           [0xFFC00000, 0x00400000, 0xFFC00000, 0x00400000]]

/-- Table T7. -/
def t7 : FilterEntry where
  numFilters := .n7
  filterLength := 4
  coef := [[0x00000000, 0x7FFFFFFF, 0x00000000, 0x00000000],
           [0x20000000, 0xE0000000, 0x08000000, 0xF8000000],
           [0x10000000, 0xF0000000, 0x00000000, 0x00000000],
           [0xF8000000, 0x08000000, 0x00000000, 0x00000000],
           [0x04000000, 0xFC000000, 0x00000000, 0x00000000],
           [0xFE000000, 0x02000000, 0x00000000, 0x00000000],
           [0x01000000, 0xFF000000, 0x7FFFFFFF, 0x80000000]]

/-- A table of a given length, all zero. -/
def zeroTable (l : Nat) : FilterEntry := ⟨.n4, l, List.replicate 4 (List.replicate l 0)⟩

/-- The default parameters with a coefficient store after `ROM_TEST`. -/
def testParams : Params :=
  { Config.defaults with
    filterRom :=
      [⟨48000, 48000, t4⟩, ⟨24000, 48000, t4⟩, ⟨32000, 48000, t4⟩, ⟨48000, 32000, t4⟩,
       ⟨48000, 44100, t4⟩, ⟨48000, 8000, t4⟩, ⟨8000, 48000, t4⟩, ⟨16000, 48000, t5⟩,
       ⟨48000, 16000, t6⟩, ⟨44100, 48000, t7⟩, ⟨8000, 44100, zeroTable 6⟩,
       ⟨48000, 24000, zeroTable 8⟩] }

/-- The reset state with the test parameters. -/
def fresh : State := { State.reset with params := testParams }

/-- The first argument registers take these values. -/
def withArgs (s : State) (vs : List Word) : State :=
  { s with a := Vector.ofFn (fun i => (vs[i.val]?).getD (s.a[i])) }

/-- The next state of an outcome. -/
def answer : Host.Outcome State Fault Refusal → State
  | .next t => t
  | _ => State.reset

/-- The outcome is a next state. -/
def isNext : Host.Outcome State Fault Refusal → Bool
  | .next _ => true
  | _ => false

theorem eq_next_answer {o : Host.Outcome State Fault Refusal} (h : isNext o = true) :
    o = .next (answer o) := by
  cases o <;> first | rfl | cases h

/-- After `INIT` with these operands in `A[0..9]`. -/
def initWith (vs : List Word) : State := answer (exec .init (withArgs fresh vs))

/-- 16-bit or 32-bit cells from an address up. -/
def withCells (bytes : Nat) : Memory → Word → List Nat → Memory
  | m, _, [] => m
  | m, addr, v :: rest =>
    withCells bytes (memWrite m addr bytes v) (addr + BitVec.ofNat 32 bytes) rest

/-- P1 before its `PUSH32`, which the host is about to write: one channel, 24000 to 48000, linear,
feedback. -/
def pushLinear : State :=
  let s := initWith [1, 24000, 48000, 0, 0, 0, 4, 32, 0, 0]
  { withArgs s [2] with
    iptr := s.iptr.set 0 0x1000, optr := s.optr.set 0 0x2000
    dmem := withCells 4 [] 0x1000 [0x10000000, 0x20000000]
    pending := [.write 0 0x00000130] }

/-- P2 before its first `PULL16`: two channels, circular input, planar output, feedback. -/
def pullCircular : State :=
  let s := initWith [2, 32000, 48000, 0, 1, 1, 8, 16, 0, 1]
  { withArgs s [2, 4, 2, 4, 6] with
    iptr := s.iptr.set 0 0x3000, optr := (s.optr.set 0 0x4000).set 1 0x4100
    dmem := withCells 2 [] 0x3000
      [0x0100, 0xFF00, 0x0200, 0xFE00, 0x0300, 0xFD00, 0x0400, 0xFC00, 0x0500, 0xFB00,
       0x0600, 0xFA00] }

/-- P3 before its command 6: two channels, planar input, circular output, fixed. -/
def pushFixed : State :=
  let s := initWith [2, 48000, 32000, 1, 0, 1, 4, 16, 1, 0]
  { withArgs s [3, 2] with
    iptr := (s.iptr.set 0 0x5000).set 1 0x5100, optr := s.optr.set 0 0x6000
    dmem := withCells 2 (withCells 2 [] 0x5000 [0x4000, 0x2000, 0x1000, 0x0800, 0x0400, 0x0200])
      0x5100 [0xC000, 0xE000, 0xF000, 0xF800, 0xFC00, 0xFE00] }

/-- P3 before its command 7: after the `UPDFS`. -/
def pushCircular : State := withArgs (answer (exec .updfs pushFixed)) [6, 0, 0, 0, 4]

/-- P7 before its `PULL32`: one channel, linear input, feedback. -/
def pullLinear : State :=
  let s := initWith [1, 16000, 48000, 0, 0, 0, 4, 32, 0, 1]
  { withArgs s [1, 3, 0x1234, 0x5678, 9] with
    iptr := s.iptr.set 0 0xB000, optr := s.optr.set 0 0xC000
    dmem := withCells 4 [] 0xB000
      [0x08000000, 0x10000000, 0x18000000, 0x20000000, 0x28000000, 0x30000000, 0x38000000,
       0x40000000] }

/-- A block after `FREEFLT`, and one after a failed `INIT`. -/
def noFilterState : State := answer (exec .freeflt pushLinear)
def failedState : State := initWith [0, 48000, 44100, 0, 0, 0, 4, 24, 0, 0]

/-! ## Well-formedness: every check refuses an ill-formed term -/

theorem test_wf_accepts_the_tables :
    testParams.wf = true ∧ t4.wf = true ∧ t5.wf = true ∧ t6.wf = true ∧ t7.wf = true := by
  decide +kernel

theorem test_wf_of_every_command : ∀ v : Layout, (Instr.setifmt v).wf = true := fun _ => rfl

theorem test_wf_refuses_an_empty_filter : FilterEntry.wf ⟨.n4, 0, [[], [], [], []]⟩ = false := by
  decide

theorem test_wf_refuses_a_missing_row : FilterEntry.wf ⟨.n4, 1, [[1], [2], [3]]⟩ = false := by decide

theorem test_wf_refuses_a_short_row : FilterEntry.wf ⟨.n4, 2, [[1, 1], [2], [3, 3], [4, 4]]⟩ = false := by
  decide

theorem test_wf_refuses_no_channels : Params.wf { testParams with maxChannels := 0 } = false := by
  decide +kernel

theorem test_wf_refuses_too_many_channels :
    Params.wf { testParams with maxChannels := 17 } = false := by decide +kernel

theorem test_wf_refuses_a_ring_shorter_than_the_filter :
    Params.wf { testParams with ringCapacity := 127 } = false := by decide +kernel

theorem test_wf_refuses_a_length_not_of_fours :
    Params.wf { testParams with maxFilterLength := 126 } = false := by decide +kernel

theorem test_wf_refuses_a_small_ratio_min :
    Params.wf { testParams with ratioMin := 2 ^ 24 - 1 } = false := by decide +kernel

theorem test_wf_refuses_an_empty_ratio_range :
    Params.wf { testParams with ratioMax := 22369620 } = false := by decide +kernel

theorem test_wf_refuses_a_large_ratio_max :
    Params.wf { testParams with ratioMax := 2 ^ 30 + 1 } = false := by decide +kernel

theorem test_wf_refuses_an_ill_formed_table :
    Params.wf { testParams with filterRom := [⟨8000, 8000, ⟨.n4, 1, []⟩⟩] } = false := by decide +kernel

theorem test_memory_wf_refuses_disorder :
    Memory.wf [(5, 1), (4, 1)] = false ∧ Memory.wf [(4, 1), (4, 2)] = false
      ∧ Memory.wf [(4, 0)] = false ∧ Memory.wf [(2 ^ 32, 1)] = false := by decide

/-! ## Decode: every command's word, written out from R96 (V10 to V18) -/

theorem test_decode_configuration_words :
    decode 0x00000001 = .ok .qsize ∧ decode 0x00000002 = .ok .init
      ∧ decode 0x00000003 = .ok .setfs ∧ decode 0x00000004 = .ok .freeflt := by decide

theorem test_decode_setter_words :
    decode 0x00000010 = .ok (.setifmt .interleaved) ∧ decode 0x00010010 = .ok (.setifmt .deinterleaved)
      ∧ decode 0x00000110 = .ok (.setofmt .interleaved)
      ∧ decode 0x00010110 = .ok (.setofmt .deinterleaved)
      ∧ decode 0x00000210 = .ok (.setbmode .linear)
      ∧ decode 0x00010210 = .ok (.setbmode .circular) := by decide

theorem test_decode_drift_and_processing_words :
    decode 0x00000020 = .ok .updrift ∧ decode 0x00000120 = .ok .updfs
      ∧ decode 0x00000030 = .ok .push16 ∧ decode 0x00000130 = .ok .push32
      ∧ decode 0x00000230 = .ok .pull16 ∧ decode 0x00000330 = .ok .pull32 := by decide

theorem test_decode_refuses_by_name :
    ([0x00000000, 0x00000005, 0x000000FF, 0xFFFFFFFF, 0x00000040] : List Word).map decode
        = List.replicate 5 (.error .noSuchOpcode)
      ∧ ([0x00000430, 0x00000310, 0x00000220, 0x00000102, 0x00008030] : List Word).map decode
        = List.replicate 5 (.error .undefinedFunct)
      ∧ ([0x00010002, 0x00010001, 0x00010130, 0x80000020, 0x00020010, 0x00030110,
          0x80010210] : List Word).map decode = List.replicate 7 (.error .nonzeroImmediate) := by
  decide

theorem test_decode_table_word :
    decodeTableWord 32 0x00010210 = some (.setbmode .circular)
      ∧ decodeTableWord 32 0x00000430 = none := by decide

/-! ## Arithmetic, ring and impulse response vectors -/

/-- V1, V2. -/
theorem test_sat : sat 32 2147483648 = 2147483647 ∧ sat 32 (-2147483649) = -2147483648
    ∧ sat 16 32768 = 32767 ∧ sat 16 (-32768) = -32768 := by decide

/-- V6, V7. -/
theorem test_rshr_sym : rshrSym (5 * 2 ^ 30) 31 = 3 ∧ rshrSym (-13 * 2 ^ 30) 31 = -7
    ∧ rshrSym (146087323 * 0x20000000) 30 = 73043662 := by decide

/-- V8, V9. -/
theorem test_div_round : divRound (2 ^ 54) 146087323 = 123312538 ∧ divRound 7 2 = 4
    ∧ divRound (2 ^ 54) 0x01555555 = 805306380 := by decide +kernel

/-- V26 to V30. -/
theorem test_hstep :
    hstep (-0x08000000) (timeScaled 0x04000000) 0x20000000 = 0x1C000000
      ∧ hstep 0x7FFFFFFF (timeScaled 0x04000000) 0x7FFFFFFF = 0x7FFFFFFF
      ∧ hstep (-0x80000000) (timeScaled 0x07FFFFFF) (-0x80000000) = -0x80000000
      ∧ hstep 0x7FFFFFFF (timeScaled 0x07FFFFFF) 0 = 0x7FFFFFEF
      ∧ hstep (-13) (timeScaled 0x04000000) 11 = 4 := by decide +kernel

/-- A block whose table is the given one. -/
def withTable (e : FilterEntry) : State :=
  { fresh with
    filterLength := 4, numFilters := BitVec.ofNat 32 e.numFilters.toNat, coef := e.coef }

/-- V39h, V39m, V39s, V39ad: one time for each evaluator. -/
theorem test_irgen :
    (irgen 0x06000000 (withTable t4)).ir = [0x3EA00000, 0x415FFFFF, 0x0DB00000, 0xF4000000]
      ∧ (irgen 0x04000000 (withTable t5)).ir = [0x1BA00000, 0x24600000, 0x4848D15B, 0xF7B72EA6]
      ∧ (irgen 0x00600000 (withTable t6)).ir = [0x205EE6E8, 0x20311941, 0x1FD126BF, 0x1F9ED918]
      ∧ (irgen 0x07FFFFFF (withTable t7)).ir
          = [0x2AFFFFFB, 0x55000004, 0x7FFFFFEF, 0x80000010] := by decide +kernel

/-- A block with one ring row, newest sample behind the cursor at 0, and given taps. -/
def withWindow (taps row : List Word) : State :=
  { fresh with
    numChannels := 1, bufferLength := 4, filterLength := 4, ring := [row], ir := taps }

/-- V44, V46, V47 (a window of equal samples). -/
theorem test_fir_saturates :
    fir32 (withWindow (List.replicate 4 0x7FFFFFFF) (List.replicate 4 0x7FFFFFFF)) 0 = 0x7FFFFFFF
      ∧ fir16 (withWindow (List.replicate 4 0x7FFFFFFF) (List.replicate 4 0xFFFF8000)) 0 = -0x8000
      ∧ fir32 (withWindow (List.replicate 4 0x80000000) (List.replicate 4 0x80000000)) 0
          = 0x7FFFFFFF := by decide +kernel

/-- V50: the window is newest first, so the row read upwards is reversed. -/
theorem test_fir_window_order :
    fir16 (withWindow [0x2700000B, 0x58FFFFF4, 0x08800003, 0xF7FFFFFE] [0, 0, 0x0500, 0x0600]) 0
      = 0x054E := by decide +kernel

/-- V22. -/
theorem test_ring_read_rel :
    (fun s : State => [1, 2, 3, 4].map (ringReadRel s 0))
        { withWindow [] [10, 20, 30, 40] with writePosition := 1 }
      = [some 10, some 40, some 30, some 20] := by decide +kernel

/-- V84 to V86. -/
theorem test_sample_address :
    sampleAddr (Vector.replicate 16 0x1000) .interleaved 2 2 3 1 = 0x100E
      ∧ sampleAddr ((Vector.replicate 16 0x5000).set 1 0x5100) .deinterleaved 2 4 3 1 = 0x510C
      ∧ sampleAddr (Vector.replicate 16 0xFFFFFFFC) .interleaved 1 4 1 0 = 0 := by decide

/-- V81, V82: little-endian bytes. -/
theorem test_mem_write_bytes :
    memWrite [] 0x2004 4 0x04E00000 = [(0x2006, 0xE0), (0x2007, 0x04)]
      ∧ memWrite [] 0x4102 2 0xFAB2 = [(0x4102, 0xB2), (0x4103, 0xFA)] := by decide

/-! ## Reset, and a command word placed as the next write of `CMD` (P4, commands 1 and 3) -/

theorem test_first_step_after_reset :
    (answer (step (State.reset.withFetchWord 32 0x00000130))).err = .invalidPointer
      ∧ (answer (step (State.reset.withFetchWord 32 0x00000430))).err = .illegalCommand := by
  decide +kernel

/-! ## The commands -/

/-- V70d. -/
theorem test_qsize : (answer (exec .qsize (withArgs fresh [8, 32]))).arg 0 = 8704 := by decide +kernel

/-- V70i: the channel count is checked first. -/
theorem test_qsize_error :
    (answer (exec .qsize (withArgs fresh [0, 24]))).err = .invalidNumChannels := by decide +kernel

/-- V71a. -/
theorem test_init :
    (fun s : State => (s.lifecycle, s.fsRatio, s.fsRatioInv, s.timeValue, s.filterLength, s.numFilters))
        (initWith [1, 48000, 44100, 0, 0, 0, 4, 32, 0, 0])
      = (.ready, 0x08B51D9B, 0x0759999A, 0x08000000, 4, 4) := by decide +kernel

/-- V71h: no table for the pair. -/
theorem test_init_error :
    (fun s : State => (s.lifecycle, s.err)) (initWith [1, 44100, 8000, 0, 0, 0, 8, 16, 0, 0])
      = (.failed, .invalidConversionRatio) := by decide +kernel

/-- V72. -/
theorem test_setfs :
    (fun s : State => (s.err, s.fsPrim, s.fsRatio, s.fsRatioInv))
        (answer (exec .setfs (withArgs pushLinear [44100, 48000])))
      = (.ok, 44100, 0x0759999A, 0x08B51D9B) := by decide +kernel

/-- V72: the failing case. -/
theorem test_setfs_error :
    (fun s : State => (s.err, s.lifecycle, s.fsPrim))
        (answer (exec .setfs (withArgs pushLinear [48000, 48001])))
      = (.invalidSampleRate, .failed, 24000) := by decide +kernel

/-- V73. -/
theorem test_freeflt :
    (noFilterState.lifecycle, noFilterState.filterLength, noFilterState.bufferLength)
      = (.noFilter, 0, 4) := by decide +kernel

/-- V74, and a setter in `UNCONFIGURED`. -/
theorem test_setifmt :
    (answer (exec (.setifmt .deinterleaved) pushLinear)).inputFormat = .deinterleaved
      ∧ (answer (exec (.setifmt .deinterleaved) fresh)).err = .invalidPointer := by decide +kernel

theorem test_setofmt :
    (answer (exec (.setofmt .deinterleaved) noFilterState)).outputFormat = .deinterleaved := by
  decide +kernel

theorem test_setbmode :
    (answer (exec (.setbmode .linear) pullCircular)).bufferMode = .linear := by decide +kernel

/-- V55a. -/
theorem test_updrift :
    (fun s : State => (s.fsRatio, s.fsRatioInv))
        (answer (exec .updrift (withArgs (initWith [1, 48000, 44100, 0, 0, 0, 4, 32, 0, 0])
          [0x4001A36E])))
      = (0x08B556AC, 0x0759696F) := by decide +kernel

/-- V55h: the clamp, from a nominal ratio of 6. -/
theorem test_updrift_clamps :
    (answer (exec .updrift (withArgs (initWith [1, 48000, 8000, 0, 0, 0, 4, 32, 0, 0])
      [0x40000001]))).fsRatio = 0x30000000 := by decide +kernel

/-- V56o. -/
theorem test_updfs :
    (fun s : State => (s.fsRatio, s.fsRatioInv, s.fsUpdated))
        (answer (exec .updfs (withArgs pushFixed [3001, 2000])))
      = (0x0C010625, 0x0554E0DD, true) := by decide +kernel

/-- V56m: the wide quotient is compared. -/
theorem test_updfs_error :
    (answer (exec .updfs (withArgs pushFixed [0x7FFFFFFF, 1]))).err = .invalidConversionRatio := by
  decide +kernel

/-- P3, command 7. -/
theorem test_push16 :
    (fun s : State => (s.arg 0, s.arg 1, s.arg 2, s.timeValue, memRead s.dmem 0x6004 4,
        memRead s.dmem 0x6008 4, s.fsUpdated))
        (answer (exec .push16 pushCircular))
      = (5, 3, 3, 0x04000000, 0xC9C03640, 0xF0001000, false) := by decide +kernel

/-- P3, command 2. -/
theorem test_push16_needs_an_update :
    (answer (exec .push16 (withArgs pushFixed [6, 0, 0, 0, 4]))).err = .updateFsFailed := by
  decide +kernel

/-- P1, R221. -/
theorem test_push32 :
    (fun s : State => (s.arg 0, s.arg 1, s.timeValue, s.writePosition,
        (List.range 4).map (fun f => memRead s.dmem (0x2000 + BitVec.ofNat 32 (4 * f)) 4)))
        (answer (exec .push32 pushLinear))
      = (2, 4, 0x08000000, 2, [0, 0x04E00000, 0x10000000, 0x14E00000]) := by decide +kernel

/-- V60c: the width is checked before the direction. -/
theorem test_push32_width :
    (answer (exec .push32 pullCircular)).err = .invalidBitDepth := by decide +kernel

/-- P2, R222. -/
theorem test_pull16 :
    (fun s : State => (s.arg 0, s.arg 1, s.arg 3, s.timeValuePull, s.writePosition,
        memRead s.dmem 0x4002 4, memRead s.dmem 0x4102 4))
        (answer (exec .pull16 pullCircular))
      = (4, 3, 2, 0x0C000003, 4, 0x0100054E, 0xFF00FAB2) := by decide +kernel

/-- V60b: the pull code of a wrong direction. -/
theorem test_pull16_direction :
    (answer (exec .pull16 pushCircular)).err = .failedPullMode := by decide +kernel

/-- P7: the counts; `A[3]` is not said. -/
theorem test_pull32 :
    (fun s : State => (s.err, s.arg 0, s.arg 1, s.timeValuePull))
        (answer (exec .pull32 pullLinear))
      = (.ok, 6, 3, 0x1FFFFFF7) := by decide +kernel

/-- P7: the samples stored. -/
theorem test_pull32_samples :
    (fun s : State => (memRead s.dmem 0xC000 4, memRead s.dmem 0xC004 4, memRead s.dmem 0xC008 4))
        (answer (exec .pull32 pullLinear))
      = (0, 0x10F23455, 0x28F23453) := by decide +kernel

/-! ## Witnesses: what meets the hypotheses of the obligations -/

theorem pushLinear_allowed : ProcessingAllowed 32 .push pushLinear :=
  (processCheck_ok_iff _ _ _).1 (by decide +kernel)

theorem pushCircular_allowed : ProcessingAllowed 16 .push pushCircular :=
  (processCheck_ok_iff _ _ _).1 (by decide +kernel)

theorem pullCircular_allowed : ProcessingAllowed 16 .pull pullCircular :=
  (processCheck_ok_iff _ _ _).1 (by decide +kernel)

theorem pullLinear_allowed : ProcessingAllowed 32 .pull pullLinear :=
  (processCheck_ok_iff _ _ _).1 (by decide +kernel)

/-- P1's block has every property of a consistent one. -/
theorem pushLinear_ready : ReadyInv pushLinear where
  channels := by decide +kernel
  fsPrim := by decide +kernel
  fsSec := by decide +kernel
  bitDepth := by decide +kernel
  bufferLength := by decide +kernel
  cursor := by decide +kernel
  ringShaped := by unfold RingShaped; decide +kernel
  numFilters := by decide +kernel
  filterLength := by decide +kernel
  ringHolds := by decide +kernel
  ratio := by decide +kernel
  ratioInv := by decide +kernel
  nominal := by decide +kernel
  time := by decide +kernel
  timePull := by decide +kernel
  samples := by unfold InInt; decide +kernel
  table := ⟨t4, by decide +kernel⟩

theorem test_witness_DecodeEncodeAgree :
    (Instr.setofmt .deinterleaved).wf = true ∧ decode 0x00010110 = .ok (.setofmt .deinterleaved) := by
  decide

/-- The host is about to write the illegal word `0x00000430`. -/
theorem test_witness_IllegalWordChangesOnlyErr :
    (∀ row ∈ opcodeMap, (0x00000430 : Word) &&& row.1 ≠ row.2.1)
      ∧ (queueCommand 0x00000430 fresh).busy = false
      ∧ (queueCommand 0x00000430 fresh).pending = [.write 0 0x00000430] := by decide +kernel

/-- A word for each kind R99 lists. -/
theorem test_witness_IllegalWordChangesOnlyErr_kinds :
    BitVec.extractLsb' 0 8 (0x00000005 : Word) ∉ ([0x01, 0x02, 0x03, 0x04, 0x10, 0x20, 0x30] : List (BitVec 8))
      ∧ BitVec.extractLsb' 0 16 (0x00000310 : Word) ∉ ([0x0001, 0x0002, 0x0003, 0x0004, 0x0010,
          0x0110, 0x0210, 0x0020, 0x0120, 0x0030, 0x0130, 0x0230, 0x0330] : List (BitVec 16))
      ∧ BitVec.extractLsb' 0 16 (0x80000020 : Word) = 0x0020
      ∧ BitVec.extractLsb' 16 16 (0x80000020 : Word) ≠ 0
      ∧ BitVec.extractLsb' 0 16 (0x00020010 : Word) = 0x0010
      ∧ BitVec.extractLsb' 17 15 (0x00020010 : Word) ≠ 0 := by decide

theorem test_witness_StepRunsTheDecodedCommand :
    pushLinear.busy = false ∧ pushLinear.pending = .write 0 0x00000130 :: []
      ∧ decode 0x00000130 = .ok .push32 ∧ Instr.push32.wf = true := by decide +kernel

/-- Both ends of `int8` and the values just outside. -/
theorem test_witness_SaturationClampsToTheType :
    (1 : Nat) ≤ 8 ∧ (-129 : Int) < -(2 ^ (8 - 1)) ∧ (2 ^ (8 - 1) - 1 : Int) < 128
      ∧ (-(2 ^ (8 - 1)) ≤ (-128 : Int) ∧ (-128 : Int) ≤ 2 ^ (8 - 1) - 1)
      ∧ (-(2 ^ (8 - 1)) ≤ (127 : Int) ∧ (127 : Int) ≤ 2 ^ (8 - 1) - 1) := by decide

/-- A tie, at the smallest shift. -/
theorem test_witness_RoundingShiftIsNearestAndOdd :
    (1 : Nat) ≤ 1 ∧ 2 * |2 ^ 1 * rshrSym 3 1 - 3| = 2 ^ 1 := by decide

theorem test_witness_RoundedDivisionIsNearest : (0 : Nat) < 1 := by decide

/-- The extreme samples, the last address, and an address outside the stored bytes. -/
theorem test_witness_StoredSampleLoadsBack :
    Memory.wf [] = true ∧ InInt 16 (-32768) ∧ InInt 32 2147483647
      ∧ ∀ b < 16 / 8, (5 : Nat) ≠ ((0xFFFFFFFF : Word) + BitVec.ofNat 32 b).toNat := by
  unfold InInt; decide

/-- The last pointer register. -/
theorem test_witness_SampleAddressFormula :
    (15 : Nat) < 16 ∧ sampleAddr ((Vector.replicate 16 0).set 15 0x7000) .deinterleaved 16 4 1 15
      = 0x7004 := by decide

theorem test_witness_EveryStepKeepsMemoryCanonical :
    Memory.wf fresh.dmem = true
      ∧ step (queueCommand 0x00000001 fresh)
          = .next (answer (step (queueCommand 0x00000001 fresh))) :=
  ⟨by decide +kernel, eq_next_answer (by decide +kernel)⟩

/-- A cursor at the start and at the last of four cells. -/
theorem test_witness_RingAdvanceWraps :
    ∀ p ∈ ([0, 3] : List Nat),
      (fun s : State => s.writePosition.toNat < s.bufferLength.toNat ∧ 2 ≤ s.bufferLength.toNat)
        { withWindow [] [] with writePosition := BitVec.ofNat 32 p } := by decide +kernel

/-- The first and last offsets inside the window, and those just outside. -/
theorem test_witness_RelativeReadIsTheWindow :
    (fun s : State => s.writePosition.toNat < s.bufferLength.toNat
        ∧ s.filterLength.toNat ≤ s.bufferLength.toNat ∧ s.filterLength.toNat < 5
        ∧ (1 ≤ 1 ∧ 1 ≤ s.filterLength.toNat) ∧ (1 ≤ 4 ∧ 4 ≤ s.filterLength.toNat))
      (withWindow [] [10, 20, 30, 40]) := by decide +kernel

theorem test_witness_FrameWriteShiftsTheWindow :
    RingShaped pullCircular ∧ pullCircular.bitDepth = 16
      ∧ pullCircular.writePosition.toNat < pullCircular.bufferLength.toNat
      ∧ 2 ≤ pullCircular.bufferLength.toNat ∧ 1 < pullCircular.numChannels.toNat
      ∧ 7 < pullCircular.bufferLength.toNat := by
  unfold RingShaped; decide +kernel

/-- The time is exactly `ONE`. -/
theorem test_witness_InputStepConsumesOneFrame :
    (Config.one : Int) ≤ pushLinear.time .push ∧ 0 < pushLinear.numChannels.toNat := by
  decide +kernel

/-- The smallest and the largest filter count. -/
theorem test_witness_EvaluatorsFollowTheRecurrence :
    ∀ e ∈ ([t4, t7] : List FilterEntry),
      4 ≤ (withTable e).numFilters.toNat ∧ (withTable e).numFilters.toNat ≤ 7
        ∧ 3 < (withTable e).filterLength.toNat := by decide +kernel

theorem test_witness_ImpulseResponseAtTimeZero :
    4 ≤ (withTable t5).numFilters.toNat ∧ (withTable t5).numFilters.toNat ≤ 7
      ∧ 3 < (withTable t5).filterLength.toNat := by decide +kernel

/-- Both ends of the fractional time, on a tap of T4. -/
theorem test_witness_TapIsWithinHalfUnitPerStepOfThePolynomial :
    4 ≤ (withTable t4).numFilters.toNat ∧ (withTable t4).numFilters.toNat ≤ 7
      ∧ (∀ t ∈ ([0, 0x07FFFFFF] : List Int), 0 ≤ t ∧ t < Config.one)
      ∧ ((List.range (withTable t4).numFilters.toNat).map
          (fun j => |coefCell (withTable t4) j 0|)).sum < 2 ^ 31 := by decide +kernel

/-- A flushed ring is an all-zero window, and the ring of channel 0 can change without channel 1's. -/
theorem test_witness_FirReadsItsOwnChannel :
    (∀ k < pushLinear.filterLength.toNat, windowSample pushLinear 0 k = 0)
      ∧ (pullCircular.ring.set 0 [])[1]? = pullCircular.ring[1]? := by decide +kernel

/-- Two planar channels that do not overlap, and a byte stored by neither. -/
theorem test_witness_OutputStepStoresOneFrame :
    pullCircular.dmem.wf = true ∧ pullCircular.bitDepth = 16
      ∧ (∀ c' < pullCircular.numChannels.toNat, c' ≠ 0 → ∀ b < pullCircular.sampleBytes,
          ∀ b' < pullCircular.sampleBytes,
          outputAddr pullCircular 0 0 + BitVec.ofNat 32 b
            ≠ outputAddr pullCircular 0 c' + BitVec.ofNat 32 b')
      ∧ (∀ c < pullCircular.numChannels.toNat, ∀ b < pullCircular.sampleBytes,
          0x3000 ≠ (outputAddr pullCircular 0 c + BitVec.ofNat 32 b).toNat) := by decide +kernel

/-! ### Drift Controller -/

/-- The smallest positive skew, and a skew of 1.0 with the nominal ratio in range. -/
theorem test_witness_UpdriftSetsTheSkewedRatio :
    ∀ v ∈ ([[1], [0x40000000]] : List (List Word)),
      (fun s : State => s.lifecycle = .ready ∧ s.controlMode = .feedback ∧ 0 < s.argInt 0
          ∧ (s.params.ratioMin : Int) ≤ s.fsRatioNom.toInt
          ∧ s.fsRatioNom.toInt ≤ (s.params.ratioMax : Int)) (withArgs pushLinear v) := by
  decide +kernel

/-- A nominal ratio at the upper end of the range. -/
theorem test_witness_UnitySkewRestoresTheNominalRatio :
    (fun s : State => s.lifecycle = .ready ∧ s.controlMode = .feedback ∧ s.arg 0 = 0x40000000
        ∧ (s.params.ratioMin : Int) ≤ s.fsRatioNom.toInt
        ∧ s.fsRatioNom.toInt = (s.params.ratioMax : Int))
      (withArgs (initWith [1, 48000, 8000, 0, 0, 0, 4, 32, 0, 0]) [0x40000000]) := by
  decide +kernel

/-- Both ends of the ratio range are reached: counts 1 to 6 and 6 to 1 (V56e, V56f). -/
theorem test_witness_UpdfsSetsTheMeasuredRatio :
    ∀ v ∈ ([[1, 6], [6, 1]] : List (List Word)),
      (fun s : State => s.lifecycle = .ready ∧ s.controlMode = .fixed ∧ 0 < s.argInt 0
          ∧ 0 < s.argInt 1
          ∧ s.params.ratioMin ≤ divRound ((s.argInt 0).toNat * 2 ^ 27) (s.argInt 1).toNat
          ∧ divRound ((s.argInt 0).toNat * 2 ^ 27) (s.argInt 1).toNat ≤ s.params.ratioMax)
        (withArgs pushFixed v) := by decide +kernel

/-- A zero skew, a zero count, ratios just outside the range (V55g, V56g to V56j), no filter, and the
other mode. -/
theorem test_witness_drift_update_errors :
    noFilterState.lifecycle ≠ .ready ∧ pushFixed.controlMode ≠ .feedback
      ∧ pushLinear.controlMode ≠ .fixed
      ∧ (fun s : State => s.lifecycle = .ready ∧ s.controlMode = .feedback ∧ s.argInt 0 ≤ 0)
        (withArgs pushLinear [0])
      ∧ (fun s : State => s.lifecycle = .ready ∧ s.controlMode = .fixed ∧ 0 < s.argInt 0
          ∧ s.argInt 1 ≤ 0) (withArgs pushFixed [5, 0])
      ∧ ∀ v ∈ ([[7, 1], [1, 7]] : List (List Word)),
        (fun s : State => s.lifecycle = .ready ∧ s.controlMode = .fixed ∧ 0 < s.argInt 0
          ∧ 0 < s.argInt 1
          ∧ (divRound ((s.argInt 0).toNat * 2 ^ 27) (s.argInt 1).toNat < s.params.ratioMin
            ∨ s.params.ratioMax < divRound ((s.argInt 0).toNat * 2 ^ 27) (s.argInt 1).toNat))
          (withArgs pushFixed v) := by decide +kernel

theorem test_witness_WrongModeUpdateChangesOnlyErr :
    pushFixed.lifecycle = .ready ∧ pushFixed.controlMode = .fixed
      ∧ pushLinear.lifecycle = .ready ∧ pushLinear.controlMode = .feedback := by decide +kernel

/-! ### Configuration -/

/-- The largest channel count, one more, and a wrong depth. -/
theorem test_witness_QsizeReturnsTheRequiredSize :
    (fun s : State => 0 < s.argInt 0 ∧ s.argInt 0 = (s.params.maxChannels : Int) ∧ s.argInt 1 = 16)
        (withArgs fresh [8, 16])
      ∧ (fun s : State => (s.params.maxChannels : Int) < s.argInt 0) (withArgs fresh [9, 16])
      ∧ (fun s : State => 0 < s.argInt 0 ∧ s.argInt 0 ≤ (s.params.maxChannels : Int)
          ∧ s.argInt 1 ≠ 16 ∧ s.argInt 1 ≠ 32) (withArgs fresh [1, 24]) := by decide +kernel

theorem test_witness_QsizeAcceptsWhatInitAccepts :
    (fun s u : State => s.params = u.params ∧ s.arg 0 = u.arg 0 ∧ s.arg 1 = u.arg 7
        ∧ (∀ i ∈ ([3, 4, 5, 8, 9] : List (Fin 16)), u.argInt i = 0 ∨ u.argInt i = 1)
        ∧ isNext (exec .qsize s) = true ∧ isNext (exec .init u) = true)
      (withArgs fresh [1, 32]) (withArgs fresh [1, 24000, 48000, 0, 1, 0, 4, 32, 0, 0]) := by
  decide +kernel

/-- `INIT` at the two ends of the ratio range, and with the longest ring. -/
theorem test_witness_InitInstallsTheConfiguration :
    ∀ v ∈ ([[1, 8000, 48000, 0, 0, 0, 4, 16, 0, 0], [8, 48000, 8000, 1, 1, 1, 256, 32, 1, 1]] :
        List (List Word)),
      (fun s : State =>
        (∀ i ∈ ([3, 4, 5, 8, 9] : List (Fin 16)), s.argInt i = 0 ∨ s.argInt i = 1)
        ∧ 0 < s.argInt 0 ∧ s.argInt 0 ≤ (s.params.maxChannels : Int)
        ∧ (s.argInt 7 = 16 ∨ s.argInt 7 = 32)
        ∧ 1 < s.argInt 6 ∧ s.argInt 6 ≤ (s.params.ringCapacity : Int)
        ∧ (∃ r ∈ Config.supportedRates, s.argInt 1 = r)
        ∧ (∃ r ∈ Config.supportedRates, s.argInt 2 = r)
        ∧ filterLookup s.params (s.argInt 1) (s.argInt 2) = some t4
        ∧ s.params.ratioMin ≤ divRound ((s.arg 1).toNat * 2 ^ 27) (s.arg 2).toNat
        ∧ divRound ((s.arg 1).toNat * 2 ^ 27) (s.arg 2).toNat ≤ s.params.ratioMax
        ∧ t4.filterLength % 4 = 0 ∧ 4 ≤ t4.filterLength
        ∧ t4.filterLength ≤ s.params.maxFilterLength ∧ (t4.filterLength : Int) ≤ s.argInt 6)
        (withArgs fresh v) := by decide +kernel

/-- Each of the five operands, 2 or negative. -/
theorem test_witness_InitMalformedEnumerationChangesOnlyErr :
    ∀ i ∈ ([3, 4, 5, 8, 9] : List (Fin 16)), ∀ v ∈ ([2, -1] : List Int),
      (fresh.setArg i (toWord v)).argInt i ≠ 0 ∧ (fresh.setArg i (toWord v)).argInt i ≠ 1 := by
  decide +kernel

/-- One operand file for each check that fails (V71b to V71j), with the code it gives. -/
theorem test_witness_InitReportsTheFirstFailingCheck :
    ([[9, 24000, 48000, 0, 0, 0, 4, 32, 0, 0], [1, 24000, 48000, 0, 0, 0, 4, 24, 0, 0],
      [1, 24000, 48000, 0, 0, 0, 1, 32, 0, 0], [1, 24000, 48000, 0, 0, 0, 257, 32, 0, 0],
      [1, 24000, 48001, 0, 0, 0, 4, 32, 0, 0], [1, 44100, 8000, 0, 0, 0, 4, 32, 0, 0],
      [1, 8000, 44100, 0, 0, 0, 8, 32, 0, 0], [1, 48000, 24000, 0, 0, 0, 7, 32, 0, 0]] :
        List (List Word)).map (fun v => (initWith v).err)
      = [.invalidNumChannels, .invalidBitDepth, .invalidBufferLength, .invalidBufferLength,
         .invalidSampleRate, .invalidConversionRatio, .invalidFilterLength, .invalidBufferLength] := by
  decide +kernel

/-- A ratio under a parameter `RATIO_MIN` of 1.0. -/
theorem test_witness_InitReportsTheFirstFailingCheck_ratio :
    (fun s : State => filterLookup s.params (s.argInt 1) (s.argInt 2) = some t4
        ∧ divRound ((s.argInt 1).toNat * 2 ^ 27) (s.argInt 2).toNat < s.params.ratioMin
        ∧ (answer (exec .init s)).err = .invalidConversionRatio)
      { withArgs fresh [1, 24000, 48000, 0, 0, 0, 4, 32, 0, 0] with
        params := { testParams with ratioMin := 2 ^ 27 } } := by decide +kernel

theorem test_witness_FailedInitLeavesEverythingElse :
    isNext (exec .init (withArgs fresh [0])) = true
      ∧ (answer (exec .init (withArgs fresh [0]))).err = .invalidNumChannels
      ∧ (answer (exec .init (withArgs fresh [0, 0, 0, 2]))).err = .illegalCommand
      ∧ failedState.lifecycle = .failed := by decide +kernel

/-- In both states that accept `SETFS`, with a filter as long as the ring. -/
theorem test_witness_SetfsReplacesTheRates :
    ∀ b ∈ ([pushLinear, noFilterState] : List State),
      (fun s : State => (s.lifecycle = .ready ∨ s.lifecycle = .noFilter)
        ∧ (∃ r ∈ Config.supportedRates, s.argInt 0 = r)
        ∧ (∃ r ∈ Config.supportedRates, s.argInt 1 = r)
        ∧ filterLookup s.params (s.argInt 0) (s.argInt 1) = some t7
        ∧ s.params.ratioMin ≤ divRound ((s.arg 0).toNat * 2 ^ 27) (s.arg 1).toNat
        ∧ divRound ((s.arg 0).toNat * 2 ^ 27) (s.arg 1).toNat ≤ s.params.ratioMax
        ∧ t7.filterLength % 4 = 0 ∧ 4 ≤ t7.filterLength
        ∧ t7.filterLength ≤ s.params.maxFilterLength ∧ t7.filterLength = s.bufferLength.toNat)
        (withArgs b [44100, 48000]) := by decide +kernel

/-- The two states that accept `FREEFLT` and the setters, and the two that do not. -/
theorem test_witness_FreefltReleasesTheTable :
    pushLinear.lifecycle = .ready ∧ noFilterState.lifecycle = .noFilter
      ∧ fresh.lifecycle = .unconfigured ∧ failedState.lifecycle = .failed
      ∧ isNext (exec .freeflt pushLinear) = true
      ∧ (answer (exec .freeflt pushLinear)).err = .ok := by decide +kernel

theorem test_witness_SettersChangeOneRegister :
    pushLinear.lifecycle = .ready ∧ noFilterState.lifecycle = .noFilter := by decide +kernel

theorem test_witness_LifecycleMovesOnlyAsTheTableSays :
    isNext (exec .init (withArgs fresh [0])) = true
      ∧ isNext (exec .setfs (withArgs noFilterState [48000, 48001])) = true
      ∧ isNext (exec .freeflt fresh) = true ∧ isNext (exec .push32 pushLinear) = true := by
  decide +kernel

theorem test_witness_RefusedCommandChangesOnlyErr :
    accepts failedState.lifecycle .setfs = false ∧ accepts noFilterState.lifecycle .push16 = false
      ∧ accepts fresh.lifecycle .freeflt = false := by decide +kernel

/-! ### Processing -/

/-- A state for each check that fails, after the ones before it pass (V60), and its code. -/
theorem test_witness_ProcessingReportsTheFirstFailingCheck :
    (processCheck 32 .push noFilterState, processCheck 16 .push pushLinear,
      processCheck 32 .pull pushLinear, processCheck 16 .push pushFixed,
      processCheck 16 .push { pushCircular with iptr := pushCircular.iptr.set 1 0x5101 },
      processCheck 32 .push (withArgs pushLinear [0xFFFFFFFF]),
      processCheck 16 .push (withArgs pushCircular [6, 0, 4]))
    = (.invalidPointer, .invalidBitDepth, .failedPullMode, .updateFsFailed, .invalidPointer,
       .failedPushMode, .failedPushMode) := by decide +kernel

/-- P1 and P3, before their pushes. -/
theorem test_witness_PushCompletes :
    (ProcessingAllowed 32 .push pushLinear ∧ ProcessingAllowed 16 .push pushCircular)
      ∧ ∀ s ∈ ([pushLinear, pushCircular] : List State),
        s.dmem.wf = true ∧ 0 < s.fsRatio.toInt ∧ s.fsRatio.toInt ≤ 2 ^ 30
          ∧ s.writePosition.toNat < s.bufferLength.toNat :=
  ⟨⟨pushLinear_allowed, pushCircular_allowed⟩, by decide +kernel⟩

/-- P7 and P2, before their pulls. -/
theorem test_witness_PullCompletes :
    (ProcessingAllowed 32 .pull pullLinear ∧ ProcessingAllowed 16 .pull pullCircular)
      ∧ ∀ s ∈ ([pullLinear, pullCircular] : List State),
        s.dmem.wf = true ∧ 0 < s.fsRatioInv.toInt ∧ s.fsRatioInv.toInt ≤ 2 ^ 30 + 2 ^ 5
          ∧ s.writePosition.toNat < s.bufferLength.toNat :=
  ⟨⟨pullLinear_allowed, pullCircular_allowed⟩, by decide +kernel⟩

/-- P1: four output frames of one channel, apart from each other and from the input. -/
theorem test_witness_OutputIsTheFarrowConvolution :
    ReadyInv pushLinear ∧ ProcessingAllowed 32 .push pushLinear
      ∧ exec .push32 pushLinear = .next (answer (exec .push32 pushLinear))
      ∧ pushLinear.params.wf = true ∧ pushLinear.dmem.wf = true
      ∧ framesDone .push pushLinear = (2, 4)
      ∧ (∀ j < 4, ∀ c < pushLinear.numChannels.toNat, ∀ b < pushLinear.sampleBytes,
          ∀ i < 2, ∀ c' < pushLinear.numChannels.toNat, ∀ b' < pushLinear.sampleBytes,
            outputByte .push pushLinear j c b ≠ inputByte .push pushLinear i c' b')
      ∧ (∀ j < 4, ∀ c < pushLinear.numChannels.toNat, ∀ b < pushLinear.sampleBytes,
          ∀ j' < 4, ∀ c' < pushLinear.numChannels.toNat, ∀ b' < pushLinear.sampleBytes,
            outputByte .push pushLinear j c b = outputByte .push pushLinear j' c' b' →
              j = j' ∧ c = c') := by
  have hc : pushLinear.numChannels.toNat = 1 := by decide +kernel
  have hb : pushLinear.sampleBytes = 4 := by decide +kernel
  have ho : ∀ j < 4, ∀ b < 4, outputByte .push pushLinear j 0 b = 0x2000 + 4 * j + b := by
    decide +kernel
  have hi : ∀ i < 2, ∀ b < 4, inputByte .push pushLinear i 0 b = 0x1000 + 4 * i + b := by
    decide +kernel
  refine ⟨pushLinear_ready, pushLinear_allowed, eq_next_answer (by decide +kernel),
    by decide +kernel, by decide +kernel, by decide +kernel, ?_, ?_⟩
  · intro j hj c h1 b h2 i h3 c' h4 b' h5
    rw [hc] at h1 h4
    rw [hb] at h2 h5
    obtain rfl : c = 0 := by omega
    obtain rfl : c' = 0 := by omega
    rw [ho j hj b h2, hi i h3 b' h5]
    omega
  · intro j hj c h1 b h2 j' h3 c' h4 b' h5
    rw [hc] at h1 h4
    rw [hb] at h2 h5
    obtain rfl : c = 0 := by omega
    obtain rfl : c' = 0 := by omega
    rw [ho j hj b h2, ho j' h3 b' h5]
    omega

/-- P1's two input frames, at once and one at a time. -/
def chunkFirst : State := withArgs pushLinear [1]
def chunkSecond : State :=
  { withArgs (answer (exec .push32 chunkFirst)) [1] with
    iptr := pushLinear.iptr.set 0 0x1004, optr := pushLinear.optr.set 0 0x2008 }

theorem test_witness_PushCountsDoNotDependOnChunking :
    ProcessingAllowed 32 .push chunkFirst ∧ ProcessingAllowed 32 .push chunkSecond
      ∧ isNext (exec .push32 pushLinear) = true ∧ isNext (exec .push32 chunkFirst) = true
      ∧ isNext (exec .push32 chunkSecond) = true
      ∧ chunkFirst.bufferMode = .linear ∧ chunkFirst.controlMode = .feedback
      ∧ 0 < chunkFirst.fsRatio.toInt ∧ chunkFirst.fsRatio.toInt ≤ 2 ^ 30
      ∧ chunkFirst.writePosition.toNat < chunkFirst.bufferLength.toNat
      ∧ chunkFirst.dmem.wf = true ∧ chunkFirst.arg 0 = BitVec.ofNat 32 1 :=
  ⟨(processCheck_ok_iff _ _ _).1 (by decide +kernel),
    (processCheck_ok_iff _ _ _).1 (by decide +kernel), by decide +kernel⟩

theorem test_witness_PushNeverWritesPastTheReadIndex :
    ProcessingAllowed 16 .push pushCircular ∧ pushCircular.bufferMode = .circular
      ∧ exec .push16 pushCircular = .next (answer (exec .push16 pushCircular)) :=
  ⟨pushCircular_allowed, by decide +kernel, eq_next_answer (by decide +kernel)⟩

theorem test_witness_PullNeverReadsPastTheWriteIndex :
    ProcessingAllowed 16 .pull pullCircular ∧ pullCircular.bufferMode = .circular
      ∧ exec .pull16 pullCircular = .next (answer (exec .pull16 pullCircular)) :=
  ⟨pullCircular_allowed, by decide +kernel, eq_next_answer (by decide +kernel)⟩

theorem test_witness_PullOfNoFramesWritesOnlyResults :
    ProcessingAllowed 16 .pull (pullCircular.setArg 1 0)
      ∧ (pullCircular.setArg 1 0).arg 1 = 0 ∧ (pullCircular.setArg 1 0).bufferMode = .circular :=
  ⟨(processCheck_ok_iff _ _ _).1 (by decide +kernel), by decide +kernel⟩

/-- A fixed-mode push without an update, with one, and the failing one's flag. -/
theorem test_witness_FixedModeNeedsAnUpdatePerCommand :
    ProcessingAllowed 16 .push { withArgs pushFixed [6, 0, 0, 0, 4] with fsUpdated := true }
      ∧ pushFixed.controlMode = .fixed ∧ pushFixed.fsUpdated = false
      ∧ (answer (exec .push16 (withArgs pushFixed [6, 0, 0, 0, 4]))).err = .updateFsFailed
      ∧ (answer (exec .push16 pushCircular)).err = .ok
      ∧ isNext (exec .push16 (withArgs pushFixed [6, 0, 0, 0, 4])) = true
      ∧ isNext (exec .push16 pushCircular) = true :=
  ⟨(processCheck_ok_iff _ _ _).1 (by decide +kernel), by decide +kernel⟩

/-- A state no run reaches: the ratio is 0 and an output step is due. -/
theorem test_witness_PushWithZeroRatioNeverEnds :
    ProcessingAllowed 32 .push { pushLinear with fsRatio := 0, timeValue := 0 }
      ∧ pushLinear.bufferMode = .linear ∧ (0 : Word).toInt < Config.one :=
  ⟨(processCheck_ok_iff _ _ _).1 (by decide +kernel), by decide +kernel⟩

/-! ### Errors, reset and the host -/

/-- One failing command of each kind. -/
theorem test_witness_FailingCommandHasNoPartialEffect :
    isNext (exec .init (withArgs fresh [0])) = true
      ∧ (answer (exec .init (withArgs fresh [0]))).err ≠ .ok
      ∧ isNext (exec .push16 fresh) = true ∧ (answer (exec .push16 fresh)).err ≠ .ok := by
  decide +kernel

/-- The most negative frame count. -/
theorem test_witness_InvalidFrameSizeIsNeverReturned :
    ProcessingAllowed 16 .pull pullCircular ∧ (0x80000000 : Word).toInt < 0
      ∧ (0xFFFFFFFF : Word).toInt < 0 :=
  ⟨pullCircular_allowed, by decide⟩

theorem test_witness_HardwareResetFromAnyState :
    (fun s : State => s.busy = false ∧ s.pending = .reset :: []) { pushLinear with pending := [.reset] } := by
  decide +kernel

/-- An argument register, a read-only one, a read, and the same while the block is busy. -/
theorem test_witness_HostAccessTouchesOnlyItsRegister :
    fresh.busy = false ∧ hostRegAt 16 ≠ .cmd ∧ hostRegAt 63 = .optr 15 ∧ hostRegAt 64 = .numChannels
      ∧ hostRegAt 1 = .err ∧ hostRegAt 2 = .status ∧ hostRegAt 255 = .reserved
      ∧ ({ fresh with busy := true }).busy = true := by decide +kernel

theorem test_witness_StepsKeepParametersAndIdle :
    step pushLinear = .next (answer (step pushLinear)) ∧ pushLinear.busy = false :=
  ⟨eq_next_answer (by decide +kernel), by decide +kernel⟩

/-- P1's block is consistent, its parameters are inside their types, and it steps. -/
theorem test_witness_EveryStepKeepsConsistency :
    pushLinear.params.wf = true ∧ Consistent pushLinear
      ∧ step pushLinear = .next (answer (step pushLinear)) := by
  refine ⟨by decide +kernel, ⟨by decide +kernel, by decide +kernel, ?_⟩,
    eq_next_answer (by decide +kernel)⟩
  rw [pushLinear_allowed.ready]
  exact pushLinear_ready

theorem test_witness_NothingStopsTheMachine : testParams.wf = true ∧ Consistent fresh :=
  ⟨by decide +kernel, ⟨rfl, rfl, rfl⟩⟩

end Sys2Proof.Tests
end

section
/-! PROOFS. The arithmetic primitives (spec/00_scope.md R10 to R12). -/

namespace Sys2Proof.Machine

/-! ### The saturating cast (R10) -/

theorem sat_of_lt {n : Nat} {v : Int} (h : v < -(2 ^ (n - 1))) : sat n v = -(2 ^ (n - 1)) := by
  unfold sat
  push_cast
  rw [if_pos h]

theorem sat_of_gt {n : Nat} {v : Int} (h : 2 ^ (n - 1) - 1 < v) : sat n v = 2 ^ (n - 1) - 1 := by
  have hp : (0 : Int) < 2 ^ (n - 1) := by positivity
  unfold sat
  push_cast
  rw [if_neg (by omega), if_pos h]

/-- Settles O6: below, above and inside the range of `intN`, and that the result is in it. -/
theorem saturationClampsToTheType : Obligations.SaturationClampsToTheType := by
  intro n v _
  refine ⟨sat_of_lt, sat_of_gt, fun lo hi => ?_, sat_mem n v⟩
  exact sat_of_mem (by push_cast; exact lo) (by push_cast; omega)

/-! ### The symmetric rounding shift (R11) -/

/-- The formula of the rule, over the integers. -/
theorem rshrSym_eq_sign_mul (v : Int) (s : Nat) :
    rshrSym v s = Int.sign v * ((|v| + 2 ^ (s - 1)) / 2 ^ s) := by
  unfold rshrSym
  push_cast
  rfl

theorem rshrSym_neg (v : Int) (s : Nat) : rshrSym (-v) s = -rshrSym v s := by
  rw [rshrSym_eq_sign_mul, rshrSym_eq_sign_mul, Int.sign_neg, abs_neg, neg_mul]

/-- On a magnitude the shift is the floor alone; at zero too, where half a unit is floored away. -/
theorem rshrSym_of_nonneg {v : Int} (hv : 0 ≤ v) {s : Nat} (hs : 1 ≤ s) :
    rshrSym v s = (v + 2 ^ (s - 1)) / 2 ^ s := by
  rw [rshrSym_eq_sign_mul, abs_of_nonneg hv]
  rcases hv.eq_or_lt with rfl | pos
  · have below : (2 : Int) ^ (s - 1) < 2 ^ s := pow_lt_pow_right₀ one_lt_two (by omega)
    rw [Int.sign_zero, zero_mul, zero_add, Int.ediv_eq_zero_of_lt (by positivity) below]
  · rw [Int.sign_eq_one_of_pos pos, one_mul]

/-- A tie on a magnitude goes up: the floor of the rule never leaves a remainder of half a unit. -/
theorem lt_two_pow_mul_rshrSym_of_tie {v : Int} (hv : 0 ≤ v) {s : Nat} (hs : 1 ≤ s)
    (tie : 2 * |2 ^ s * rshrSym v s - v| = 2 ^ s) : v < 2 ^ s * rshrSym v s := by
  have unit : (2 : Int) ^ s = 2 * 2 ^ (s - 1) := (mul_pow_sub_one (by omega) 2).symm
  have floor : v + 2 ^ (s - 1) < 2 ^ s * rshrSym v s + 2 ^ s := by
    rw [rshrSym_of_nonneg hv hs]
    exact Int.lt_mul_ediv_self_add (by positivity)
  by_contra h
  rw [abs_of_nonpos (by omega)] at tie
  omega

/-- A tie goes away from zero: the negative half follows from the positive one by oddness. -/
theorem abs_lt_abs_two_pow_mul_rshrSym_of_tie (v : Int) {s : Nat} (hs : 1 ≤ s)
    (tie : 2 * |2 ^ s * rshrSym v s - v| = 2 ^ s) : |v| < |2 ^ s * rshrSym v s| := by
  rcases le_total 0 v with hv | hv
  · calc |v| = v := abs_of_nonneg hv
      _ < 2 ^ s * rshrSym v s := lt_two_pow_mul_rshrSym_of_tie hv hs tie
      _ ≤ |2 ^ s * rshrSym v s| := le_abs_self _
  · have mirrored : 2 ^ s * rshrSym (-v) s - -v = -(2 ^ s * rshrSym v s - v) := by
      rw [rshrSym_neg]
      ring
    have tie' : 2 * |2 ^ s * rshrSym (-v) s - -v| = 2 ^ s := by rwa [mirrored, abs_neg]
    calc |v| = -v := abs_of_nonpos hv
      _ < 2 ^ s * rshrSym (-v) s := lt_two_pow_mul_rshrSym_of_tie (neg_nonneg.mpr hv) hs tie'
      _ = -(2 ^ s * rshrSym v s) := by rw [rshrSym_neg, mul_neg]
      _ ≤ |2 ^ s * rshrSym v s| := neg_le_abs _

/-- Settles O7: the formula, its distance from the quotient, its ties and its oddness, each by its
lemma; the examples by evaluation. -/
theorem roundingShiftIsNearestAndOdd : Obligations.RoundingShiftIsNearestAndOdd := by
  refine ⟨fun v s hs => ⟨rshrSym_eq_sign_mul v s, ?_,
    abs_lt_abs_two_pow_mul_rshrSym_of_tie v hs, rshrSym_neg v s⟩, by decide⟩
  have near := rshrSym_near v hs
  push_cast at near
  exact near

/-! ### The rounded division (R12) -/

/-- Settles O8: the quotient is within half a unit, the lower side strictly, so a tie goes up. -/
theorem roundedDivisionIsNearest : Obligations.RoundedDivisionIsNearest := by
  refine ⟨fun n d hd => ?_, by decide⟩
  obtain ⟨upper, lower⟩ := divRound_near n hd
  rw [mul_add_one] at lower
  zify at upper lower
  exact ⟨rfl, by omega, by omega⟩

end Sys2Proof.Machine
end

section
/-! PROOFS. The word `STATUS` (spec/10_state.md R28): which bits each of its three parts can set, and its
fields from that. -/

namespace Sys2Proof.Machine

/-! ### The word bit by bit -/

/-- R29's numbers need two bits. -/
theorem lifecycleNumber_getLsbD_of_two_le (l : Lifecycle) {i : Nat} (hi : 2 ≤ i) :
    (lifecycleNumber l).getLsbD i = false := by
  have small : (lifecycleNumber l).toNat < 2 ^ 2 := by cases l <;> decide
  exact Nat.testBit_lt_two_pow (small.trans_le (Nat.pow_le_pow_right two_pos hi))

/-- The mask of a flag at bit `k` sets that bit alone. -/
theorem flagMask_getLsbD (b : Bool) {k : Nat} (hk : k < 32) (i : Nat) :
    (if b then BitVec.twoPow 32 k else 0).getLsbD i = (b && decide (i = k)) := by
  cases b
  · simp
  · simp [BitVec.getLsbD_twoPow, hk, eq_comm]

/-- The only places where a bit of `STATUS` comes from: the lifecycle number and the two flags. -/
theorem statusWord_getLsbD (s : State) (i : Nat) :
    (statusWord s).getLsbD i =
      ((lifecycleNumber s.lifecycle).getLsbD i
        || (s.fsUpdated && decide (i = 8)) || (s.busy && decide (i = 31))) := by
  rw [← flagMask_getLsbD s.fsUpdated (k := 8) (by decide),
    ← flagMask_getLsbD s.busy (k := 31) (by decide), ← BitVec.getLsbD_or, ← BitVec.getLsbD_or]
  rfl

/-! ### The fields -/

/-- Below the flags the word is the lifecycle number. -/
theorem statusWord_stateField (s : State) :
    (statusWord s).extractLsb' 0 2 = (lifecycleNumber s.lifecycle).extractLsb' 0 2 := by
  apply BitVec.eq_of_getLsbD_eq
  intro i hi
  have notFlag : i ≠ 8 ∧ i ≠ 31 := by omega
  simp [statusWord_getLsbD, notFlag]

/-- A field above `STATE` that holds neither flag's bit reads 0. -/
theorem statusWord_reservedField (s : State) {lo len : Nat} (above : 2 ≤ lo)
    (noFlag : ∀ i < len, lo + i ≠ 8 ∧ lo + i ≠ 31) : (statusWord s).extractLsb' lo len = 0 := by
  apply BitVec.eq_of_getLsbD_eq
  intro i hi
  have noState : (lifecycleNumber s.lifecycle).getLsbD (lo + i) = false :=
    lifecycleNumber_getLsbD_of_two_le _ (by omega)
  simp [statusWord_getLsbD, noState, noFlag i hi]

theorem statusWord_fsUpdatedBit (s : State) : (statusWord s).getLsbD 8 = s.fsUpdated := by
  rw [statusWord_getLsbD, lifecycleNumber_getLsbD_of_two_le _ (by decide)]
  simp

theorem statusWord_busyBit (s : State) : (statusWord s).getLsbD 31 = s.busy := by
  rw [statusWord_getLsbD, lifecycleNumber_getLsbD_of_two_le _ (by decide)]
  simp

/-- Settles O52: each field by its lemma, the number in `STATE` by cases on the lifecycle state; the
reset word by evaluation. -/
theorem statusWordFields : Obligations.StatusWordFields := by
  refine ⟨fun s => ⟨?_, ?_, statusWord_fsUpdatedBit s, ?_, statusWord_busyBit s⟩, rfl⟩
  · rw [statusWord_stateField]
    cases s.lifecycle <;> rfl
  · exact statusWord_reservedField s (by decide) (by omega)
  · exact statusWord_reservedField s (by decide) (by omega)

end Sys2Proof.Machine
end

section
/-! PROOFS. Where a sample lies (spec/20_memory.md R66): an offset is added modulo `2^32`, and the two
layouts differ in the pointer and in the offset alone. -/

namespace Sys2Proof.Machine

/-- The wrap of the rule: the product of the offset is unbounded, its sum with the pointer is reduced. -/
theorem toNat_add_ofNat (base : Word) (offset : Nat) :
    (base + BitVec.ofNat 32 offset).toNat = (base.toNat + offset) % 2 ^ 32 := by
  rw [BitVec.toNat_add, BitVec.toNat_ofNat, Nat.add_mod_mod]

theorem pointer_of_lt (p : Vector Word 16) {c : Nat} (h : c < 16) : pointer p c = p[c] := by
  simp [pointer, h]

theorem toNat_sampleAddr_interleaved (p : Vector Word 16) (channels bytes f c : Nat) :
    (sampleAddr p .interleaved channels bytes f c).toNat
      = (p[0].toNat + (f * channels + c) * bytes) % 2 ^ 32 :=
  toNat_add_ofNat p[0] _

theorem toNat_sampleAddr_deinterleaved (p : Vector Word 16) (channels bytes f : Nat) {c : Nat}
    (h : c < 16) :
    (sampleAddr p .deinterleaved channels bytes f c).toNat = (p[c].toNat + f * bytes) % 2 ^ 32 := by
  rw [← pointer_of_lt p h]
  exact toNat_add_ofNat (pointer p c) _

/-- With the base pointer known, the interleaved address depends on no other pointer. -/
theorem sampleAddr_interleaved_set_zero (p : Vector Word 16) (base : Word) (channels bytes f c : Nat) :
    sampleAddr (p.set 0 base) .interleaved channels bytes f c
      = base + BitVec.ofNat 32 ((f * channels + c) * bytes) :=
  congrArg (· + _) (Vector.getElem_set_self (by decide))

/-- Settles O10: each layout by its formula; the example has only its base pointer to look up. -/
theorem sampleAddressFormula : Obligations.SampleAddressFormula := by
  intro p channels bytes f c
  refine ⟨toNat_sampleAddr_interleaved p channels bytes f c,
    toNat_sampleAddr_deinterleaved p channels bytes f, ?_⟩
  rw [sampleAddr_interleaved_set_zero]
  decide

end Sys2Proof.Machine
end

section
/-! PROOFS. The decoder and the opcode map (spec/30_encoding.md R91 to R99): no word matches two rows, so
decoding a word is finding its row, and a word is illegal exactly when it matches none. -/

namespace Sys2Proof

/-! ### Masks and fields -/

/-- A match by a mask that covers a field fixes that field of the word. -/
theorem extractLsb'_eq_of_and_eq {w mask value : Word} {lo len : Nat}
    (covered : mask.extractLsb' lo len = BitVec.allOnes len)
    (hit : w &&& mask = value) : w.extractLsb' lo len = value.extractLsb' lo len := by
  rw [← hit, BitVec.extractLsb'_and, covered, BitVec.and_allOnes]

/-- Every mask of the map keeps the bits of the format I mask, and no match value has another bit. -/
theorem maskI_and_of_mem_opcodeMap :
    ∀ row ∈ opcodeMap, row.1 &&& maskI = maskI ∧ row.2.1 &&& maskI = row.2.1 := by
  decide

section

variable {w : Word} {row row' : Word × Word × (Bool → Instr)}

/-- So the format I mask reads the match value off a word of either format. -/
theorem and_maskI_eq_of_hit (mem : row ∈ opcodeMap) (hit : w &&& row.1 = row.2.1) :
    w &&& maskI = row.2.1 := by
  obtain ⟨maskCovers, valueInside⟩ := maskI_and_of_mem_opcodeMap row mem
  calc w &&& maskI = w &&& row.1 &&& maskI := by rw [BitVec.and_assoc, maskCovers]
    _ = row.2.1 := by rw [hit, valueInside]

/-- The low half of a legal word, bits 15:0, is that of a row of R96: no mask clears a bit of it. -/
theorem lowHalf_of_hit (mem : row ∈ opcodeMap) (hit : w &&& row.1 = row.2.1) :
    w.extractLsb' 0 16 = row.2.1.extractLsb' 0 16 :=
  extractLsb'_eq_of_and_eq rfl (and_maskI_eq_of_hit mem hit)

/-! ### One row a word, one row a command -/

/-- The match values of the map are distinct, so no word matches two rows (R98). -/
theorem row_eq_of_hit (mem : row ∈ opcodeMap) (mem' : row' ∈ opcodeMap)
    (hit : w &&& row.1 = row.2.1) (hit' : w &&& row'.1 = row'.2.1) : row = row' := by
  have distinct : (opcodeMap.map (fun row => row.2.1)).Nodup := by decide
  exact List.inj_on_of_nodup_map distinct mem mem'
    ((and_maskI_eq_of_hit mem hit).symm.trans (and_maskI_eq_of_hit mem' hit'))

/-- Whatever the immediate bit, no two rows name one command. -/
theorem row_eq_of_command {b : Bool} (mem : row ∈ opcodeMap) (mem' : row' ∈ opcodeMap)
    (same : row.2.2 b = row'.2.2 b) : row = row' := by
  have distinct : ∀ b, (opcodeMap.map (fun row => row.2.2 b)).Nodup := by decide
  exact List.inj_on_of_nodup_map (distinct b) mem mem' same

/-! ### Decoding by rows -/

theorem decode_of_no_hit (noHit : ∀ row ∈ opcodeMap, w &&& row.1 ≠ row.2.1) :
    decode w = .error (illegalReason w) := by
  have notFound : opcodeMap.find? (fun row => w &&& row.1 == row.2.1) = .none :=
    List.find?_eq_none.mpr (by simpa using noHit)
  rw [decode, notFound]

theorem decode_of_hit (mem : row ∈ opcodeMap) (hit : w &&& row.1 = row.2.1) :
    decode w = .ok (row.2.2 (immBit w)) := by
  unfold decode
  split
  case h_1 row' found =>
    have hit' : w &&& row'.1 = row'.2.1 := by simpa using List.find?_some found
    rw [row_eq_of_hit (List.mem_of_find?_eq_some found) mem hit' hit]
  case h_2 notFound =>
    exact absurd hit (by simpa using List.find?_eq_none.mp notFound row mem)

/-- What the decoder answers comes from a row the word matches. -/
theorem exists_hit_of_decode {i : Instr} (h : decode w = .ok i) :
    ∃ row ∈ opcodeMap, w &&& row.1 = row.2.1 ∧ row.2.2 (immBit w) = i := by
  by_contra noRow
  have noHit : ∀ row ∈ opcodeMap, w &&& row.1 ≠ row.2.1 := fun row mem hit =>
    noRow ⟨row, mem, hit, Except.ok.inj ((decode_of_hit mem hit).symm.trans h)⟩
  rw [decode_of_no_hit noHit] at h
  cases h

/-- R96, for a row of the map. -/
theorem hit_iff_decode (mem : row ∈ opcodeMap) :
    w &&& row.1 = row.2.1 ↔ decode w = .ok (row.2.2 (immBit w)) := by
  refine ⟨decode_of_hit mem, fun h => ?_⟩
  obtain ⟨row', mem', hit, same⟩ := exists_hit_of_decode h
  rwa [row_eq_of_command mem' mem same] at hit

end

/-- Settles O2: its thirteen equivalences are the rows of the map, in order. -/
theorem wordIsCommandIffItMatchesItsRow : Obligations.WordIsCommandIffItMatchesItsRow := by
  intro w
  have rows : opcodeMap.Forall
      (fun row => w &&& row.1 = row.2.1 ↔ decode w = .ok (row.2.2 (immBit w))) :=
    List.forall_iff_forall_mem.mpr (fun row mem => hit_iff_decode mem)
  exact rows

/-! ### Illegal words (R99) -/

theorem opcode_mem_of_decode {w : Word} {i : Instr} (h : decode w = .ok i) :
    w.extractLsb' 0 8 ∈ ([0x01, 0x02, 0x03, 0x04, 0x10, 0x20, 0x30] : List (BitVec 8)) := by
  obtain ⟨row, mem, hit, -⟩ := exists_hit_of_decode h
  rw [extractLsb'_eq_of_and_eq rfl (and_maskI_eq_of_hit mem hit)]
  clear hit
  revert row
  decide

theorem lowHalf_mem_of_decode {w : Word} {i : Instr} (h : decode w = .ok i) :
    w.extractLsb' 0 16 ∈ ([0x0001, 0x0002, 0x0003, 0x0004, 0x0010, 0x0110, 0x0210,
      0x0020, 0x0120, 0x0030, 0x0130, 0x0230, 0x0330] : List (BitVec 16)) := by
  obtain ⟨row, mem, hit, -⟩ := exists_hit_of_decode h
  rw [lowHalf_of_hit mem hit]
  clear hit
  revert row
  decide

/-- The rows whose low half is a format Z command's have the full mask and no immediate (R92, R96). -/
theorem maskZ_of_formatZ_lowHalf : ∀ row ∈ opcodeMap,
    row.2.1.extractLsb' 0 16 ∈ ([0x0001, 0x0002, 0x0003, 0x0004, 0x0020, 0x0120, 0x0030,
      0x0130, 0x0230, 0x0330] : List (BitVec 16)) →
    row.1 = maskZ ∧ row.2.1.extractLsb' 16 16 = 0 := by
  decide

theorem immField_eq_zero_of_decode {w : Word} {i : Instr} (h : decode w = .ok i)
    (formatZ : w.extractLsb' 0 16 ∈ ([0x0001, 0x0002, 0x0003, 0x0004, 0x0020, 0x0120, 0x0030,
      0x0130, 0x0230, 0x0330] : List (BitVec 16))) : w.extractLsb' 16 16 = 0 := by
  obtain ⟨row, mem, hit, -⟩ := exists_hit_of_decode h
  rw [lowHalf_of_hit mem hit] at formatZ
  obtain ⟨fullMask, noImmediate⟩ := maskZ_of_formatZ_lowHalf row mem formatZ
  rw [fullMask] at hit
  exact (extractLsb'_eq_of_and_eq rfl hit).trans noImmediate

/-- Bits 31:17 of a legal word are clear, in both formats (R92, R93). -/
theorem highImmediate_eq_zero_of_decode {w : Word} {i : Instr} (h : decode w = .ok i) :
    w.extractLsb' 17 15 = 0 := by
  have clearInMap : ∀ row ∈ opcodeMap, row.2.1.extractLsb' 17 15 = 0 := by decide
  obtain ⟨row, mem, hit, -⟩ := exists_hit_of_decode h
  exact (extractLsb'_eq_of_and_eq rfl (and_maskI_eq_of_hit mem hit)).trans (clearInMap row mem)

/-- The example words of the rule. -/
theorem decode_illegal_examples :
    ([0x00000000, 0x00000430, 0x00000310, 0x00000220, 0x00000102, 0x00010002,
      0x00020010] : List Word).Forall (fun w => decode w = .error (illegalReason w)) := by
  decide

end Sys2Proof

namespace Sys2Proof.Machine

/-- The step of an idle block whose host is about to write to `CMD`. -/
theorem step_of_cmd_write {s : State} {w : Word} {rest : List HostEvent} (idle : s.busy = false)
    (next : s.pending = .write 0 w :: rest) : step s = runCommand w { s with pending := rest } := by
  simp only [step, serveNext, next, serve, idle]
  rfl

theorem runCommand_of_error {w : Word} {e : DecodeError} (h : decode w = .error e) (s : State) :
    runCommand w s = .next { s with err := .illegalCommand } := by
  rw [runCommand, h]
  rfl

/-- Settles O4: a word no row matches runs `ILLEGAL`, and the kinds of words listed each lack what every
legal word has. -/
theorem illegalWordChangesOnlyErr : Obligations.IllegalWordChangesOnlyErr := by
  refine ⟨fun w s rest noMatch idle next => ?_, rfl, fun w listed i h => ?_,
    fun w unused i h => unused (opcode_mem_of_decode h),
    fun w undefined i h => undefined (lowHalf_mem_of_decode h),
    fun w formatZ nonzero i h => nonzero (immField_eq_zero_of_decode h formatZ),
    fun w _ nonzero i h => nonzero (highImmediate_eq_zero_of_decode h)⟩
  · have noHit : ∀ row ∈ opcodeMap, w &&& row.1 ≠ row.2.1 := fun row mem =>
      noMatch (row.1, row.2.1) (List.mem_map_of_mem (f := fun row => (row.1, row.2.1)) mem)
    rw [step_of_cmd_write idle next, runCommand_of_error (decode_of_no_hit noHit)]
  · rw [List.forall_iff_forall_mem.mp decode_illegal_examples w listed] at h
    cases h

end Sys2Proof.Machine
end

section
/-! PROOFS. `INIT` with a malformed enumeration operand (spec/30_encoding.md R101). -/

namespace Sys2Proof.Machine

/-- One malformed enumeration operand is enough for the check of all five to fail. -/
theorem initEnumsOk_eq_false {s : State} {i : Fin 16} (mem : i ∈ ([3, 4, 5, 8, 9] : List (Fin 16)))
    (ne_zero : s.argInt i ≠ 0) (ne_one : s.argInt i ≠ 1) : initEnumsOk s = false := by
  rw [← Bool.not_eq_true, initEnumsOk_iff]
  exact fun allBits => (allBits i mem).elim ne_zero ne_one

/-- The check comes before everything else `INIT` does, so `ILLEGAL` is all there is. -/
theorem execInit_of_malformed {s : State} (malformed : initEnumsOk s = false) :
    execInit s = .next { s with err := .illegalCommand } := by
  rw [execInit, if_pos malformed]
  rfl

/-- Settles O28: `INIT` stops at its first check. -/
theorem initMalformedEnumerationChangesOnlyErr :
    Obligations.InitMalformedEnumerationChangesOnlyErr := by
  intro s i mem ne_zero ne_one
  exact execInit_of_malformed (initEnumsOk_eq_false mem ne_zero ne_one)

end Sys2Proof.Machine
end

section
/-! PROOFS. The cursor of the ring (spec/40_ring_buffer.md R122). -/

namespace Sys2Proof.Machine

/-- A cursor inside the ring has only one place to wrap from, the last cell, and the remainder is below
`BUFFER_LENGTH`, so the 32-bit cursor holds it. -/
theorem toNat_ringAdvance_writePosition {s : State}
    (inside : s.writePosition.toNat < s.bufferLength.toNat) :
    (ringAdvance s).writePosition.toNat =
      if s.writePosition.toNat + 1 < s.bufferLength.toNat then s.writePosition.toNat + 1 else 0 := by
  have fits : (s.writePosition.toNat + 1) % s.bufferLength.toNat < 2 ^ 32 :=
    (Nat.mod_lt _ (Nat.zero_lt_of_lt inside)).trans s.bufferLength.isLt
  rw [ringAdvance_writePosition, toNat_ofNat_of_lt fits]
  split
  case isTrue notLast => exact Nat.mod_eq_of_lt notLast
  case isFalse last =>
    have atEnd : s.writePosition.toNat + 1 = s.bufferLength.toNat := by omega
    rw [atEnd, Nat.mod_self]

/-- With two cells the cell after the last one, 0, is another cell. -/
theorem ringAdvance_writePosition_ne {s : State}
    (inside : s.writePosition.toNat < s.bufferLength.toNat) (two : 2 ≤ s.bufferLength.toNat) :
    (ringAdvance s).writePosition ≠ s.writePosition := by
  intro stays
  have cursor := toNat_ringAdvance_writePosition inside
  rw [stays] at cursor
  split at cursor <;> omega

/-- Settles O12: the frame is the update itself; the wrap and the movement are the two lemmas above. -/
theorem ringAdvanceWraps : Obligations.RingAdvanceWraps := by
  intro s inside
  exact ⟨rfl, toNat_ringAdvance_writePosition inside, ringAdvance_writePosition_ne inside⟩

end Sys2Proof.Machine
end

section
/-! PROOFS. The evaluators of the Impulse Response Generator
(spec/41_impulse_response.md R138 to R142). -/

namespace Sys2Proof.Machine

/-- R138 and R142: the cubic evaluator takes three steps down from row 3. -/
theorem irgenN4_eq_hornerDown (g : Nat → Int) (tw : Int) :
    irgenN4 g tw = hornerDown g tw 3 (g 3) := rfl

/-- R139 and R142: the quartic evaluator takes four steps down from row 4. -/
theorem irgenN5_eq_hornerDown (g : Nat → Int) (tw : Int) :
    irgenN5 g tw = hornerDown g tw 4 (g 4) := rfl

/-- R140 and R142: the quintic evaluator takes five steps down from row 5. -/
theorem irgenN6_eq_hornerDown (g : Nat → Int) (tw : Int) :
    irgenN6 g tw = hornerDown g tw 5 (g 5) := rfl

/-- R141 and R142: the sextic evaluator takes six steps down from row 6. -/
theorem irgenN7_eq_hornerDown (g : Nat → Int) (tw : Int) :
    irgenN7 g tw = hornerDown g tw 6 (g 6) := rfl

/-- R142: whichever evaluator `NUM_FILTERS` selects, the tap is the one recurrence from the last row. -/
theorem irgenTap_eq_hornerDown {s : State} (four_le : 4 ≤ s.numFilters.toNat)
    (le_seven : s.numFilters.toNat ≤ 7) (t : Int) (m : Nat) :
    irgenTap s t m =
      hornerDown (fun j => coefCell s j m) (timeScaled t) (s.numFilters.toNat - 1)
        (coefCell s (s.numFilters.toNat - 1) m) := by
  have selected : s.numFilters.toNat = 4 ∨ s.numFilters.toNat = 5 ∨ s.numFilters.toNat = 6
      ∨ s.numFilters.toNat = 7 := by omega
  obtain four | five | six | seven := selected
  · simp only [irgenTap, four, irgenN4_eq_hornerDown]
  · simp only [irgenTap, five, irgenN5_eq_hornerDown]
  · simp only [irgenTap, six, irgenN6_eq_hornerDown]
  · simp only [irgenTap, seven, irgenN7_eq_hornerDown]

/-- `IRGEN` writes one tap for each `m < FILTER_LENGTH` (R135). -/
theorem length_irgen_ir (t : Int) (s : State) :
    (irgen t s).ir.length = s.filterLength.toNat := by
  rw [irgen_ir, List.length_map, List.length_range]

/-- Settles O16: the frame is the update itself; each cell of `IR` holds its tap unchanged, an `int32`,
and the tap is the recurrence. -/
theorem evaluatorsFollowTheRecurrence : Obligations.EvaluatorsFollowTheRecurrence := by
  intro s t four_le le_seven
  refine ⟨rfl, length_irgen_ir t s, fun m inside => ?_⟩
  calc irCell (irgen t s) m
      = irgenTap s t m := irCell_irgen four_le le_seven t inside
    _ = hornerDown (fun j => coefCell s j m) (t * 16) (s.numFilters.toNat - 1)
          (coefCell s (s.numFilters.toNat - 1) m) := irgenTap_eq_hornerDown four_le le_seven t m

end Sys2Proof.Machine
end

section
/-! PROOFS. The input step of the Rate/Time Tracker (spec/43_rate_time_tracker.md R173). -/

namespace Sys2Proof.Machine

/-- The subtraction from the time comes after the channel writes and leaves the ring to them. -/
theorem trkConsume_ring (d : OperationMode) (f : Nat) (s : State) :
    (trkConsume d f s).ring = (loadChannels f (List.range s.numChannels.toNat) s).ring := by
  rw [trkConsume_eq, frameWrite_ring]

/-- The frame of R173 with the step's own ring and cursor named, not the frame write's: every other
register, and DMEM, is as before. -/
theorem trkConsume_frame (d : OperationMode) (f : Nat) (s : State) :
    trkConsume d f s =
      { s with
        ring := (trkConsume d f s).ring, writePosition := (trkConsume d f s).writePosition
        timeValue := (trkConsume d f s).timeValue
        timeValuePull := (trkConsume d f s).timeValuePull } := by
  rw [trkConsume_ring, ← frameWrite_ring, trkConsume_writePosition]
  exact trkConsume_eq d f s

/-- A channel in use takes its loaded sample at the cursor the step began with (R121, R173). -/
theorem trkConsume_row_of_used (d : OperationMode) (f : Nat) {s : State} {c : Nat}
    (used : c < s.numChannels.toNat) :
    (trkConsume d f s).ring[c]? =
      (s.ring[c]?).map (fun row => row.set s.writePosition.toNat (toWord (inLoad s f c))) := by
  rw [trkConsume_ring, loadChannels_ring, if_pos (List.mem_range.2 used)]

/-- The loop of R173 stops at channel `C - 1`: no row above it is written. -/
theorem trkConsume_row_of_unused (d : OperationMode) (f : Nat) {s : State} {c : Nat}
    (unused : s.numChannels.toNat ≤ c) : (trkConsume d f s).ring[c]? = s.ring[c]? := by
  have notListed : c ∉ List.range s.numChannels.toNat :=
    fun listed => absurd (List.mem_range.1 listed) unused.not_gt
  rw [trkConsume_ring, loadChannels_ring, if_neg notListed]

/-- Settles O15: the time is exact because the step is due, so the subtraction stays in an `int32`;
ring and cursor are those of the frame write. -/
theorem inputStepConsumesOneFrame : Obligations.InputStepConsumesOneFrame := by
  intro d f s due
  refine ⟨trkConsume_frame d f s, trkConsume_time_of_due f due,
    fun _ other => trkConsume_time_other other f s, ?cursor, ?rows,
    fun _ => trkConsume_row_of_used d f, fun _ => trkConsume_row_of_unused d f⟩
  case cursor => exact (trkConsume_writePosition d f s).trans (frameWrite_writePosition f s)
  case rows => rw [trkConsume_ring, loadChannels_ring_length]

end Sys2Proof.Machine
end

section
/-! PROOFS. The Drift Controller (spec/44_drift_controller.md R186 to R194). -/

namespace Sys2Proof.Machine

/-! ### What each check of `UPDRIFT` decides, in order (R186) -/

section

variable {s : State}

theorem updriftCheck_of_not_ready (notReady : s.lifecycle ≠ .ready) :
    updriftCheck s = .invalidPointer := by
  rw [updriftCheck, if_pos notReady]

theorem updriftCheck_of_not_feedback (ready : s.lifecycle = .ready)
    (mode : s.controlMode ≠ .feedback) : updriftCheck s = .invalidControlMode := by
  rw [updriftCheck, if_neg (not_not.2 ready), if_pos mode]

theorem updriftCheck_of_nonpos (ready : s.lifecycle = .ready) (mode : s.controlMode = .feedback)
    (nonpos : s.argInt 0 ≤ 0) : updriftCheck s = .invalidClockSkew := by
  rw [updriftCheck, if_neg (not_not.2 ready), if_neg (not_not.2 mode), if_pos nonpos]

theorem updriftCheck_of_pos (ready : s.lifecycle = .ready) (mode : s.controlMode = .feedback)
    (pos : 0 < s.argInt 0) : updriftCheck s = .ok := by
  rw [updriftCheck, if_neg (not_not.2 ready), if_neg (not_not.2 mode), if_neg pos.not_ge]

/-! ### What each check of `UPDFS` decides, in order (R190 to R192) -/

theorem updfsCheck_of_not_ready (notReady : s.lifecycle ≠ .ready) :
    updfsCheck s = .invalidPointer := by
  rw [updfsCheck, if_pos notReady]

theorem updfsCheck_of_not_fixed (ready : s.lifecycle = .ready) (mode : s.controlMode ≠ .fixed) :
    updfsCheck s = .invalidControlMode := by
  rw [updfsCheck, if_neg (not_not.2 ready), if_pos mode]

theorem updfsCheck_of_nonpos (ready : s.lifecycle = .ready) (mode : s.controlMode = .fixed)
    (nonpos : s.argInt 0 ≤ 0 ∨ s.argInt 1 ≤ 0) : updfsCheck s = .invalidClockSkew := by
  rw [updfsCheck, if_neg (not_not.2 ready), if_neg (not_not.2 mode), if_pos nonpos]

/-- With both counts positive only the range of the wide quotient is left to check (R191). -/
theorem updfsCheck_of_pos (ready : s.lifecycle = .ready) (mode : s.controlMode = .fixed)
    (pos : 0 < s.argInt 0) (pos' : 0 < s.argInt 1) :
    updfsCheck s =
      if countRatio (s.argInt 0) (s.argInt 1) < s.params.ratioMin
          ∨ s.params.ratioMax < countRatio (s.argInt 0) (s.argInt 1) then .invalidConversionRatio
      else .ok := by
  rw [updfsCheck, if_neg (not_not.2 ready), if_neg (not_not.2 mode),
    if_neg (not_or.2 ⟨pos.not_ge, pos'.not_ge⟩)]

end

/-! ### What the two commands do with the code of their check -/

theorem exec_updrift_of_ok {s : State} (passed : updriftCheck s = .ok) :
    exec .updrift s = .next
      { s with
        err := .ok, fsRatio := toWord (skewedRatio s)
        fsRatioInv := toWord (divRound (2 ^ 54) (skewedRatio s).toNat) } := by
  change execUpdrift s = _
  rw [execUpdrift, passed]
  rfl

/-- The error return writes `ERR` and nothing else (R268). -/
theorem exec_updrift_of_error {s : State} {ec : ErrorCode} (failed : updriftCheck s = ec)
    (error : ec ≠ .ok) : exec .updrift s = .next { s with err := ec } := by
  change execUpdrift s = _
  unfold execUpdrift
  split
  case h_1 passed => exact absurd (failed.symm.trans passed) error
  case h_2 => rw [failed]; rfl

theorem exec_updfs_of_ok {s : State} (passed : updfsCheck s = .ok) :
    exec .updfs s = .next
      { s with
        err := .ok, fsUpdated := true
        fsRatio := toWord (countRatio (s.argInt 0) (s.argInt 1))
        fsRatioInv := toWord (countRatio (s.argInt 1) (s.argInt 0)) } := by
  change execUpdfs s = _
  rw [execUpdfs, passed]
  rfl

/-- The error return writes `ERR` and nothing else (R268). -/
theorem exec_updfs_of_error {s : State} {ec : ErrorCode} (failed : updfsCheck s = ec)
    (error : ec ≠ .ok) : exec .updfs s = .next { s with err := ec } := by
  change execUpdfs s = _
  unfold execUpdfs
  split
  case h_1 passed => exact absurd (failed.symm.trans passed) error
  case h_2 => rw [failed]; rfl

/-- The mode check of `UPDRIFT` comes before the one of its operand (R194). -/
theorem exec_updrift_of_not_feedback {s : State} (ready : s.lifecycle = .ready)
    (mode : s.controlMode ≠ .feedback) :
    exec .updrift s = .next { s with err := .invalidControlMode } :=
  exec_updrift_of_error (updriftCheck_of_not_feedback ready mode) (by decide)

/-- The mode check of `UPDFS` comes before those of its operands (R194). -/
theorem exec_updfs_of_not_fixed {s : State} (ready : s.lifecycle = .ready)
    (mode : s.controlMode ≠ .fixed) :
    exec .updfs s = .next { s with err := .invalidControlMode } :=
  exec_updfs_of_error (updfsCheck_of_not_fixed ready mode) (by decide)

/-- Settles O21: one clause for each answer of the check, and the model's clamped ratio is the one of
the statement. -/
theorem updriftSetsTheSkewedRatio : Obligations.UpdriftSetsTheSkewedRatio := by
  refine ⟨fun s ready mode pos => ?success, fun s notReady => ?lifecycle,
    fun s => exec_updrift_of_not_feedback, fun s ready mode nonpos => ?skew⟩
  case success => exact exec_updrift_of_ok (updriftCheck_of_pos ready mode pos)
  case lifecycle => exact exec_updrift_of_error (updriftCheck_of_not_ready notReady) (by decide)
  case skew => exact exec_updrift_of_error (updriftCheck_of_nonpos ready mode nonpos) (by decide)

/-- Settles O23: one clause for each answer of the check; with positive counts the wide quotient is in
range or it is not. -/
theorem updfsSetsTheMeasuredRatio : Obligations.UpdfsSetsTheMeasuredRatio := by
  refine ⟨fun s ready mode pos pos' => ⟨fun lo hi => ?success, fun outside => ?range⟩,
    fun s notReady => ?lifecycle, fun s => exec_updfs_of_not_fixed,
    fun s ready mode nonpos => ?counts⟩
  case success =>
    have passed : updfsCheck s = .ok :=
      (updfsCheck_of_pos ready mode pos pos').trans (if_neg (not_or.2 ⟨lo.not_gt, hi.not_gt⟩))
    exact exec_updfs_of_ok passed
  case range =>
    have failed : updfsCheck s = .invalidConversionRatio :=
      (updfsCheck_of_pos ready mode pos pos').trans (if_pos outside)
    exact exec_updfs_of_error failed (by decide)
  case lifecycle => exact exec_updfs_of_error (updfsCheck_of_not_ready notReady) (by decide)
  case counts => exact exec_updfs_of_error (updfsCheck_of_nonpos ready mode nonpos) (by decide)

/-- Settles O24: each mode is not the other. -/
theorem wrongModeUpdateChangesOnlyErr : Obligations.WrongModeUpdateChangesOnlyErr := by
  refine ⟨fun s ready fixed => ?drift, fun s ready feedback => ?counts⟩
  case drift => exact exec_updrift_of_not_feedback ready (by rw [fixed]; decide)
  case counts => exact exec_updfs_of_not_fixed ready (by rw [feedback]; decide)

end Sys2Proof.Machine
end

section
/-! PROOFS. The checks of the processing commands (spec/45_mode_dispatcher.md R203). -/

namespace Sys2Proof.Machine

/-! ### What each check decides, in order -/

/-- Check 5 in the terms of the rule: the command's own width gives `B` once check 2 has passed. -/
theorem pointersAligned_iff_of_width {w : Nat} {s : State} (width : s.bitDepth.toNat = w) :
    pointersAligned s = true ↔
      SideAligned s.iptr s.inputFormat s.numChannels.toNat (w / 8)
        ∧ SideAligned s.optr s.outputFormat s.numChannels.toNat (w / 8) := by
  rw [pointersAligned_iff, State.sampleBytes, width]

/-- Check 6 reads `A[0]` for a push and `A[1]` for a pull. -/
theorem argInt_eq_frameCount (d : OperationMode) (s : State) :
    s.argInt (if d = .push then 0 else 1) = frameCount d s := by
  cases d <;> rfl

section

variable {w : Nat} {d : OperationMode} {s : State}

theorem processCheck_of_not_ready (notReady : s.lifecycle ≠ .ready) :
    processCheck w d s = .invalidPointer := by
  rw [processCheck, if_pos notReady]

variable (ready : s.lifecycle = .ready)
include ready

theorem processCheck_of_wrong_width (wrong : s.bitDepth.toNat ≠ w) :
    processCheck w d s = .invalidBitDepth := by
  rw [processCheck, if_neg (not_not.2 ready), if_pos wrong]

variable (width : s.bitDepth.toNat = w)
include width

theorem processCheck_of_wrong_direction (wrong : s.operationMode ≠ d) :
    processCheck w d s = failCode d := by
  rw [processCheck, if_neg (not_not.2 ready), if_neg (not_not.2 width), if_pos wrong]

variable (direction : s.operationMode = d)
include direction

/-- The last four checks, once the first three have passed. -/
theorem processCheck_of_direction :
    processCheck w d s =
      if s.controlMode = .fixed ∧ s.fsUpdated = false then .updateFsFailed
      else if pointersAligned s = false then .invalidPointer
      else if frameCount d s < 0 then failCode d
      else if s.bufferMode = .circular ∧ indicesValid s = false then failCode d
      else .ok := by
  rw [processCheck, if_neg (not_not.2 ready), if_neg (not_not.2 width),
    if_neg (not_not.2 direction)]

theorem processCheck_of_not_updated (notUpdated : ¬ (s.controlMode = .fixed → s.fsUpdated = true)) :
    processCheck w d s = .updateFsFailed := by
  rw [processCheck_of_direction ready width direction, if_pos (by simpa using notUpdated)]

variable (updated : s.controlMode = .fixed → s.fsUpdated = true)
include updated

theorem processCheck_of_not_aligned
    (notAligned : ¬ (SideAligned s.iptr s.inputFormat s.numChannels.toNat (w / 8)
      ∧ SideAligned s.optr s.outputFormat s.numChannels.toNat (w / 8))) :
    processCheck w d s = .invalidPointer := by
  rw [← pointersAligned_iff_of_width width, Bool.not_eq_true] at notAligned
  rw [processCheck_of_direction ready width direction, if_neg (by simpa using updated),
    if_pos notAligned]

variable (aligned : SideAligned s.iptr s.inputFormat s.numChannels.toNat (w / 8)
  ∧ SideAligned s.optr s.outputFormat s.numChannels.toNat (w / 8))
include aligned

/-- The last two checks, once the first five have passed. -/
theorem processCheck_of_aligned :
    processCheck w d s =
      if frameCount d s < 0 then failCode d
      else if s.bufferMode = .circular ∧ indicesValid s = false then failCode d
      else .ok := by
  rw [← pointersAligned_iff_of_width width] at aligned
  rw [processCheck_of_direction ready width direction, if_neg (by simpa using updated),
    if_neg (by simpa using aligned)]

theorem processCheck_of_negative_count (negative : frameCount d s < 0) :
    processCheck w d s = failCode d := by
  rw [processCheck_of_aligned ready width direction updated aligned, if_pos negative]

theorem processCheck_of_invalid_indices (count : 0 ≤ frameCount d s)
    (invalid : ¬ (s.bufferMode = .circular →
      1 < s.argInt 4 ∧ 0 ≤ s.argInt 2 ∧ s.argInt 2 < s.argInt 4
        ∧ 0 ≤ s.argInt 3 ∧ s.argInt 3 < s.argInt 4)) :
    processCheck w d s = failCode d := by
  rw [← indicesValid_iff, Classical.not_imp, Bool.not_eq_true] at invalid
  rw [processCheck_of_aligned ready width direction updated aligned, if_neg count.not_gt,
    if_pos invalid]

end

/-! ### What the four commands do with the code of their checks -/

/-- A command that is not allowed never reaches its loop: the error return is all there is (R268). -/
theorem execPush_of_error {w : Nat} {s : State} {ec : ErrorCode}
    (failed : processCheck w .push s = ec) (error : ec ≠ .ok) :
    execPush w s = .next { s with err := ec } := by
  subst failed
  obtain ⟨allowed, -⟩ | ⟨allowed, -⟩ | ⟨-, answer⟩ := execPush_cases w s
  · exact absurd ((processCheck_ok_iff w .push s).2 allowed) error
  · exact absurd ((processCheck_ok_iff w .push s).2 allowed) error
  · exact answer

/-- The same for the pull direction. -/
theorem execPull_of_error {w : Nat} {s : State} {ec : ErrorCode}
    (failed : processCheck w .pull s = ec) (error : ec ≠ .ok) :
    execPull w s = .next { s with err := ec } := by
  subst failed
  obtain ⟨allowed, -⟩ | ⟨-, answer⟩ := execPull_cases w s
  · exact absurd ((processCheck_ok_iff w .pull s).2 allowed) error
  · exact answer

/-- The four processing commands, each with its `W_cmd`, its direction and its `fail` (R203). -/
def processingCommands : List (Instr × Nat × OperationMode × ErrorCode) :=
  [(.push16, 16, .push, .failedPushMode), (.push32, 32, .push, .failedPushMode),
    (.pull16, 16, .pull, .failedPullMode), (.pull32, 32, .pull, .failedPullMode)]

section

variable {i : Instr} {w : Nat} {d : OperationMode} {fail : ErrorCode}

/-- `fail` is the structural error of the command's direction, and an error. -/
theorem failCode_of_mem_processingCommands (mem : (i, w, d, fail) ∈ processingCommands) :
    failCode d = fail ∧ fail ≠ .ok := by
  have each : ∀ k ∈ processingCommands, failCode k.2.2.1 = k.2.2.2 ∧ k.2.2.2 ≠ .ok := by decide
  exact each _ mem

/-- Each command runs the checks of its own width and direction and returns the code they answer. -/
theorem exec_of_processCheck_error (mem : (i, w, d, fail) ∈ processingCommands) {s : State}
    {ec : ErrorCode} (failed : processCheck w d s = ec) (error : ec ≠ .ok) :
    exec i s = .next { s with err := ec } := by
  simp only [processingCommands, List.mem_cons, Prod.mk.injEq, List.not_mem_nil, or_false] at mem
  obtain ⟨rfl, rfl, rfl, -⟩ | ⟨rfl, rfl, rfl, -⟩ | ⟨rfl, rfl, rfl, -⟩ | ⟨rfl, rfl, rfl, -⟩ := mem
  · exact execPush_of_error failed error
  · exact execPush_of_error failed error
  · exact execPull_of_error failed error
  · exact execPull_of_error failed error

end

/-- Settles O36: each clause is one answer of the checks, and the command returns that answer. -/
theorem processingReportsTheFirstFailingCheck :
    Obligations.ProcessingReportsTheFirstFailingCheck := by
  rintro ⟨i, w, d, fail⟩ mem s
  obtain ⟨failEq, failError⟩ := failCode_of_mem_processingCommands mem
  have failsWith : ∀ {ec}, processCheck w d s = ec → ec ≠ .ok →
      exec i s = .next { s with err := ec } := exec_of_processCheck_error mem
  dsimp only
  rw [argInt_eq_frameCount, ← failEq]
  rw [← failEq] at failError
  refine ⟨fun notReady => ?ready, fun ready wrong => ?width, fun ready width wrong => ?direction,
    fun ready width direction notUpdated => ?updated,
    fun ready width direction updated notAligned => ?aligned,
    fun ready width direction updated aligned negative => ?count,
    fun ready width direction updated aligned count invalid => ?indices⟩
  case ready => exact failsWith (processCheck_of_not_ready notReady) (by decide)
  case width => exact failsWith (processCheck_of_wrong_width ready wrong) (by decide)
  case direction =>
    exact failsWith (processCheck_of_wrong_direction ready width wrong) failError
  case updated =>
    exact failsWith (processCheck_of_not_updated ready width direction notUpdated) (by decide)
  case aligned =>
    exact failsWith (processCheck_of_not_aligned ready width direction updated notAligned)
      (by decide)
  case count =>
    exact failsWith (processCheck_of_negative_count ready width direction updated aligned
      (not_le.1 negative)) failError
  case indices =>
    exact failsWith (processCheck_of_invalid_indices ready width direction updated aligned count
      invalid) failError

end Sys2Proof.Machine
end

section
/-! PROOFS. Which commands the lifecycle state turns away (spec/10_state.md R29), and the setters
(spec/46_configuration.md R245 to R247). -/

namespace Sys2Proof.Machine

/-- `READY` accepts every command, so a command that is turned away was not given in `READY`. -/
theorem ne_ready_of_not_accepted {l : Lifecycle} {i : Instr} (refused : accepts l i = false) :
    l ≠ .ready := by
  rintro rfl
  cases i <;> cases refused

/-- Each command that needs a configuration tests the lifecycle before anything else, so a refusal is
the bare error return. -/
theorem exec_of_not_accepted {i : Instr} {s : State} (refused : accepts s.lifecycle i = false) :
    exec i s = .next { s with err := .invalidPointer } := by
  have notReady : s.lifecycle ≠ .ready := ne_ready_of_not_accepted refused
  cases i with
  | qsize | init => cases refused
  | setfs | freeflt | setifmt _ | setofmt _ | setbmode _ => exact if_pos refused
  | updrift => exact exec_updrift_of_error (updriftCheck_of_not_ready notReady) (by decide)
  | updfs => exact exec_updfs_of_error (updfsCheck_of_not_ready notReady) (by decide)
  | push16 | push32 => exact execPush_of_error (processCheck_of_not_ready notReady) (by decide)
  | pull16 | pull32 => exact execPull_of_error (processCheck_of_not_ready notReady) (by decide)

theorem isConfigured_iff (s : State) :
    isConfigured s = true ↔ s.lifecycle = .ready ∨ s.lifecycle = .noFilter := by
  simp [isConfigured]

/-- Settles O33: a setter has one branch, on whether the block is configured. -/
theorem settersChangeOneRegister : Obligations.SettersChangeOneRegister := by
  refine ⟨fun s configured => ?accepted, fun s notReady notNoFilter => ?refused⟩
  case accepted =>
    have pass : isConfigured s ≠ false := ne_false_of_eq_true ((isConfigured_iff s).2 configured)
    exact ⟨fun _ => if_neg pass, fun _ => if_neg pass, fun _ => if_neg pass⟩
  case refused =>
    have fail : isConfigured s = false := by
      rw [← Bool.not_eq_true, isConfigured_iff]
      exact not_or.2 ⟨notReady, notNoFilter⟩
    exact ⟨fun _ => exec_of_not_accepted fail, fun _ => exec_of_not_accepted fail,
      fun _ => exec_of_not_accepted fail⟩

end Sys2Proof.Machine
end

section
/-! PROOFS. `QSIZE` (spec/46_configuration.md R231). -/

namespace Sys2Proof.Machine

section

variable {s : State}

/-! ### What each check decides, in order -/

theorem qsizeCheck_of_bad_channels
    (bad : ¬ (0 < s.argInt 0 ∧ s.argInt 0 ≤ (s.params.maxChannels : Int))) :
    qsizeCheck s = .invalidNumChannels := by
  rw [← channelsOk_iff, Bool.not_eq_true] at bad
  rw [qsizeCheck, if_pos bad]

theorem qsizeCheck_of_bad_depth
    (channels : 0 < s.argInt 0 ∧ s.argInt 0 ≤ (s.params.maxChannels : Int))
    (bad : ¬ (s.argInt 1 = 16 ∨ s.argInt 1 = 32)) : qsizeCheck s = .invalidBitDepth := by
  rw [← channelsOk_iff] at channels
  rw [← bitDepthOk_iff, Bool.not_eq_true] at bad
  rw [qsizeCheck, if_neg (ne_false_of_eq_true channels), if_pos bad]

theorem qsizeCheck_of_valid
    (channels : 0 < s.argInt 0 ∧ s.argInt 0 ≤ (s.params.maxChannels : Int))
    (depth : s.argInt 1 = 16 ∨ s.argInt 1 = 32) : qsizeCheck s = .ok := by
  rw [← channelsOk_iff] at channels
  rw [← bitDepthOk_iff] at depth
  rw [qsizeCheck, if_neg (ne_false_of_eq_true channels), if_neg (ne_false_of_eq_true depth)]

/-- The query has no lifecycle check to fail (R239). -/
theorem qsizeCheck_ne_invalidPointer (s : State) : qsizeCheck s ≠ .invalidPointer := by
  unfold qsizeCheck
  split
  · decide
  · split <;> decide

/-! ### What the command does with the code of its checks -/

theorem exec_qsize_of_ok (passed : qsizeCheck s = .ok) :
    exec .qsize s = .next
      { s with
        err := .ok
        a := s.a.set 0 (toWord (requiredSize s.params (s.argInt 0) (s.argInt 1))) } := by
  change execQsize s = _
  rw [execQsize, passed]
  rfl

/-- The query has nothing to be fatal to: an error writes `ERR` and leaves the lifecycle (R231). -/
theorem exec_qsize_of_error {ec : ErrorCode} (failed : qsizeCheck s = ec) (error : ec ≠ .ok) :
    exec .qsize s = .next { s with err := ec } := by
  change execQsize s = _
  unfold execQsize
  split
  case h_1 passed => exact absurd (failed.symm.trans passed) error
  case h_2 => rw [failed]; rfl

/-- Whatever the checks answer is the code the command returns. -/
theorem err_of_exec_qsize {t : State} (answer : exec .qsize s = .next t) :
    t.err = qsizeCheck s := by
  by_cases passed : qsizeCheck s = .ok
  · rw [exec_qsize_of_ok passed] at answer
    cases answer
    exact passed.symm
  · rw [exec_qsize_of_error rfl passed] at answer
    cases answer
    rfl

end

/-- The three sizes R231 gives are the formula at the default parameters, where both operands pass. -/
theorem requiredSize_defaults :
    ∀ k ∈ ([(1, 16, 1024), (2, 32, 2560), (8, 32, 8704)] : List (Int × Int × Int)),
      (0 < k.1 ∧ k.1 ≤ (Config.defaults.maxChannels : Int)) ∧ (k.2.1 = 16 ∨ k.2.1 = 32)
        ∧ requiredSize Config.defaults k.1 k.2.1 = k.2.2 := by
  decide

/-- Settles O25: one clause for each answer of the checks, and the three sizes. -/
theorem qsizeReturnsTheRequiredSize : Obligations.QsizeReturnsTheRequiredSize := by
  refine ⟨fun s pos le depth => ?success, fun s outside => ?channels,
    fun s pos le ne16 ne32 => ?depth, fun k mem s defaults nch bd => ?examples⟩
  case success => exact exec_qsize_of_ok (qsizeCheck_of_valid ⟨pos, le⟩ depth)
  case channels =>
    exact exec_qsize_of_error (qsizeCheck_of_bad_channels (by omega)) (by decide)
  case depth =>
    exact exec_qsize_of_error (qsizeCheck_of_bad_depth ⟨pos, le⟩ (not_or.2 ⟨ne16, ne32⟩))
      (by decide)
  case examples =>
    obtain ⟨channels, depth, size⟩ := requiredSize_defaults k mem
    rw [← defaults, ← nch] at channels
    rw [← bd] at depth
    rw [exec_qsize_of_ok (qsizeCheck_of_valid channels depth), defaults, nch, bd, size]

end Sys2Proof.Machine
end

section
/-! PROOFS. `INIT` when a check fails (spec/46_configuration.md R234 to R239). -/

namespace Sys2Proof.Machine

/-! ### What each of checks 4 to 7 decides, in order (R235 to R237) -/

section

variable {p : Params} {fsPrim fsSec bl : Int}

theorem rateCheck_of_bad_rate
    (bad : ¬ ((∃ r ∈ Config.supportedRates, fsPrim = r) ∧ ∃ r ∈ Config.supportedRates, fsSec = r)) :
    rateCheck p fsPrim fsSec bl = .error .invalidSampleRate := by
  obtain ⟨-, answer⟩ | ⟨prim, sec, -⟩ := rateCheck_cases p fsPrim fsSec bl
  · exact answer
  · exact absurd ⟨prim, sec⟩ bad

variable (rates : (∃ r ∈ Config.supportedRates, fsPrim = r) ∧ ∃ r ∈ Config.supportedRates, fsSec = r)
include rates

theorem rateCheck_of_no_table (missing : filterLookup p fsPrim fsSec = none) :
    rateCheck p fsPrim fsSec bl = .error .invalidConversionRatio := by
  obtain ⟨bad, -⟩ | ⟨-, -, ⟨-, answer⟩ | ⟨e, entry, -⟩⟩ := rateCheck_cases p fsPrim fsSec bl
  · exact absurd rates bad
  · exact answer
  · exact nomatch missing.symm.trans entry

variable {e : FilterEntry} (entry : filterLookup p fsPrim fsSec = some e)
include entry

/-- The checks of the ratio and of the filter, once the pair of rates has its table. -/
theorem rateCheck_of_entry :
    rateCheck p fsPrim fsSec bl =
      if nominalRatio fsPrim fsSec < p.ratioMin ∨ p.ratioMax < nominalRatio fsPrim fsSec then
        .error .invalidConversionRatio
      else if filterLengthOk p e.filterLength = false then .error .invalidFilterLength
      else if bl < e.filterLength then .error .invalidBufferLength
      else .ok e := by
  rw [← rateOk_iff, ← rateOk_iff] at rates
  rw [rateCheck, if_neg (not_or.2 (rates.imp ne_false_of_eq_true ne_false_of_eq_true)), entry]

theorem rateCheck_of_ratio_outside
    (outside : nominalRatio fsPrim fsSec < p.ratioMin ∨ p.ratioMax < nominalRatio fsPrim fsSec) :
    rateCheck p fsPrim fsSec bl = .error .invalidConversionRatio := by
  rw [rateCheck_of_entry rates entry, if_pos outside]

variable (lo : p.ratioMin ≤ nominalRatio fsPrim fsSec) (hi : nominalRatio fsPrim fsSec ≤ p.ratioMax)
include lo hi

theorem rateCheck_of_bad_filter_length
    (bad : ¬ (e.filterLength % 4 = 0 ∧ 4 ≤ e.filterLength ∧ e.filterLength ≤ p.maxFilterLength)) :
    rateCheck p fsPrim fsSec bl = .error .invalidFilterLength := by
  rw [← filterLengthOk_iff, Bool.not_eq_true] at bad
  rw [rateCheck_of_entry rates entry, if_neg (not_or.2 ⟨lo.not_gt, hi.not_gt⟩), if_pos bad]

theorem rateCheck_of_short_ring
    (good : e.filterLength % 4 = 0 ∧ 4 ≤ e.filterLength ∧ e.filterLength ≤ p.maxFilterLength)
    (short : bl < (e.filterLength : Int)) :
    rateCheck p fsPrim fsSec bl = .error .invalidBufferLength := by
  rw [← filterLengthOk_iff] at good
  rw [rateCheck_of_entry rates entry, if_neg (not_or.2 ⟨lo.not_gt, hi.not_gt⟩),
    if_neg (ne_false_of_eq_true good), if_pos short]

end

/-! ### What each of checks 1 to 3 decides, in order (R234) -/

section

variable {s : State}

theorem initCheck_of_bad_channels
    (bad : ¬ (0 < s.argInt 0 ∧ s.argInt 0 ≤ (s.params.maxChannels : Int))) :
    initCheck s = .error .invalidNumChannels := by
  rw [← channelsOk_iff, Bool.not_eq_true] at bad
  rw [initCheck, if_pos bad]

variable (channels : 0 < s.argInt 0 ∧ s.argInt 0 ≤ (s.params.maxChannels : Int))
include channels

theorem initCheck_of_bad_depth (bad : ¬ (s.argInt 7 = 16 ∨ s.argInt 7 = 32)) :
    initCheck s = .error .invalidBitDepth := by
  rw [← channelsOk_iff] at channels
  rw [← bitDepthOk_iff, Bool.not_eq_true] at bad
  rw [initCheck, if_neg (ne_false_of_eq_true channels), if_pos bad]

variable (depth : s.argInt 7 = 16 ∨ s.argInt 7 = 32)
include depth

/-- The check of the ring length and those `INIT` shares with `SETFS`, once the first two passed. -/
theorem initCheck_of_depth :
    initCheck s =
      if s.argInt 6 ≤ 1 ∨ (s.params.ringCapacity : Int) < s.argInt 6 then
        .error .invalidBufferLength
      else rateCheck s.params (s.argInt 1) (s.argInt 2) (s.argInt 6) := by
  rw [← channelsOk_iff] at channels
  rw [← bitDepthOk_iff] at depth
  rw [initCheck, if_neg (ne_false_of_eq_true channels), if_neg (ne_false_of_eq_true depth)]

theorem initCheck_of_bad_length
    (bad : ¬ (1 < s.argInt 6 ∧ s.argInt 6 ≤ (s.params.ringCapacity : Int))) :
    initCheck s = .error .invalidBufferLength := by
  rw [initCheck_of_depth channels depth, if_pos (by omega)]

theorem initCheck_of_length
    (length : 1 < s.argInt 6 ∧ s.argInt 6 ≤ (s.params.ringCapacity : Int)) :
    initCheck s = rateCheck s.params (s.argInt 1) (s.argInt 2) (s.argInt 6) := by
  rw [initCheck_of_depth channels depth, if_neg (by omega)]

end

/-! ### What the command does with the answer of its checks -/

theorem exec_init (s : State) : exec .init s = execInit s := rfl

/-- Everything `INIT` can answer: `ILLEGAL` for a malformed operand (R101), the code of the first check
that fails (R239), or the configured state (R238). -/
theorem exec_init_cases (s : State) :
    (initEnumsOk s = false ∧ exec .init s = .next { s with err := .illegalCommand })
    ∨ (∃ ec, initEnumsOk s = true ∧ initCheck s = .error ec
      ∧ exec .init s = .next { s with lifecycle := .failed, err := ec })
    ∨ ∃ e, initEnumsOk s = true ∧ initCheck s = .ok e
      ∧ exec .init s =
        .next (returnCode .ok { install e (writeConfiguration s) with lifecycle := .ready }) := by
  rw [exec_init]
  cases enums : initEnumsOk s with
  | false => exact .inl ⟨rfl, execInit_of_malformed enums⟩
  | true =>
    rw [execInit, if_neg (ne_false_of_eq_true enums)]
    cases check : initCheck s with
    | error ec => exact .inr (.inl ⟨ec, rfl, rfl, rfl⟩)
    | ok e => exact .inr (.inr ⟨e, rfl, rfl, rfl⟩)

theorem exec_init_of_error {s : State} {ec : ErrorCode} (enums : initEnumsOk s = true)
    (failed : initCheck s = .error ec) :
    exec .init s = .next { s with lifecycle := .failed, err := ec } := by
  obtain ⟨malformed, -⟩ | ⟨ec', -, failed', answer⟩ | ⟨e, -, passed, -⟩ := exec_init_cases s
  · exact absurd malformed (ne_false_of_eq_true enums)
  · cases failed.symm.trans failed'
    exact answer
  · exact nomatch failed.symm.trans passed

/-- Settles O29: each clause is one answer of the checks, and the command fails with that answer. -/
theorem initReportsTheFirstFailingCheck : Obligations.InitReportsTheFirstFailingCheck := by
  intro s bits
  have failsWith : ∀ {ec}, initCheck s = .error ec →
      exec .init s = .next { s with lifecycle := .failed, err := ec } :=
    exec_init_of_error ((initEnumsOk_iff s).2 bits)
  refine ⟨fun bad => ?channels, fun channels bad => ?depth, fun channels depth bad => ?length,
    fun channels depth length bad => ?rate,
    fun channels depth length rates missing => ?table,
    fun e channels depth length rates entry => ⟨fun outside => ?ratio,
      fun lo hi => ⟨fun bad => ?filter, fun good short => ?ring⟩⟩⟩
  case channels => exact failsWith (initCheck_of_bad_channels bad)
  case depth => exact failsWith (initCheck_of_bad_depth channels bad)
  case length => exact failsWith (initCheck_of_bad_length channels depth bad)
  all_goals refine failsWith ((initCheck_of_length channels depth length).trans ?_)
  case rate => exact rateCheck_of_bad_rate bad
  case table => exact rateCheck_of_no_table rates missing
  case ratio => exact rateCheck_of_ratio_outside rates entry outside
  case filter => exact rateCheck_of_bad_filter_length rates entry lo hi bad
  case ring => exact rateCheck_of_short_ring rates entry lo hi good short

/-! ### A failed `INIT`, and the `FAILED` state (R239) -/

/-- A check of `INIT` never answers success, the malformed-command code, or the code of a command
turned away. -/
theorem initCheck_error_ne {s : State} {ec : ErrorCode} (failed : initCheck s = .error ec) :
    ec ≠ .ok ∧ ec ≠ .illegalCommand ∧ ec ≠ .invalidPointer := by
  obtain rfl | rfl | rfl | rfl | rfl | rfl := initCheck_error failed <;> decide

/-- The outcomes of `INIT` told apart by the code it returns. -/
theorem eq_or_err_ok_of_exec_init {s t : State} (answer : exec .init s = .next t) :
    t = { s with err := .illegalCommand }
    ∨ (∃ ec, (ec ≠ .ok ∧ ec ≠ .illegalCommand ∧ ec ≠ .invalidPointer)
      ∧ t = { s with lifecycle := .failed, err := ec })
    ∨ t.err = .ok := by
  obtain ⟨-, answer'⟩ | ⟨ec, -, failed, answer'⟩ | ⟨e, -, -, answer'⟩ := exec_init_cases s <;>
    cases answer.symm.trans answer'
  · exact .inl rfl
  · exact .inr (.inl ⟨ec, initCheck_error_ne failed, rfl⟩)
  · exact .inr (.inr rfl)

theorem accepts_failed_eq_false {i : Instr} (notQsize : i ≠ .qsize) (notInit : i ≠ .init) :
    accepts .failed i = false := by
  cases i with
  | qsize => exact absurd rfl notQsize
  | init => exact absurd rfl notInit
  | _ => rfl

/-- Settles O30: the outcomes of `INIT`, and the acceptance table for the commands `FAILED` turns
away. -/
theorem failedInitLeavesEverythingElse : Obligations.FailedInitLeavesEverythingElse := by
  refine ⟨fun s t answer notOk notIllegal => ?failed, fun s t answer illegal => ?malformed,
    fun s i inFailed notQsize notInit => ?refused, fun s t i _ accepted answer => ?accepted⟩
  case failed =>
    obtain rfl | ⟨ec, -, rfl⟩ | ok := eq_or_err_ok_of_exec_init answer
    · exact absurd rfl notIllegal
    · rfl
    · exact absurd ok notOk
  case malformed =>
    obtain rfl | ⟨ec, ⟨-, notIllegal, -⟩, rfl⟩ | ok := eq_or_err_ok_of_exec_init answer
    · rfl
    · exact absurd illegal notIllegal
    · exact nomatch ok.symm.trans illegal
  case refused =>
    refine exec_of_not_accepted ?_
    rw [inFailed]
    exact accepts_failed_eq_false notQsize notInit
  case accepted =>
    obtain rfl | rfl := accepted
    · rw [err_of_exec_qsize answer]
      exact qsizeCheck_ne_invalidPointer s
    · obtain rfl | ⟨ec, ⟨-, -, notTurnedAway⟩, rfl⟩ | ok := eq_or_err_ok_of_exec_init answer
      · exact nofun
      · exact notTurnedAway
      · rw [ok]
        decide

end Sys2Proof.Machine
end

section
/-! PROOFS. The error return (spec/60_exceptions.md R261 to R267): the code a command returns, and how
little an error writes. -/

namespace Sys2Proof.Machine

/-! ### The codes (R261, R262) -/

/-- Settles O48: the word of `ERR` is the model's definition, and the table is read code by code. -/
theorem errorNumbersReadFromErr : Obligations.ErrorNumbersReadFromErr := by
  refine ⟨fun s => rfl, by decide, fun ec => ?number, fun ec => ?column⟩
  case number => cases ec <;> decide
  case column => cases ec <;> decide

/-! ### The codes of the checks: those of `INIT` and `SETFS` are configuration errors (R262), and none is
the invalid frame size (R265) -/

theorem configuration_of_rateCheck_error {p : Params} {a b bl : Int} {ec : ErrorCode}
    (failed : rateCheck p a b bl = .error ec) :
    errorClass ec = .configuration ∧ ec ≠ .invalidFrameSize := by
  obtain rfl | rfl | rfl | rfl := rateCheck_error failed <;> decide

theorem configuration_of_initCheck_error {s : State} {ec : ErrorCode}
    (failed : initCheck s = .error ec) :
    errorClass ec = .configuration ∧ ec ≠ .invalidFrameSize := by
  obtain rfl | rfl | rfl | rfl | rfl | rfl := initCheck_error failed <;> decide

theorem qsizeCheck_ne_invalidFrameSize (s : State) : qsizeCheck s ≠ .invalidFrameSize := by
  unfold qsizeCheck
  split_ifs <;> decide

theorem updriftCheck_ne_invalidFrameSize (s : State) : updriftCheck s ≠ .invalidFrameSize := by
  unfold updriftCheck
  split_ifs <;> decide

theorem updfsCheck_ne_invalidFrameSize (s : State) : updfsCheck s ≠ .invalidFrameSize := by
  unfold updfsCheck
  split_ifs <;> decide

/-! ### What a command that returns an error writes (R262, R267) -/

/-- The errors that cost the block its configuration: `INIT` past its enumeration check (R101) and
`SETFS` past its lifecycle check (R241). -/
def LosesConfiguration (i : Instr) (s : State) (ec : ErrorCode) : Prop :=
  (i = .init ∧ ec ≠ .illegalCommand)
    ∨ (i = .setfs ∧ (s.lifecycle = .ready ∨ s.lifecycle = .noFilter))

/-- The two ways a command returns an error: with `ERR` alone, or with `ERR` and `STATE`; never with the
code R265 reserves. -/
inductive ErrorReturn (i : Instr) (s : State) : State → Prop
  | errOnly (ec : ErrorCode) (keeps : ¬ LosesConfiguration i s ec)
      (returned : ec ≠ .invalidFrameSize) : ErrorReturn i s { s with err := ec }
  | failed (ec : ErrorCode) (loses : LosesConfiguration i s ec)
      (config : errorClass ec = .configuration) (returned : ec ≠ .invalidFrameSize) :
      ErrorReturn i s { s with lifecycle := .failed, err := ec }

section

variable {i : Instr} {s t : State}

theorem not_losesConfiguration (notInit : i ≠ .init) (notSetfs : i ≠ .setfs) (ec : ErrorCode) :
    ¬ LosesConfiguration i s ec := by
  rintro (⟨isInit, -⟩ | ⟨isSetfs, -⟩)
  · exact notInit isInit
  · exact notSetfs isSetfs

/-- A command that the lifecycle state turns away loses nothing, `SETFS` among them. -/
theorem errorReturn_of_not_accepted (refused : accepts s.lifecycle i = false)
    (answer : exec i s = .next t) : ErrorReturn i s t := by
  cases (exec_of_not_accepted refused).symm.trans answer
  refine .errOnly _ ?_ (by decide)
  rintro (⟨rfl, -⟩ | ⟨rfl, configured⟩)
  · cases refused
  · exact absurd ((isConfigured_iff s).2 configured) (Bool.eq_false_iff.1 refused)

/-- The commands but `INIT` and `SETFS` answer the code of their checks, and write `ERR` alone when it
is an error. -/
theorem err_ok_or_errorReturn_of_check {ec : ErrorCode} (notInit : i ≠ .init)
    (notSetfs : i ≠ .setfs) (returned : ec ≠ .invalidFrameSize)
    (success : ec = .ok → exec i s = .next t → t.err = .ok)
    (error : ec ≠ .ok → exec i s = .next { s with err := ec })
    (answer : exec i s = .next t) : t.err = .ok ∨ ErrorReturn i s t := by
  by_cases passed : ec = .ok
  · exact .inl (success passed answer)
  · cases (error passed).symm.trans answer
    exact .inr (.errOnly ec (not_losesConfiguration notInit notSetfs ec) returned)

/-- `FREEFLT` and the setters have no check after the one of the lifecycle state (R243 to R247). -/
theorem err_ok_of_configured {u : State} (configured : isConfigured s = true)
    (answer : (if isConfigured s = false then .next (returnCode .invalidPointer s)
      else .next (returnCode .ok u) : Host.Outcome State Fault Refusal) = .next t) :
    t.err = .ok := by
  rw [if_neg (ne_false_of_eq_true configured)] at answer
  cases answer
  rfl

theorem err_ok_of_execPush {w : Nat} (passed : processCheck w .push s = .ok)
    (answer : execPush w s = .next t) : t.err = .ok := by
  obtain ⟨-, p, u, -, done⟩ | ⟨-, -, stuck⟩ | ⟨failed, -⟩ := execPush_cases w s
  · cases done.symm.trans answer
    rfl
  · exact nomatch stuck.symm.trans answer
  · exact absurd passed failed

theorem err_ok_of_execPull {w : Nat} (passed : processCheck w .pull s = .ok)
    (answer : execPull w s = .next t) : t.err = .ok := by
  obtain ⟨-, p, u, -, done⟩ | ⟨failed, -⟩ := execPull_cases w s
  · cases done.symm.trans answer
    rfl
  · exact absurd passed failed

theorem err_ok_or_errorReturn_of_init (answer : exec .init s = .next t) :
    t.err = .ok ∨ ErrorReturn .init s t := by
  obtain ⟨-, malformed⟩ | ⟨ec, -, failed, error⟩ | ⟨e, -, -, success⟩ := exec_init_cases s
  · cases malformed.symm.trans answer
    exact .inr (.errOnly _ (by simp [LosesConfiguration]) (by decide))
  · cases error.symm.trans answer
    obtain ⟨-, notIllegal, -⟩ := initCheck_error_ne failed
    obtain ⟨config, returned⟩ := configuration_of_initCheck_error failed
    exact .inr (.failed ec (.inl ⟨rfl, notIllegal⟩) config returned)
  · cases success.symm.trans answer
    exact .inl rfl

/-- Past its lifecycle check `SETFS` makes the checks it shares with `INIT`, and each is fatal (R241). -/
theorem err_ok_or_errorReturn_of_setfs (configured : isConfigured s = true)
    (answer : exec .setfs s = .next t) : t.err = .ok ∨ ErrorReturn .setfs s t := by
  change execSetfs s = _ at answer
  rw [execSetfs, if_neg (ne_false_of_eq_true configured)] at answer
  cases check : rateCheck s.params (s.argInt 0) (s.argInt 1) s.bufferLength.toNat with
  | error ec =>
    rw [check] at answer
    cases answer
    obtain ⟨config, returned⟩ := configuration_of_rateCheck_error check
    exact .inr (.failed ec (.inr ⟨rfl, (isConfigured_iff s).1 configured⟩) config returned)
  | ok e =>
    rw [check] at answer
    cases answer
    exact .inl rfl

/-- What every command answers, success told from the two error returns. -/
theorem err_ok_or_errorReturn (answer : exec i s = .next t) : t.err = .ok ∨ ErrorReturn i s t := by
  cases accepted : accepts s.lifecycle i with
  | false => exact .inr (errorReturn_of_not_accepted accepted answer)
  | true =>
    cases i with
    | init => exact err_ok_or_errorReturn_of_init answer
    | setfs => exact err_ok_or_errorReturn_of_setfs accepted answer
    | freeflt | setifmt _ | setofmt _ | setbmode _ =>
      exact .inl (err_ok_of_configured accepted answer)
    | qsize =>
      exact err_ok_or_errorReturn_of_check nofun nofun (qsizeCheck_ne_invalidFrameSize s)
        (fun passed answer => (err_of_exec_qsize answer).trans passed)
        (exec_qsize_of_error rfl) answer
    | updrift =>
      refine err_ok_or_errorReturn_of_check nofun nofun (updriftCheck_ne_invalidFrameSize s)
        (fun passed answer => ?_) (exec_updrift_of_error rfl) answer
      cases (exec_updrift_of_ok passed).symm.trans answer
      rfl
    | updfs =>
      refine err_ok_or_errorReturn_of_check nofun nofun (updfsCheck_ne_invalidFrameSize s)
        (fun passed answer => ?_) (exec_updfs_of_error rfl) answer
      cases (exec_updfs_of_ok passed).symm.trans answer
      rfl
    | push16 | push32 =>
      exact err_ok_or_errorReturn_of_check nofun nofun (processCheck_ne _ .push s)
        err_ok_of_execPush (execPush_of_error rfl) answer
    | pull16 | pull32 =>
      exact err_ok_or_errorReturn_of_check nofun nofun (processCheck_ne _ .pull s)
        err_ok_of_execPull (execPull_of_error rfl) answer

end

/-- Settles O46: the two error returns are the two cases of the statement. -/
theorem failingCommandHasNoPartialEffect : Obligations.FailingCommandHasNoPartialEffect := by
  intro i s t answer error
  obtain ok | ⟨ec, keeps, -⟩ | ⟨ec, loses, config, -⟩ := err_ok_or_errorReturn answer
  · exact absurd ok error
  · exact .inl ⟨rfl, not_or.1 keeps⟩
  · exact .inr ⟨rfl, loses, config⟩

/-! ### A negative frame count (R265) -/

/-- The frame count is the one operand changed, so the checks before it still pass. -/
theorem processCheck_setArg_of_negative {w : Nat} {d : OperationMode} {s : State} {v : Word}
    (allowed : ProcessingAllowed w d s) (negative : v.toInt < 0) :
    processCheck w d (s.setArg (if d = .push then 0 else 1) v) = failCode d := by
  have count : frameCount d (s.setArg (if d = .push then 0 else 1) v) < 0 := by
    rw [← argInt_eq_frameCount, State.argInt, arg_setArg_same]
    exact negative
  exact processCheck_of_negative_count allowed.ready allowed.width allowed.direction allowed.updated
    ⟨allowed.input, allowed.output⟩ count

/-- Settles O47: neither success nor an error return carries the code, and the check of the frame count
names the direction's own. -/
theorem invalidFrameSizeIsNeverReturned : Obligations.InvalidFrameSizeIsNeverReturned := by
  refine ⟨fun i s t answer => ?never, rfl, fun k mem => ?negative⟩
  case never =>
    obtain ok | ⟨ec, -, returned⟩ | ⟨ec, -, -, returned⟩ := err_ok_or_errorReturn answer
    · rw [ok]
      decide
    · exact returned
    · exact returned
  case negative =>
    have command : (k.1, k.2.1, k.2.2.1, k.2.2.2.1) ∈ processingCommands
        ∧ k.2.2.2.2 = if k.2.2.1 = .push then 0 else 1 := by
      revert k
      decide
    intro s v allowed negative
    obtain ⟨command, register⟩ := command
    obtain ⟨failEq, failError⟩ := failCode_of_mem_processingCommands command
    rw [register]
    exact exec_of_processCheck_error command
      ((processCheck_setArg_of_negative allowed negative).trans failEq) failError

end Sys2Proof.Machine
end

section
/-! PROOFS. Decoding inverts encoding (spec/30_encoding.md R90 to R98): a word is fixed by the row
it matches and its immediate bit. -/

namespace Sys2Proof

/-- The format I mask clears bit 16 and no other. -/
theorem eq_of_and_maskI_eq {w w' : Word} (covered : w &&& maskI = w' &&& maskI)
    (immediate : immBit w = immBit w') : w = w' := by
  apply BitVec.eq_of_getLsbD_eq
  intro i inside
  by_cases isImmediate : i = 16
  · subst isImmediate
    exact immediate
  · have kept : ∀ i < 32, i ≠ 16 → maskI.getLsbD i = true := by decide
    have bit := congrArg (BitVec.getLsbD · i) covered
    simpa [BitVec.getLsbD_and, kept i inside isImmediate] using bit

/-- The word of a row's command matches the row, and carries the immediate bit where the row leaves
it open. -/
theorem encode_of_mem_opcodeMap : ∀ row ∈ opcodeMap, ∀ b,
    encode (row.2.2 b) &&& row.1 = row.2.1
      ∧ (row.1 = maskZ ∨ row.1 = maskI ∧ immBit (encode (row.2.2 b)) = b) := by
  decide

/-- A word that matches a row is the word of the row's command: no bit of it is dropped. -/
theorem eq_encode_of_hit {w : Word} {row : Word × Word × (Bool → Instr)} (mem : row ∈ opcodeMap)
    (hit : w &&& row.1 = row.2.1) : w = encode (row.2.2 (immBit w)) := by
  obtain ⟨hit', fullMask | ⟨openBit, immediate⟩⟩ := encode_of_mem_opcodeMap row mem (immBit w)
  · have same : w &&& maskZ = encode (row.2.2 (immBit w)) &&& maskZ := by
      rw [← fullMask, hit, hit']
    have full : maskZ = BitVec.allOnes 32 := by decide
    rwa [full, BitVec.and_allOnes, BitVec.and_allOnes] at same
  · refine eq_of_and_maskI_eq ?_ immediate.symm
    rw [← openBit, hit, hit']

theorem eq_encode_of_decode {w : Word} {i : Instr} (h : decode w = .ok i) : w = encode i := by
  obtain ⟨row, mem, hit, rfl⟩ := exists_hit_of_decode h
  exact eq_encode_of_hit mem hit

theorem decode_encode (i : Instr) : decode (encode i) = .ok i := by
  cases i with
  | setifmt v | setofmt v | setbmode v => cases v <;> rfl
  | _ => rfl

/-- Settles O1: one direction by the row the decoder found, the other by evaluating each command's
word. -/
theorem decodeEncodeAgree : Obligations.DecodeEncodeAgree := by
  intro i w _
  refine ⟨eq_encode_of_decode, ?_⟩
  rintro rfl
  exact decode_encode i

/-- Settles O3: the nine words, by evaluation. -/
theorem writtenOutWordsDecode : Obligations.WrittenOutWordsDecode := by
  unfold Obligations.WrittenOutWordsDecode
  decide

end Sys2Proof

namespace Sys2Proof.Machine

theorem runCommand_of_ok {w : Word} {i : Instr} (h : decode w = .ok i) (s : State) :
    runCommand w s = exec i s := by
  rw [runCommand, h]

/-- Settles O5: the step of a `CMD` write runs the word, and the word decodes. -/
theorem stepRunsTheDecodedCommand : Obligations.StepRunsTheDecodedCommand := by
  intro s w i rest idle next decoded _
  rw [step_of_cmd_write idle next, runCommand_of_ok decoded]

end Sys2Proof.Machine
end

section
/-! PROOFS. The accuracy of a tap (spec/41_impulse_response.md R143, R145). -/

namespace Sys2Proof.Machine

/-! ### One Horner step -/

/-- R143 (b): with the fractional time at most 1.0 the rounded product is no larger than the
accumulator. -/
theorem abs_rshrSym_mul_le (acc : Int) {tw : Int} (nonneg : 0 ≤ tw) (le_one : tw ≤ 2 ^ 31) :
    |rshrSym (acc * tw) 31| ≤ |acc| := by
  have product : (acc * tw).natAbs ≤ acc.natAbs * 2 ^ 31 := by
    rw [Int.natAbs_mul]
    exact Nat.mul_le_mul_left _ (by omega)
  have sign : (Int.sign (acc * tw)).natAbs ≤ 1 := by
    rcases Int.sign_trichotomy (acc * tw) with e | e | e <;> simp [e]
  rw [Int.abs_eq_natAbs, Int.abs_eq_natAbs, Int.ofNat_le]
  calc (rshrSym (acc * tw) 31).natAbs
      ≤ 1 * (((acc * tw).natAbs + 2 ^ 30) / 2 ^ 31) := by
        rw [rshrSym, Int.natAbs_mul, Int.natAbs_natCast]
        exact Nat.mul_le_mul_right _ sign
    _ ≤ acc.natAbs := by omega

/-- R143 (c): where the absolute values add to less than `2^31` the step does not saturate. -/
theorem hstep_eq_of_small {acc tw g : Int} (nonneg : 0 ≤ tw) (le_one : tw ≤ 2 ^ 31)
    (small : |acc| + |g| < 2 ^ 31) :
    hstep acc tw g = rshrSym (acc * tw) 31 + g ∧ |hstep acc tw g| ≤ |acc| + |g| := by
  have size : |rshrSym (acc * tw) 31 + g| ≤ |acc| + |g| :=
    (abs_add_le _ _).trans (add_le_add_left (abs_rshrSym_mul_le acc nonneg le_one) _)
  obtain ⟨lo, hi⟩ := abs_lt.1 (size.trans_lt small)
  have unsaturated : hstep acc tw g = rshrSym (acc * tw) 31 + g := sat_of_mem lo.le hi
  exact ⟨unsaturated, by rwa [unsaturated]⟩

/-- R145: the rounding of one step adds at most half a unit to the error it finds. -/
theorem abs_hstep_sub_le {acc tw g : Int} {A e : ℚ} (nonneg : 0 ≤ tw) (le_one : tw ≤ 2 ^ 31)
    (small : |acc| + |g| < 2 ^ 31) (near : |(acc : ℚ) - A| ≤ e) :
    |(hstep acc tw g : ℚ) - (A * (tw / 2 ^ 31) + g)| ≤ e + 1 / 2 := by
  obtain ⟨unsaturated, -⟩ := hstep_eq_of_small nonneg le_one small
  have rounding : |(rshrSym (acc * tw) 31 : ℚ) - acc * (tw / 2 ^ 31)| ≤ 1 / 2 := by
    have half : (2 : ℚ) * |2 ^ 31 * (rshrSym (acc * tw) 31 : ℚ) - acc * tw| ≤ 2 ^ 31 := by
      exact_mod_cast rshrSym_near (acc * tw) (s := 31) (by decide)
    have scaled : (2 : ℚ) ^ 31 * (rshrSym (acc * tw) 31 : ℚ) - acc * tw
        = 2 ^ 31 * (rshrSym (acc * tw) 31 - acc * (tw / 2 ^ 31)) := by ring
    rw [scaled, abs_mul, abs_of_pos (by positivity : (0 : ℚ) < 2 ^ 31)] at half
    linarith
  have fraction : |(tw : ℚ) / 2 ^ 31| ≤ 1 := by
    have lo : (0 : ℚ) ≤ tw := by exact_mod_cast nonneg
    have hi : (tw : ℚ) ≤ 2 ^ 31 := by exact_mod_cast le_one
    rw [abs_of_nonneg (by positivity), div_le_one (by positivity)]
    exact hi
  have carried : |((acc : ℚ) - A) * (tw / 2 ^ 31)| ≤ e := by
    rw [abs_mul]
    exact (mul_le_of_le_one_right (abs_nonneg _) fraction).trans near
  calc |(hstep acc tw g : ℚ) - (A * (tw / 2 ^ 31) + g)|
      = |(rshrSym (acc * tw) 31 - acc * (tw / 2 ^ 31)) + ((acc : ℚ) - A) * (tw / 2 ^ 31)| := by
        rw [unsaturated]
        push_cast
        ring_nf
    _ ≤ e + 1 / 2 := (abs_add_le _ _).trans (by linarith)

/-! ### The recurrence -/

/-- The error along the recurrence, from an accumulator within `e` of an exact value `A`: half a
unit for each step still to come. -/
theorem abs_hornerDown_sub_le (g : Nat → Int) {tw : Int} (nonneg : 0 ≤ tw) (le_one : tw ≤ 2 ^ 31)
    (j : Nat) {acc : Int} {A e : ℚ}
    (small : |acc| + ((List.range j).map (fun i => |g i|)).sum < 2 ^ 31)
    (near : |(acc : ℚ) - A| ≤ e) :
    |(hornerDown g tw j acc : ℚ)
        - (((List.range j).map (fun i => (g i : ℚ) * (tw / 2 ^ 31) ^ i)).sum
          + A * (tw / 2 ^ 31) ^ j)| ≤ e + j / 2 := by
  induction j generalizing acc A e with
  | zero => simpa [hornerDown] using near
  | succ j ih =>
    simp only [List.range_succ, List.map_append, List.map_cons, List.map_nil, List.sum_append,
      List.sum_singleton] at small ⊢
    have rest : (0 : Int) ≤ ((List.range j).map (fun i => |g i|)).sum :=
      List.sum_nonneg (by simp)
    have step : |acc| + |g j| < 2 ^ 31 := by linarith
    have later := ih (acc := hstep acc tw (g j)) (A := A * (tw / 2 ^ 31) + g j) (e := e + 1 / 2)
      (by have := (hstep_eq_of_small nonneg le_one step).2; linarith)
      (abs_hstep_sub_le nonneg le_one step near)
    rw [hornerDown]
    calc _ = _ := by congr 1; ring
      _ ≤ e + 1 / 2 + j / 2 := later
      _ = e + ((j + 1 : Nat) : ℚ) / 2 := by push_cast; ring

/-- Settles O18: the recurrence begins exactly at the last row and makes `N - 1` steps; the bound is
then read in units of Q1.31. -/
theorem tapIsWithinHalfUnitPerStepOfThePolynomial :
    Obligations.TapIsWithinHalfUnitPerStepOfThePolynomial := by
  intro s t m four_le le_seven nonneg below_one small
  rw [irgenTap_eq_hornerDown four_le le_seven]
  obtain ⟨j, count⟩ : ∃ j, s.numFilters.toNat = j + 1 := ⟨s.numFilters.toNat - 1, by omega⟩
  unfold Config.one at below_one
  have time : ((timeScaled t : Int) : ℚ) / 2 ^ 31 = (t : ℚ) / 2 ^ 27 := by
    rw [timeScaled]
    push_cast
    ring
  rw [count, List.range_succ] at small ⊢
  simp only [List.map_append, List.map_cons, List.map_nil, List.sum_append, List.sum_singleton,
    Nat.add_sub_cancel] at small ⊢
  have bound := abs_hornerDown_sub_le (fun j => coefCell s j m) (tw := timeScaled t)
    (by unfold timeScaled; omega) (by unfold timeScaled; omega) j (acc := coefCell s j m)
    (A := coefCell s j m) (e := 0) (by linarith) (by simp)
  rw [time] at bound
  have unit : ((List.range j).map
        (fun i => (coefCell s i m : ℚ) / 2 ^ 31 * ((t : ℚ) / 2 ^ 27) ^ i)).sum
      = ((List.range j).map (fun i => (coefCell s i m : ℚ) * ((t : ℚ) / 2 ^ 27) ^ i)).sum
        * (1 / 2 ^ 31) := by
    rw [← List.sum_map_mul_right]
    congr 2
    ext i
    ring
  rw [unit]
  generalize ((List.range j).map
    (fun i => (coefCell s i m : ℚ) * ((t : ℚ) / 2 ^ 27) ^ i)).sum = lower at bound ⊢
  generalize hornerDown (fun j => coefCell s j m) (timeScaled t) j (coefCell s j m) = tap at bound ⊢
  calc |(tap : ℚ) / 2 ^ 31
        - (lower * (1 / 2 ^ 31) + (coefCell s j m : ℚ) / 2 ^ 31 * ((t : ℚ) / 2 ^ 27) ^ j)|
      = |((tap : ℚ) - (lower + coefCell s j m * ((t : ℚ) / 2 ^ 27) ^ j)) / 2 ^ 31| := by
        congr 1
        ring
    _ = |(tap : ℚ) - (lower + coefCell s j m * ((t : ℚ) / 2 ^ 27) ^ j)| / 2 ^ 31 := by
        rw [abs_div, abs_of_pos (by positivity : (0 : ℚ) < 2 ^ 31)]
    _ ≤ (0 + j / 2) / 2 ^ 31 := by gcongr
    _ = (((j + 1 : Nat) : ℚ) - 1) / 2 / 2 ^ 31 := by push_cast; ring

/-! ### Time 0 -/

/-- With a zero time every product is 0 and every step answers the coefficient. -/
theorem hornerDown_zero_time (g : Nat → Int) (inRange : ∀ j, -(2 ^ 31) ≤ g j ∧ g j < 2 ^ 31)
    (j : Nat) : hornerDown g 0 j (g j) = g 0 := by
  have step : ∀ acc j, hstep acc 0 (g j) = g j := by
    intro acc j
    obtain ⟨lo, hi⟩ := inRange j
    have product : rshrSym (acc * 0) Config.coefFrac = 0 := by simp [rshrSym]
    rw [hstep, product, zero_add]
    exact sat_of_mem (by norm_num; exact lo) (by norm_num; exact hi)
  induction j with
  | zero => rfl
  | succ j ih => rw [hornerDown, step, ih]

/-- Settles O17: at time 0 the recurrence ends at row 0. -/
theorem impulseResponseAtTimeZero : Obligations.ImpulseResponseAtTimeZero := by
  intro s m four_le le_seven inside
  rw [irCell_irgen four_le le_seven 0 inside, irgenTap_eq_hornerDown four_le le_seven]
  exact hornerDown_zero_time (fun j => coefCell s j m) (fun j => coefCell_mem s j m) _

end Sys2Proof.Machine
end

section
/-! PROOFS. Samples in DMEM, in the ring and at the output (spec/20_memory.md R61 to R69,
spec/40_ring_buffer.md R123 to R129, spec/42_fir_output.md R152 to R160,
spec/43_rate_time_tracker.md R175). -/

namespace Sys2Proof.Machine

/-! ### DMEM -/

theorem sampleWidth_lt {w : Nat} (width : w = 16 ∨ w = 32) : w / 8 < 2 ^ 32 := by
  omega

/-- Settles O9: the store and the load are inverse on the bytes of the sample, and the bytes keep
the sample. -/
theorem storedSampleLoadsBack : Obligations.StoredSampleLoadsBack := by
  intro m addr w y canonical width inRange
  refine ⟨?_, fun a outside => readByte_memWrite_of_ne canonical addr _ _ a outside⟩
  rw [memRead_memWrite canonical addr _ _ (sampleWidth_lt width)]
  exact sext_wrap_sample width inRange

/-! ### The window of the ring -/

/-- Settles O13: the cursor is inside the ring, so the offset wraps at most once. -/
theorem relativeReadIsTheWindow : Obligations.RelativeReadIsTheWindow := by
  intro s c off inside fits
  refine ⟨fun defined => ⟨?cell, ?window⟩, fun undefined => ?outside⟩
  case cell =>
    rw [ringReadRel, if_pos defined, indexBehind_eq inside (defined.2.trans fits)]
  case window =>
    rw [ringReadRel, if_pos defined, windowSample, Nat.sub_add_cancel defined.1]
  case outside => exact if_neg (by omega)

/-- Settles O14: the newest sample and the older ones, each by its lemma. -/
theorem frameWriteShiftsTheWindow : Obligations.FrameWriteShiftsTheWindow := by
  intro s f c shaped depth inside _ used
  exact ⟨frameWrite_newest f shaped depth inside used,
    fun k positive below => frameWrite_older f shaped depth inside used positive below⟩

/-! ### The FIR engine -/

theorem roundAndCast_zero (w : Nat) : roundAndCast w 0 = 0 := by
  have half := two_pow_cast_pos (w - 1)
  have shift : rshrSym 0 Config.coefFrac = 0 := by simp [rshrSym]
  rw [roundAndCast, shift]
  exact sat_of_mem (by omega) half

/-- A zero window makes every product of the sum 0. -/
theorem firSum_of_zero_window {s : State} {c : Nat}
    (zero : ∀ k < s.filterLength.toNat, windowSample s c k = 0) : firSum s c = 0 := by
  refine List.sum_eq_zero fun x mem => ?_
  obtain ⟨k, inside, rfl⟩ := List.mem_map.1 mem
  rw [zero k (List.mem_range.1 inside), mul_zero]

/-- Settles O19: the sum of a zero window is 0, and the window reads the channel's own row. -/
theorem firReadsItsOwnChannel : Obligations.FirReadsItsOwnChannel := by
  refine ⟨fun s c zero => ?window, fun s r c own => ?row⟩
  case window =>
    rw [fir16, fir32, firSum_of_zero_window zero]
    exact ⟨roundAndCast_zero 16, roundAndCast_zero 32⟩
  case row =>
    have cells : ∀ p, ringCell { s with ring := r } c p = ringCell s c p := by
      intro p
      simp only [ringCell, own]
    have windows : ∀ k, windowSample { s with ring := r } c k = windowSample s c k :=
      fun k => cells _
    have sums : firSum { s with ring := r } c = firSum s c := by
      simp only [firSum, windows]
      rfl
    simp only [fir, fir16, fir32, sums]

/-! ### The output step -/

/-- The sample an output step leaves at a channel's address, where no other channel of the frame
overlaps it, is the FIR value under the taps of the time before (R159, R175). -/
theorem trkEmit_sample (d : OperationMode) (f : Nat) {s : State} {c : Nat}
    (canonical : s.dmem.wf = true) (depth : s.bitDepth = 16 ∨ s.bitDepth = 32)
    (used : c < s.numChannels.toNat)
    (apart : ∀ c' < s.numChannels.toNat, c' ≠ c → ∀ b < s.sampleBytes, ∀ b' < s.sampleBytes,
      outputAddr s f c + BitVec.ofNat 32 b ≠ outputAddr s f c' + BitVec.ofNat 32 b') :
    sext s.bitDepth.toNat (memRead (trkEmit d f s).dmem (outputAddr s f c) s.sampleBytes)
      = fir (irgen (s.time d) s) c := by
  have width := bitDepth_cases depth
  rw [trkEmit_dmem, memRead_foldl_memWrite canonical _ (fun c => outputAddr s f c) s.sampleBytes
    (fun c => wrap s.bitDepth.toNat (fir (irgen (s.time d) s) c)) (sampleWidth_lt width) c
    (List.mem_range.2 used) fun c' listed => apart c' (List.mem_range.1 listed)]
  exact sext_wrap_sample width (fir_mem (s := irgen (s.time d) s) depth c)

/-- An output step leaves every byte outside its frame's samples as it was (R175). -/
theorem readByte_trkEmit_of_ne (d : OperationMode) (f : Nat) {s : State}
    (canonical : s.dmem.wf = true) {a : Nat}
    (outside : ∀ c < s.numChannels.toNat, ∀ b < s.sampleBytes,
      a ≠ (outputAddr s f c + BitVec.ofNat 32 b).toNat) :
    readByte (trkEmit d f s).dmem a = readByte s.dmem a := by
  rw [trkEmit_dmem]
  exact readByte_foldl_of_ne canonical _ (fun c => outputAddr s f c) s.sampleBytes
    (fun c => wrap s.bitDepth.toNat (fir (irgen (s.time d) s) c)) a
    fun c listed => outside c (List.mem_range.1 listed)

/-- Settles O20: the register frame, the accumulators, the stored samples and the byte frame, each
by its lemma. -/
theorem outputStepStoresOneFrame : Obligations.OutputStepStoresOneFrame := by
  intro d f s canonical
  exact ⟨trkEmit_eq d f s, trkEmit_time d f s, fun e other => trkEmit_time_other other f s,
    fun c used depth apart => trkEmit_sample d f canonical depth used apart,
    fun a outside => readByte_trkEmit_of_ne d f canonical outside⟩

/-! ### A skew of 1.0 -/

/-- The skew divides out exactly: the shift is within half a unit of the product, a whole number of
units (R188). -/
theorem rshrSym_mul_one_skew (v : Int) : rshrSym (v * 2 ^ 30) 30 = v := by
  have near := rshrSym_near (v * 2 ^ 30) (s := 30) (by decide)
  have close : |((2 ^ 30 : Nat) : Int) * rshrSym (v * 2 ^ 30) 30 - v * 2 ^ 30| < 2 ^ 30 := by omega
  rw [abs_lt] at close
  omega

/-- Settles O22: the rounded product is the nominal ratio, and the clamp leaves it alone. -/
theorem unitySkewRestoresTheNominalRatio : Obligations.UnitySkewRestoresTheNominalRatio := by
  intro s ready feedback unity lo hi
  have skew : s.argInt 0 = 2 ^ 30 := by
    rw [State.argInt, unity]
    decide
  refine ⟨_, updriftSetsTheSkewedRatio.1 s ready feedback (by rw [skew]; decide), ?_, rfl⟩
  change toWord _ = _
  rw [skew, rshrSym_mul_one_skew, max_eq_left lo, min_eq_left hi, toWord_toInt]

end Sys2Proof.Machine
end

section
/-! PROOFS. What each command leaves when it succeeds, and what every command and every step keeps
(spec/10_state.md R24 to R29; spec/60_exceptions.md R267). -/

namespace Sys2Proof.Machine

/-! ### The successful answers -/

/-- The two commands of each direction, with their width `W_cmd` (R201, R202, R209, R210). -/
def pushCommands : List (Instr × Nat) := [(.push16, 16), (.push32, 32)]
def pullCommands : List (Instr × Nat) := [(.pull16, 16), (.pull32, 32)]

/-- The state each command answers when it returns `ASRC_EC_OK`, with the checks that passed. -/
inductive SuccessReturn (s : State) : Instr → State → Prop
  | qsize (passed : qsizeCheck s = .ok) :
      SuccessReturn s .qsize
        { s with
          err := .ok
          a := s.a.set 0 (toWord (requiredSize s.params (s.argInt 0) (s.argInt 1))) }
  | init (e : FilterEntry) (enums : initEnumsOk s = true) (passed : initCheck s = .ok e) :
      SuccessReturn s .init
        (returnCode .ok { install e (writeConfiguration s) with lifecycle := .ready })
  | setfs (e : FilterEntry) (configured : isConfigured s = true)
      (passed : rateCheck s.params (s.argInt 0) (s.argInt 1) s.bufferLength.toNat = .ok e) :
      SuccessReturn s .setfs
        (returnCode .ok
          { install e { s with fsPrim := s.arg 0, fsSec := s.arg 1 } with lifecycle := .ready })
  | freeflt (configured : isConfigured s = true) :
      SuccessReturn s .freeflt
        { s with
          err := .ok, lifecycle := .noFilter, filterLength := 0, numFilters := 0, coef := [] }
  | setifmt (v : Layout) (configured : isConfigured s = true) :
      SuccessReturn s (.setifmt v) { s with err := .ok, inputFormat := v }
  | setofmt (v : Layout) (configured : isConfigured s = true) :
      SuccessReturn s (.setofmt v) { s with err := .ok, outputFormat := v }
  | setbmode (v : BufferMode) (configured : isConfigured s = true) :
      SuccessReturn s (.setbmode v) { s with err := .ok, bufferMode := v }
  | updrift (passed : updriftCheck s = .ok) :
      SuccessReturn s .updrift
        { s with
          err := .ok, fsRatio := toWord (skewedRatio s)
          fsRatioInv := toWord (divRound (2 ^ 54) (skewedRatio s).toNat) }
  | updfs (passed : updfsCheck s = .ok) :
      SuccessReturn s .updfs
        { s with
          err := .ok, fsUpdated := true
          fsRatio := toWord (countRatio (s.argInt 0) (s.argInt 1))
          fsRatioInv := toWord (countRatio (s.argInt 1) (s.argInt 0)) }
  | push (i : Instr) (w : Nat) (command : (i, w) ∈ pushCommands) (p : Progress) (u : State)
      (allowed : ProcessingAllowed w .push s) (ended : pushRun s = some (p, u)) :
      SuccessReturn s i (finishProcessing (pushResults p u))
  | pull (i : Instr) (w : Nat) (command : (i, w) ∈ pullCommands) (p : Progress) (u : State)
      (allowed : ProcessingAllowed w .pull s) (ended : pullRun s = some (p, u)) :
      SuccessReturn s i (finishProcessing (pullResults p u))

section

variable {i : Instr} {s t : State}

theorem exec_of_mem_pushCommands {w : Nat} (command : (i, w) ∈ pushCommands) :
    exec i s = execPush w s := by
  simp only [pushCommands, List.mem_cons, Prod.mk.injEq, List.not_mem_nil, or_false] at command
  obtain ⟨rfl, rfl⟩ | ⟨rfl, rfl⟩ := command
  · rfl
  · rfl

theorem exec_of_mem_pullCommands {w : Nat} (command : (i, w) ∈ pullCommands) :
    exec i s = execPull w s := by
  simp only [pullCommands, List.mem_cons, Prod.mk.injEq, List.not_mem_nil, or_false] at command
  obtain ⟨rfl, rfl⟩ | ⟨rfl, rfl⟩ := command
  · rfl
  · rfl

/-- Everything `SETFS` can answer (R241). -/
theorem exec_setfs_cases (s : State) :
    (isConfigured s = false ∧ exec .setfs s = .next { s with err := .invalidPointer })
    ∨ (∃ ec, isConfigured s = true
      ∧ rateCheck s.params (s.argInt 0) (s.argInt 1) s.bufferLength.toNat = .error ec
      ∧ exec .setfs s = .next { s with lifecycle := .failed, err := ec })
    ∨ ∃ e, isConfigured s = true
      ∧ rateCheck s.params (s.argInt 0) (s.argInt 1) s.bufferLength.toNat = .ok e
      ∧ exec .setfs s = .next (returnCode .ok
          { install e { s with fsPrim := s.arg 0, fsSec := s.arg 1 } with
            lifecycle := .ready }) := by
  change (_ ∧ execSetfs s = _) ∨ (∃ ec, _ ∧ _ ∧ execSetfs s = _) ∨ ∃ e, _ ∧ _ ∧ execSetfs s = _
  rw [execSetfs]
  cases configured : isConfigured s with
  | false => exact .inl ⟨rfl, rfl⟩
  | true =>
    cases check : rateCheck s.params (s.argInt 0) (s.argInt 1) s.bufferLength.toNat with
    | error ec => exact .inr (.inl ⟨ec, rfl, rfl, rfl⟩)
    | ok e => exact .inr (.inr ⟨e, rfl, rfl, rfl⟩)

/-- A command that returns `ASRC_EC_OK` passed its lifecycle check. -/
theorem accepts_of_ok (answer : exec i s = .next t) (ok : t.err = .ok) :
    accepts s.lifecycle i = true := by
  by_contra refused
  cases (exec_of_not_accepted (Bool.eq_false_iff.2 refused)).symm.trans answer
  cases ok

theorem success_of_execPush {w : Nat} (command : (i, w) ∈ pushCommands)
    (answer : execPush w s = .next t) (ok : t.err = .ok) : SuccessReturn s i t := by
  obtain ⟨allowed, p, u, ended, done⟩ | ⟨-, -, stuck⟩ | ⟨failed, error⟩ := execPush_cases w s
  · cases done.symm.trans answer
    exact .push i w command p u allowed ended
  · exact nomatch stuck.symm.trans answer
  · cases error.symm.trans answer
    exact absurd ok failed

theorem success_of_execPull {w : Nat} (command : (i, w) ∈ pullCommands)
    (answer : execPull w s = .next t) (ok : t.err = .ok) : SuccessReturn s i t := by
  obtain ⟨allowed, p, u, ended, done⟩ | ⟨failed, error⟩ := execPull_cases w s
  · cases done.symm.trans answer
    exact .pull i w command p u allowed ended
  · cases error.symm.trans answer
    exact absurd ok failed

/-- Said once for every command: what it answers with `ASRC_EC_OK` is its successful answer. -/
theorem success_of_ok (answer : exec i s = .next t) (ok : t.err = .ok) : SuccessReturn s i t := by
  have accepted := accepts_of_ok answer ok
  cases i with
  | qsize =>
    have passed : qsizeCheck s = .ok := (err_of_exec_qsize answer).symm.trans ok
    cases (exec_qsize_of_ok passed).symm.trans answer
    exact .qsize passed
  | init =>
    obtain ⟨-, malformed⟩ | ⟨ec, -, failed, error⟩ | ⟨e, enums, passed, success⟩ :=
      exec_init_cases s
    · cases malformed.symm.trans answer
      cases ok
    · cases error.symm.trans answer
      exact absurd ok (initCheck_error_ne failed).1
    · cases success.symm.trans answer
      exact .init e enums passed
  | setfs =>
    obtain ⟨-, refused⟩ | ⟨ec, -, failed, error⟩ | ⟨e, configured, passed, success⟩ :=
      exec_setfs_cases s
    · cases refused.symm.trans answer
      cases ok
    · cases error.symm.trans answer
      obtain rfl : ec = .ok := ok
      exact nomatch (configuration_of_rateCheck_error failed).1
    · cases success.symm.trans answer
      exact .setfs e configured passed
  | freeflt =>
    cases (if_neg (ne_false_of_eq_true accepted) : exec .freeflt s = _).symm.trans answer
    exact .freeflt accepted
  | setifmt v =>
    cases (if_neg (ne_false_of_eq_true accepted) : exec (.setifmt v) s = _).symm.trans answer
    exact .setifmt v accepted
  | setofmt v =>
    cases (if_neg (ne_false_of_eq_true accepted) : exec (.setofmt v) s = _).symm.trans answer
    exact .setofmt v accepted
  | setbmode v =>
    cases (if_neg (ne_false_of_eq_true accepted) : exec (.setbmode v) s = _).symm.trans answer
    exact .setbmode v accepted
  | updrift =>
    by_cases passed : updriftCheck s = .ok
    · cases (exec_updrift_of_ok passed).symm.trans answer
      exact .updrift passed
    · cases (exec_updrift_of_error rfl passed).symm.trans answer
      exact absurd ok passed
  | updfs =>
    by_cases passed : updfsCheck s = .ok
    · cases (exec_updfs_of_ok passed).symm.trans answer
      exact .updfs passed
    · cases (exec_updfs_of_error rfl passed).symm.trans answer
      exact absurd ok passed
  | push16 | push32 => exact success_of_execPush (by simp [pushCommands]) answer ok
  | pull16 | pull32 => exact success_of_execPull (by simp [pullCommands]) answer ok

/-- An error return writes at most `ERR` and `STATE` (R267). -/
theorem eq_of_error (answer : exec i s = .next t) (error : t.err ≠ .ok) :
    t = { s with err := t.err, lifecycle := t.lifecycle } := by
  obtain ⟨same, -⟩ | ⟨failed, -⟩ := failingCommandHasNoPartialEffect i s t answer error
  · rw [same]
  · rw [failed]

end

/-! ### The lifecycle state (R29, R230) -/

/-- A processing command changes the stream while it runs, and the lifecycle state is not in it. -/
theorem SameButStream.lifecycle {s t : State} (h : SameButStream s t) :
    t.lifecycle = s.lifecycle := by
  unfold SameButStream at h
  rw [h]

/-- Where a command that returns `ASRC_EC_OK` leaves `STATE` (R29). -/
def lifecycleAfterOk (i : Instr) (l : Lifecycle) : Lifecycle :=
  match i with
  | .init | .setfs => .ready
  | .freeflt => .noFilter
  | _ => l

theorem lifecycleAfterOk_of_processing {i : Instr} {w : Nat}
    (command : (i, w) ∈ pushCommands ∨ (i, w) ∈ pullCommands) (l : Lifecycle) :
    lifecycleAfterOk i l = l := by
  simp only [pushCommands, pullCommands, List.mem_cons, Prod.mk.injEq, List.not_mem_nil,
    or_false] at command
  obtain (⟨rfl, -⟩ | ⟨rfl, -⟩) | (⟨rfl, -⟩ | ⟨rfl, -⟩) := command <;> rfl

theorem lifecycle_of_success {i : Instr} {s t : State} (success : SuccessReturn s i t) :
    t.lifecycle = lifecycleAfterOk i s.lifecycle := by
  cases success with
  | push i w command p u allowed ended =>
    rw [pushDone_eq, lifecycleAfterOk_of_processing (.inl command)]
    exact (pushRun_stream ended).lifecycle
  | pull i w command p u allowed ended =>
    rw [pullDone_eq, lifecycleAfterOk_of_processing (.inr command)]
    exact (pullRun_stream ended).lifecycle
  | _ => rfl

/-- Settles O35: a success moves the state as its answer says, and an error only where the command
loses the configuration. -/
theorem lifecycleMovesOnlyAsTheTableSays : Obligations.LifecycleMovesOnlyAsTheTableSays := by
  intro i s t answer
  by_cases ok : t.err = .ok
  · have success := success_of_ok answer ok
    have moved := lifecycle_of_success success
    cases i with
    | setfs =>
      cases success with
      | setfs e configured passed =>
        exact (if_pos ((isConfigured_iff s).1 configured)).symm
      | push _ _ command => simp [pushCommands] at command
      | pull _ _ command => simp [pullCommands] at command
    | init | freeflt => exact moved.trans (if_pos ok).symm
    | _ => exact moved
  · obtain ⟨same, notInit, notSetfs⟩ | ⟨failed, command, -⟩ :=
      failingCommandHasNoPartialEffect i s t answer ok
    · have kept : t.lifecycle = s.lifecycle := by rw [same]
      cases i with
      | init =>
        have illegal : t.err = .illegalCommand := not_not.1 fun other => notInit ⟨rfl, other⟩
        simpa [illegal] using kept
      | setfs =>
        have turnedAway : ¬ (s.lifecycle = .ready ∨ s.lifecycle = .noFilter) :=
          fun configured => notSetfs ⟨rfl, configured⟩
        exact kept.trans (if_neg turnedAway).symm
      | freeflt => simpa [ok] using kept
      | _ => exact kept
    · have lost : t.lifecycle = .failed := by rw [failed]
      obtain ⟨rfl, notIllegal⟩ | ⟨rfl, configured⟩ := command
      · simpa [ok, notIllegal] using lost
      · simpa [ok, configured] using lost

/-- Settles O34: the refusal of each command, proved with the setters. -/
theorem refusedCommandChangesOnlyErr : Obligations.RefusedCommandChangesOnlyErr := by
  intro i s refused
  exact exec_of_not_accepted refused

/-! ### Parameters, `BUSY` and DMEM -/

theorem SameButStream.params_busy {s t : State} (h : SameButStream s t) :
    t.params = s.params ∧ t.busy = s.busy := by
  unfold SameButStream at h
  rw [h]
  exact ⟨rfl, rfl⟩

/-- No command changes the parameters or `BUSY`. -/
theorem params_busy_of_exec {i : Instr} {s t : State} (answer : exec i s = .next t) :
    t.params = s.params ∧ t.busy = s.busy := by
  by_cases ok : t.err = .ok
  · cases success_of_ok answer ok with
    | push _ _ _ p u _ ended =>
      rw [pushDone_eq]
      exact (pushRun_stream ended).params_busy
    | pull _ _ _ p u _ ended =>
      rw [pullDone_eq]
      exact (pullRun_stream ended).params_busy
    | _ => exact ⟨rfl, rfl⟩
  · rw [eq_of_error answer ok]
    exact ⟨rfl, rfl⟩

theorem trkConsume_wf {d : OperationMode} {s : State} (f : Nat) (h : s.dmem.wf = true) :
    (trkConsume d f s).dmem.wf = true := by
  rwa [trkConsume_dmem]

theorem pushKeeps_wf (q : Request) : PushKeeps q (fun _ s => s.dmem.wf = true) where
  input _ _ h _ _ := trkConsume_wf _ h
  outputCircular _ _ h _ _ _ := trkEmit_wf _ h
  outputLinear _ _ h _ _ := trkEmit_wf _ h

theorem pullKeeps_wf (q : Request) : PullKeeps q (fun _ s => s.dmem.wf = true) where
  inputCircular _ _ h _ _ _ _ := trkConsume_wf _ h
  inputLinear _ _ h _ _ _ := trkConsume_wf _ h
  output _ _ h _ _ := trkEmit_wf _ h

/-- Only the processing commands store in DMEM, and their stores keep the canonical form. -/
theorem wf_of_exec {i : Instr} {s t : State} (canonical : s.dmem.wf = true)
    (answer : exec i s = .next t) : t.dmem.wf = true := by
  by_cases ok : t.err = .ok
  · cases success_of_ok answer ok with
    | push _ _ _ p u _ ended =>
      rw [pushDone_eq]
      exact (pushLoop_keeps (pushKeeps_wf _) canonical ended).1
    | pull _ _ _ p u _ ended =>
      rw [pullDone_eq]
      exact (pullLoop_keeps (pullKeeps_wf _) canonical ended).1
    | _ => exact canonical
  · rw [eq_of_error answer ok]
    exact canonical

/-! ### One step -/

/-- What an act of the host or the platform that is answered does to the block, from the state with
the act taken off the list (R26, R49, R99, R290). -/
inductive HostStep (s : State) : State → Prop
  | command (i : Instr) (t : State) (answer : exec i s = .next t) : HostStep s t
  | illegal : HostStep s { s with err := .illegalCommand }
  | write (v : Word) (reg : HostReg) : HostStep s (writeReg s v reg)
  | read (v : Word) : HostStep s { s with hostData := v }
  | store (addr : Word) (n v : Nat) : HostStep s { s with dmem := memWrite s.dmem addr n v }
  | reset : HostStep s (hardwareReset s)

theorem hostStep_of_runCommand {w : Word} {s t : State} (answer : runCommand w s = .next t) :
    HostStep s t := by
  cases decoded : decode w with
  | ok i =>
    rw [runCommand_of_ok decoded] at answer
    exact .command i t answer
  | error e =>
    rw [runCommand_of_error decoded] at answer
    cases answer
    exact .illegal

theorem serveIdle_write (k : BitVec 8) (v : Word) (s : State) :
    serveIdle (.write k v) s =
      if hostRegAt k = .cmd then runCommand v s else .next (writeReg s v (hostRegAt k)) := by
  simp only [serveIdle]
  generalize hostRegAt k = reg
  cases reg <;> rfl

theorem serveBusy_read (k : BitVec 8) (s : State) :
    serveBusy (.read k) s =
      if hostRegAt k = .status then .next { s with hostData := statusWord s }
      else .refused .registerAccessWhileBusy := by
  simp only [serveBusy]
  generalize hostRegAt k = reg
  cases reg <;> rfl

theorem hostStep_of_serveIdle {e : HostEvent} {s t : State} (answer : serveIdle e s = .next t) :
    HostStep s t := by
  cases e with
  | write k v =>
    rw [serveIdle_write] at answer
    split at answer
    next => exact hostStep_of_runCommand answer
    next =>
      cases answer
      exact .write v _
  | read k =>
    cases answer
    exact .read _
  | mem16 addr v | mem32 addr v =>
    cases answer
    exact .store addr _ _
  | reset =>
    cases answer
    exact .reset

/-- While `BUSY = 1` the read of `STATUS` is the one act answered. -/
theorem hostStep_of_serveBusy {e : HostEvent} {s t : State} (answer : serveBusy e s = .next t) :
    HostStep s t := by
  cases e with
  | read k =>
    rw [serveBusy_read] at answer
    split at answer
    next =>
      cases answer
      exact .read _
    next => cases answer
  | _ => cases answer

/-- Said once: a step that answers does nothing, or one act (R24, R277). -/
theorem eq_or_hostStep_of_step {s t : State} (answer : step s = .next t) :
    t = s ∨ ∃ rest, HostStep { s with pending := rest } t := by
  unfold step serveNext at answer
  split at answer
  next =>
    cases answer
    exact .inl rfl
  next e rest _ =>
    refine .inr ⟨rest, ?_⟩
    unfold serve at answer
    split at answer
    next => exact hostStep_of_serveBusy answer
    next => exact hostStep_of_serveIdle answer

/-- A host write reaches the argument and pointer registers only (R49). -/
theorem writeReg_eq (s : State) (v : Word) (reg : HostReg) :
    writeReg s v reg =
      { s with
        a := (writeReg s v reg).a, iptr := (writeReg s v reg).iptr
        optr := (writeReg s v reg).optr } := by
  cases reg <;> rfl

theorem params_busy_of_hostStep {s t : State} (h : HostStep s t) :
    t.params = s.params ∧ (s.busy = false → t.busy = false) := by
  cases h with
  | command i t answer =>
    obtain ⟨params, busy⟩ := params_busy_of_exec answer
    exact ⟨params, fun idle => busy.trans idle⟩
  | write v reg =>
    rw [writeReg_eq]
    exact ⟨rfl, id⟩
  | reset => exact ⟨rfl, fun _ => rfl⟩
  | _ => exact ⟨rfl, id⟩

theorem wf_of_hostStep {s t : State} (canonical : s.dmem.wf = true) (h : HostStep s t) :
    t.dmem.wf = true := by
  cases h with
  | command i t answer => exact wf_of_exec canonical answer
  | write v reg =>
    rw [writeReg_eq]
    exact canonical
  | store addr n v => exact memWrite_wf canonical addr n v
  | _ => exact canonical

/-- Settles O53: a step is one act, and no act changes the parameters or sets `BUSY`. -/
theorem stepsKeepParametersAndIdle : Obligations.StepsKeepParametersAndIdle := by
  intro s t answer
  obtain rfl | ⟨rest, act⟩ := eq_or_hostStep_of_step answer
  · exact ⟨rfl, id⟩
  · exact params_busy_of_hostStep (s := { s with pending := rest }) act

/-- Settles O11: every store, of a command or of the host, keeps the form. -/
theorem everyStepKeepsMemoryCanonical : Obligations.EveryStepKeepsMemoryCanonical := by
  intro s t canonical answer
  obtain rfl | ⟨rest, act⟩ := eq_or_hostStep_of_step answer
  · exact canonical
  · exact wf_of_hostStep (s := { s with pending := rest }) canonical act

end Sys2Proof.Machine
end

section
/-! PROOFS. The configuration commands where their checks pass (spec/46_configuration.md R231 to
R243). -/

namespace Sys2Proof.Machine

/-! ### `QSIZE` and `INIT` agree (R232) -/

theorem qsizeCheck_eq_ok_iff (s : State) :
    qsizeCheck s = .ok ↔
      channelsOk s.params (s.argInt 0) = true ∧ bitDepthOk (s.argInt 1) = true := by
  unfold qsizeCheck
  split_ifs with channels depth <;> simp_all

/-- The codes of the first two checks are no other check's. -/
theorem initCheck_error_of_first_checks {s : State}
    (channels : channelsOk s.params (s.argInt 0) = true)
    (depth : bitDepthOk (s.argInt 7) = true) {ec : ErrorCode} (failed : initCheck s = .error ec) :
    ec ≠ .invalidNumChannels ∧ ec ≠ .invalidBitDepth := by
  obtain ⟨bad, -⟩ | ⟨-, bad, -⟩ | ⟨-, -, ⟨-, answer⟩ | ⟨-, answer⟩⟩ := initCheck_cases s
  · exact absurd bad (ne_false_of_eq_true channels)
  · exact absurd bad (ne_false_of_eq_true depth)
  · cases answer.symm.trans failed
    decide
  · obtain rfl | rfl | rfl | rfl := rateCheck_error (answer.symm.trans failed) <;> decide

/-- `INIT` with valid enumeration operands reports neither error of its first two checks exactly
when they pass. -/
theorem err_of_exec_init_iff {s t : State} (enums : initEnumsOk s = true)
    (answer : exec .init s = .next t) :
    t.err ≠ .invalidNumChannels ∧ t.err ≠ .invalidBitDepth ↔
      channelsOk s.params (s.argInt 0) = true ∧ bitDepthOk (s.argInt 7) = true := by
  obtain ⟨malformed, -⟩ | ⟨ec, -, failed, answer'⟩ | ⟨e, -, passed, answer'⟩ := exec_init_cases s
  · exact absurd malformed (ne_false_of_eq_true enums)
  · cases answer'.symm.trans answer
    refine ⟨fun other => ?_, fun ⟨channels, depth⟩ =>
      initCheck_error_of_first_checks channels depth failed⟩
    obtain ⟨-, answer⟩ | ⟨-, -, answer⟩ | ⟨channels, depth, -⟩ := initCheck_cases s
    · cases answer.symm.trans failed
      exact absurd rfl other.1
    · cases answer.symm.trans failed
      exact absurd rfl other.2
    · exact ⟨channels, depth⟩
  · cases answer'.symm.trans answer
    refine ⟨fun _ => ?_, fun _ => ⟨nofun, nofun⟩⟩
    obtain ⟨-, answer⟩ | ⟨-, -, answer⟩ | ⟨channels, depth, -⟩ := initCheck_cases s
    · exact nomatch answer.symm.trans passed
    · exact nomatch answer.symm.trans passed
    · exact ⟨channels, depth⟩

/-- Settles O26: the two commands make the same two checks, on the registers the statement equates.
-/
theorem qsizeAcceptsWhatInitAccepts : Obligations.QsizeAcceptsWhatInitAccepts := by
  intro s u t v params channels depth bits sizeAnswer initAnswer
  rw [err_of_exec_qsize sizeAnswer, qsizeCheck_eq_ok_iff,
    err_of_exec_init_iff ((initEnumsOk_iff u).2 bits) initAnswer]
  simp only [State.argInt, params, channels, depth]

/-! ### `install` (R238) -/

/-- A supported rate has the same signed and unsigned reading. -/
theorem toNat_toInt_of_rate {w : Word} (rate : ∃ r ∈ Config.supportedRates, w.toInt = r) :
    w.toInt.toNat = w.toNat := by
  obtain ⟨r, -, read⟩ := rate
  have same := toInt_eq_toNat_of_nonneg (w := w) (by omega)
  omega

/-- The nominal ratio from the rate registers (R44, R235). -/
theorem nominalRatio_of_rates {v w : Word} (prim : ∃ r ∈ Config.supportedRates, v.toInt = r)
    (sec : ∃ r ∈ Config.supportedRates, w.toInt = r) :
    nominalRatio v.toInt w.toInt = divRound (v.toNat * 2 ^ 27) w.toNat := by
  rw [nominalRatio, toNat_toInt_of_rate prim, toNat_toInt_of_rate sec, Config.timeFrac]

theorem rateCheck_of_pass {p : Params} {fsPrim fsSec bl : Int} {e : FilterEntry}
    (rates : (∃ r ∈ Config.supportedRates, fsPrim = r) ∧ ∃ r ∈ Config.supportedRates, fsSec = r)
    (entry : filterLookup p fsPrim fsSec = some e)
    (lo : p.ratioMin ≤ nominalRatio fsPrim fsSec) (hi : nominalRatio fsPrim fsSec ≤ p.ratioMax)
    (good : e.filterLength % 4 = 0 ∧ 4 ≤ e.filterLength ∧ e.filterLength ≤ p.maxFilterLength)
    (fits : (e.filterLength : Int) ≤ bl) : rateCheck p fsPrim fsSec bl = .ok e := by
  rw [← filterLengthOk_iff] at good
  rw [rateCheck_of_entry rates entry, if_neg (not_or.2 ⟨lo.not_gt, hi.not_gt⟩),
    if_neg (ne_false_of_eq_true good), if_neg fits.not_gt]

/-- What `install` writes, the ratio given as the rule forms it. -/
theorem install_eq {s : State} {e : FilterEntry} {r : Nat}
    (nominal : nominalRatio s.fsPrim.toInt s.fsSec.toInt = r) :
    install e s =
      { s with
        numFilters := BitVec.ofNat 32 e.numFilters.toNat
        filterLength := BitVec.ofNat 32 e.filterLength, coef := e.coef
        fsRatioNom := BitVec.ofNat 32 r, fsRatio := BitVec.ofNat 32 r
        fsRatioInv := BitVec.ofNat 32 (divRound (2 ^ 54) r)
        timeValue := 0x08000000, timeValuePull := 0x08000000, fsUpdated := false
        ring := List.replicate s.numChannels.toNat (List.replicate s.bufferLength.toNat 0)
        writePosition := 0 } := by
  subst nominal
  rfl

/-! ### The enumeration registers (R16, R233) -/

theorem layoutOfWord_eq (w : Word) :
    layoutOfWord w = if w = 0 then .interleaved else .deinterleaved := by
  by_cases zero : w = 0 <;> simp [layoutOfWord, layoutOfBit, zero]

theorem bufferModeOfWord_eq (w : Word) :
    bufferModeOfWord w = if w = 0 then .linear else .circular := by
  by_cases zero : w = 0 <;> simp [bufferModeOfWord, bufferModeOfBit, zero]

theorem controlModeOfWord_eq (w : Word) :
    controlModeOfWord w = if w = 0 then .feedback else .fixed := by
  by_cases zero : w = 0 <;> simp [controlModeOfWord, zero]

theorem operationModeOfWord_eq (w : Word) :
    operationModeOfWord w = if w = 0 then .push else .pull := by
  by_cases zero : w = 0 <;> simp [operationModeOfWord, zero]

/-- Settles O27: every check passes, and the next state is `install` on the operands. -/
theorem initInstallsTheConfiguration : Obligations.InitInstallsTheConfiguration := by
  intro s e bits pos le depth one_lt fitsRing prim sec entry r lo hi mult four_le le_max fits
  have nominal : nominalRatio (s.argInt 1) (s.argInt 2) = r := nominalRatio_of_rates prim sec
  have passed : initCheck s = .ok e := by
    rw [initCheck_of_length ⟨pos, le⟩ depth ⟨one_lt, fitsRing⟩]
    exact rateCheck_of_pass ⟨prim, sec⟩ entry (nominal ▸ lo) (nominal ▸ hi)
      ⟨mult, four_le, le_max⟩ fits
  rw [exec_init, execInit, if_neg (ne_false_of_eq_true ((initEnumsOk_iff s).2 bits)), passed]
  dsimp only
  rw [install_eq (s := writeConfiguration s) nominal]
  simp only [writeConfiguration, returnCode, layoutOfWord_eq, bufferModeOfWord_eq,
    controlModeOfWord_eq, operationModeOfWord_eq]

/-- Settles O31: the same checks on the two rate operands, and `install` on the new rates. -/
theorem setfsReplacesTheRates : Obligations.SetfsReplacesTheRates := by
  intro s e configured prim sec entry r lo hi mult four_le le_max fits
  have nominal : nominalRatio (s.argInt 0) (s.argInt 1) = r := nominalRatio_of_rates prim sec
  have passed : rateCheck s.params (s.argInt 0) (s.argInt 1) s.bufferLength.toNat = .ok e :=
    rateCheck_of_pass ⟨prim, sec⟩ entry (nominal ▸ lo) (nominal ▸ hi)
      ⟨mult, four_le, le_max⟩ (by exact_mod_cast fits)
  obtain ⟨bad, -⟩ | ⟨ec, -, failed, -⟩ | ⟨e', -, passed', answer⟩ := exec_setfs_cases s
  · exact absurd ((isConfigured_iff s).2 configured) (Bool.eq_false_iff.1 bad)
  · exact nomatch failed.symm.trans passed
  · cases passed'.symm.trans passed
    rw [answer, install_eq (s := { s with fsPrim := s.arg 0, fsSec := s.arg 1 }) nominal]
    rfl

/-! ### `FREEFLT` (R243) -/

/-- The commands that need the filter table are accepted in `READY` only. -/
theorem accepts_noFilter_eq_false :
    ∀ i ∈ ([.updrift, .updfs, .push16, .push32, .pull16, .pull32] : List Instr),
      accepts .noFilter i = false := by
  decide

theorem exec_freeflt_of_configured {s : State} (configured : isConfigured s = true) :
    exec .freeflt s = .next
      { s with
        err := .ok, lifecycle := .noFilter, filterLength := 0, numFilters := 0, coef := [] } :=
  if_neg (ne_false_of_eq_true configured)

/-- A `FREEFLT` that answers `ASRC_EC_OK` found the block configured. -/
theorem configured_of_freeflt_ok {s t : State} (answer : exec .freeflt s = .next t)
    (ok : t.err = .ok) : isConfigured s = true :=
  accepts_of_ok answer ok

/-- Settles O32: a success is the released state, which accepts `FREEFLT` again and no command that
needs the table. -/
theorem freefltReleasesTheTable : Obligations.FreefltReleasesTheTable := by
  refine ⟨fun s configured => ?release, fun s unaccepted => ?refused,
    fun s t i answer ok mem => ?after, fun s t answer ok => ?again⟩
  case release => exact exec_freeflt_of_configured ((isConfigured_iff s).2 configured)
  case refused =>
    refine exec_of_not_accepted ?_
    obtain e | e := unaccepted <;> rw [e] <;> rfl
  case after =>
    cases (exec_freeflt_of_configured (configured_of_freeflt_ok answer ok)).symm.trans answer
    exact exec_of_not_accepted (accepts_noFilter_eq_false i mem)
  case again =>
    cases (exec_freeflt_of_configured (configured_of_freeflt_ok answer ok)).symm.trans answer
    exact exec_freeflt_of_configured rfl

end Sys2Proof.Machine
end

section
/-! PROOFS. Reset and the host's accesses (spec/10_state.md R48, R49, R54;
spec/70_reset_and_hazards.md R290, R305). -/

namespace Sys2Proof.Machine

/-! ### Reset -/

/-- Settles O54: the reset state is idle, lists nothing in DMEM, and is its own reset value. -/
theorem resetIsConsistent : Obligations.ResetIsConsistent :=
  { idle := rfl
    memory := reset_dmem_wf
    state := rfl }

/-- After reset only the two accumulators are not 0 (R54). -/
theorem readReg_reset (reg : HostReg) :
    readReg State.reset reg =
      if reg = .timeValue ∨ reg = .timeValuePull then 0x08000000 else 0 := by
  cases reg with
  | arg i | iptr i | optr i => simp [readReg, State.reset, State.arg]
  | _ => rfl

/-- The accumulators stand at the offsets of R48. -/
theorem hostRegAt_eq_time_iff (k : BitVec 8) :
    hostRegAt k = .timeValue ∨ hostRegAt k = .timeValuePull ↔
      4 * k.toNat = 0x14C ∨ 4 * k.toNat = 0x150 := by
  revert k
  decide

/-- Settles O49: the reset value of each register, at the offset where it stands. -/
theorem resetRegistersReadAsTheMapSays : Obligations.ResetRegistersReadAsTheMapSays := by
  intro k
  simp only [readReg_reset, hostRegAt_eq_time_iff]

/-- No register the host can read depends on what a reset keeps. -/
theorem readReg_hardwareReset (s : State) (reg : HostReg) :
    readReg (hardwareReset s) reg = readReg State.reset reg := by
  cases reg <;> rfl

theorem step_of_idle {s : State} {e : HostEvent} {rest : List HostEvent} (idle : s.busy = false)
    (next : s.pending = e :: rest) : step s = serveIdle e { s with pending := rest } := by
  simp [step, serveNext, next, serve, idle]

theorem step_of_busy {s : State} {e : HostEvent} {rest : List HostEvent} (busy : s.busy = true)
    (next : s.pending = e :: rest) : step s = serveBusy e { s with pending := rest } := by
  simp [step, serveNext, next, serve, busy]

/-- Settles O50: the step is the reset, whose registers are those of the reset state. -/
theorem hardwareResetFromAnyState : Obligations.HardwareResetFromAnyState := by
  intro s rest idle next
  exact ⟨hardwareReset { s with pending := rest }, step_of_idle idle next, rfl, rfl, rfl, rfl,
    fun k => readReg_hardwareReset _ (hostRegAt k)⟩

/-! ### Register accesses -/

/-- The number of the word at which an argument or pointer register stands (R48). -/
def operandWord : HostReg → Option Nat
  | .arg i => some (16 + i)
  | .iptr i => some (32 + i)
  | .optr i => some (48 + i)
  | _ => none

/-- The three operand files fill words 16 to 63, in order. -/
theorem operandWord_hostRegAt (k : BitVec 8) :
    operandWord (hostRegAt k) =
      if 16 ≤ k.toNat ∧ k.toNat < 64 then some k.toNat else none := by
  revert k
  decide

/-- No two offsets name the same operand register. -/
theorem eq_of_hostRegAt_eq {k k' : BitVec 8} (operand : 16 ≤ k.toNat ∧ k.toNat < 64)
    (same : hostRegAt k' = hostRegAt k) : k' = k := by
  have word := operandWord_hostRegAt k'
  rw [same, operandWord_hostRegAt, if_pos operand] at word
  split at word
  next => exact BitVec.eq_of_toNat_eq (Option.some.inj word).symm
  next => cases word

theorem readReg_writeReg_same (s : State) (v : Word) {reg : HostReg} {n : Nat}
    (operand : operandWord reg = some n) : readReg (writeReg s v reg) reg = v := by
  cases reg with
  | arg i => exact arg_setArg_same s i v
  | iptr i | optr i => simp [readReg, writeReg]
  | _ => cases operand

theorem readReg_writeReg_ne (s : State) (v : Word) {reg reg' : HostReg} (other : reg' ≠ reg) :
    readReg (writeReg s v reg) reg' = readReg s reg' := by
  have apart : ∀ {i j : Fin 16}, i ≠ j → (j : Nat) ≠ i := fun ne e => ne (Fin.ext e.symm)
  cases reg with
  | arg i =>
    cases reg' with
    | arg j => exact arg_setArg_ne s v fun e => other (congrArg _ e)
    | _ => rfl
  | iptr i =>
    cases reg' with
    | iptr j => exact Vector.getElem_set_ne i.isLt j.isLt (apart fun e => other (congrArg _ e))
    | _ => rfl
  | optr i =>
    cases reg' with
    | optr j => exact Vector.getElem_set_ne i.isLt j.isLt (apart fun e => other (congrArg _ e))
    | _ => rfl
  | _ => rfl

/-- A host write to any other register is ignored (R49). -/
theorem writeReg_of_not_operand (s : State) (v : Word) {reg : HostReg}
    (ignored : operandWord reg = none) : writeReg s v reg = s := by
  cases reg with
  | arg i | iptr i | optr i => cases ignored
  | _ => rfl

/-- What the host reads after a write, at every offset (R48, R49). -/
theorem readReg_writeReg_hostRegAt (s : State) (v : Word) (k k' : BitVec 8) :
    readReg (writeReg s v (hostRegAt k)) (hostRegAt k') =
      if k' = k ∧ 16 ≤ k.toNat ∧ k.toNat < 64 then v else readReg s (hostRegAt k') := by
  have word := operandWord_hostRegAt k
  by_cases operand : 16 ≤ k.toNat ∧ k.toNat < 64
  · rw [if_pos operand] at word
    by_cases same : k' = k
    · rw [if_pos ⟨same, operand⟩, same, readReg_writeReg_same s v word]
    · rw [if_neg fun both => same both.1,
        readReg_writeReg_ne s v fun e => same (eq_of_hostRegAt_eq operand e)]
  · rw [if_neg operand] at word
    rw [if_neg fun both => operand both.2, writeReg_of_not_operand s v word]

/-- Settles O51: the idle block serves a write and a read; the busy one refuses both. -/
theorem hostAccessTouchesOnlyItsRegister : Obligations.HostAccessTouchesOnlyItsRegister := by
  intro s k v rest
  refine ⟨fun idle next notCmd => ?write, fun idle next => step_of_idle idle next,
    fun busy next => step_of_busy busy next, fun busy next notStatus => ?busyRead⟩
  case write =>
    refine ⟨writeReg { s with pending := rest } v (hostRegAt k), ?_,
      writeReg_eq { s with pending := rest } v (hostRegAt k), fun k' =>
      (readReg_writeReg_hostRegAt { s with pending := rest } v k k').trans ?_⟩
    · rw [step_of_idle idle next, serveIdle_write, if_neg notCmd]
    · generalize hostRegAt k' = reg
      cases reg <;> rfl
  case busyRead => rw [step_of_busy busy next, serveBusy_read, if_neg notStatus]

end Sys2Proof.Machine
end

section
/-! PROOFS. The processing commands complete (spec/45_mode_dispatcher.md R205 to R218;
spec/43_rate_time_tracker.md R171, R178). -/

namespace Sys2Proof.Machine

section

variable {w : Nat} {d : OperationMode} {s t u : State} {p : Progress}

/-! ### The answer of an allowed command -/

theorem ProcessingAllowed.indicesValid (allowed : ProcessingAllowed w d s)
    (circular : s.bufferMode = .circular) : indicesValid s = true :=
  (indicesValid_iff s).2 (allowed.indices circular)

/-- An allowed push answers where its loop ends. -/
theorem execPush_of_run (allowed : ProcessingAllowed w .push s) (ended : pushRun s = some (p, u)) :
    execPush w s = .next (finishProcessing (pushResults p u)) := by
  have passed := (processCheck_ok_iff w .push s).2 allowed
  obtain ⟨-, p', u', ended', answer⟩ | ⟨-, never, -⟩ | ⟨failed, -⟩ := execPush_cases w s
  · cases ended.symm.trans ended'
    exact answer
  · exact nomatch ended.symm.trans never
  · exact absurd passed failed

theorem execPull_of_run (allowed : ProcessingAllowed w .pull s) (ended : pullRun s = some (p, u)) :
    execPull w s = .next (finishProcessing (pullResults p u)) := by
  have passed := (processCheck_ok_iff w .pull s).2 allowed
  obtain ⟨-, p', u', ended', answer⟩ | ⟨failed, -⟩ := execPull_cases w s
  · cases ended.symm.trans ended'
    exact answer
  · exact absurd passed failed

/-- What an allowed push that answers came from. -/
theorem run_of_execPush (allowed : ProcessingAllowed w .push s) (answer : execPush w s = .next t) :
    ∃ p u, pushRun s = some (p, u) ∧ t = finishProcessing (pushResults p u) := by
  have passed := (processCheck_ok_iff w .push s).2 allowed
  obtain ⟨-, p, u, ended, answer'⟩ | ⟨-, -, stuck⟩ | ⟨failed, -⟩ := execPush_cases w s
  · cases answer'.symm.trans answer
    exact ⟨p, u, ended, rfl⟩
  · exact nomatch stuck.symm.trans answer
  · exact absurd passed failed

theorem run_of_execPull (allowed : ProcessingAllowed w .pull s) (answer : execPull w s = .next t) :
    ∃ p u, pullRun s = some (p, u) ∧ t = finishProcessing (pullResults p u) := by
  have passed := (processCheck_ok_iff w .pull s).2 allowed
  obtain ⟨-, p, u, ended, answer'⟩ | ⟨failed, -⟩ := execPull_cases w s
  · cases answer'.symm.trans answer
    exact ⟨p, u, ended, rfl⟩
  · exact absurd passed failed

/-! ### The frame of the answer -/

theorem SameButStream.arg (h : SameButStream s u) (i : Fin 16) : u.arg i = s.arg i := by
  unfold SameButStream at h
  rw [h]
  rfl

theorem SameButStream.bufferMode (h : SameButStream s u) : u.bufferMode = s.bufferMode := by
  unfold SameButStream at h
  rw [h]

/-- The accumulator of the pull direction is not a push's to change (R171). -/
theorem pushDone_frame (stream : SameButStream s u) (other : u.time .pull = s.time .pull) :
    finishProcessing (pushResults p u) =
      { s with
        a := (finishProcessing (pushResults p u)).a, err := .ok
        fsUpdated := if s.controlMode = .fixed then false else s.fsUpdated
        timeValue := (finishProcessing (pushResults p u)).timeValue
        writePosition := (finishProcessing (pushResults p u)).writePosition
        ring := (finishProcessing (pushResults p u)).ring
        ir := (finishProcessing (pushResults p u)).ir
        dmem := (finishProcessing (pushResults p u)).dmem } := by
  have kept : u.timeValuePull = s.timeValuePull := BitVec.eq_of_toInt_eq other
  unfold SameButStream at stream
  rw [kept] at stream
  rw [pushDone_eq, stream]

/-- Nor is the accumulator of the push direction a pull's. -/
theorem pullDone_frame (stream : SameButStream s u) (other : u.time .push = s.time .push) :
    finishProcessing (pullResults p u) =
      { s with
        a := (finishProcessing (pullResults p u)).a, err := .ok
        fsUpdated := if s.controlMode = .fixed then false else s.fsUpdated
        timeValuePull := (finishProcessing (pullResults p u)).timeValuePull
        writePosition := (finishProcessing (pullResults p u)).writePosition
        ring := (finishProcessing (pullResults p u)).ring
        ir := (finishProcessing (pullResults p u)).ir
        dmem := (finishProcessing (pullResults p u)).dmem
        freeCount := (finishProcessing (pullResults p u)).freeCount } := by
  have kept : u.timeValue = s.timeValue := BitVec.eq_of_toInt_eq other
  unfold SameButStream at stream
  rw [kept] at stream
  rw [pullDone_eq, stream]

/-! ### Where the loops end -/

/-- A push that is allowed, with a ratio in range, ends at the counts of R206 and R207. -/
theorem pushRun_counted (allowed : ProcessingAllowed w .push s) (canonical : s.dmem.wf = true)
    (increment : IncrementOk .push s) (inside : s.writePosition.toNat < s.bufferLength.toNat)
    (ended : pushRun s = some (p, u)) :
    PushCounted s p u ∧ (p.i, p.j) = framesDone .push s := by
  have valid := fun circular => allowed.indicesValid (w := w) circular
  obtain ⟨counted, stopped⟩ := pushLoop_keeps (pushKeeps_counted inside increment valid)
    (PushCounted.start canonical inside valid) ended
  exact ⟨counted, counted.stopped increment stopped valid⟩

/-- A pull, at the counts of R213 and R215. -/
theorem pullRun_counted (allowed : ProcessingAllowed w .pull s) (canonical : s.dmem.wf = true)
    (increment : IncrementOk .pull s) (inside : s.writePosition.toNat < s.bufferLength.toNat)
    (ended : pullRun s = some (p, u)) :
    PullCounted s p u ∧ (p.i, p.j) = framesDone .pull s := by
  have valid := fun circular => allowed.indicesValid (w := w) circular
  obtain ⟨counted, stopped⟩ := pullLoop_keeps (pullKeeps_counted inside increment valid)
    (PullCounted.start canonical inside valid) ended
  exact ⟨counted, counted.stopped increment stopped⟩

end

/-- Settles O37: the loop ends, at the counts, and the results are written from them. -/
theorem pushCompletes : Obligations.PushCompletes := by
  rintro ⟨i, w⟩ command s allowed canonical pos le inside
  obtain ⟨p, u, ended⟩ := pushRun_isSome (s := s) (fun _ => pos)
    (fun circular => allowed.indicesValid circular)
  obtain ⟨counted, counts⟩ :=
    pushRun_counted allowed canonical ⟨pos, by change s.fsRatio.toInt ≤ _; omega⟩ inside ended
  have stream := counted.stream
  rw [← counts]
  refine ⟨finishProcessing (pushResults p u),
    (exec_of_mem_pushCommands command).trans (execPush_of_run allowed ended),
    pushDone_frame stream (counted.other .pull (by decide)), pushDone_arg p u 0, pushDone_arg p u 1,
    ?writeIndex, fun i above => ?otherArgs, ?time, ?cursor, ?bytes⟩
  case writeIndex =>
    rw [pushDone_arg, stream.bufferMode, stream.arg]
    cases mode : s.bufferMode with
    | linear => simp
    | circular =>
      rw [(counted.room mode).2]
      rfl
  case otherArgs =>
    rw [pushDone_arg, if_neg (by omega), if_neg (by omega), if_neg (by omega), stream.arg]
  case time =>
    rw [pushDone_eq]
    exact counted.time
  case cursor =>
    rw [pushDone_eq]
    exact counted.cursor
  case bytes =>
    rw [pushDone_eq]
    exact counted.frame

/-- Settles O38: the same for the pull direction, whose loop always ends. -/
theorem pullCompletes : Obligations.PullCompletes := by
  rintro ⟨i, w⟩ command s allowed canonical pos le inside
  obtain ⟨p, u, ended⟩ := pullRun_isSome s
  obtain ⟨counted, counts⟩ := pullRun_counted allowed canonical ⟨pos, le⟩ inside ended
  have stream := counted.stream
  rw [← counts]
  refine ⟨finishProcessing (pullResults p u),
    (exec_of_mem_pullCommands command).trans (execPull_of_run allowed ended),
    pullDone_frame stream (counted.other .push (by decide)), pullDone_arg p u 0, pullDone_arg p u 1,
    (pullDone_arg p u 2).trans (stream.arg 2), fun circular => ?readIndex,
    fun i above => ?otherArgs, ?time, ?cursor, ?bytes⟩
  case readIndex =>
    rw [pullDone_arg, stream.bufferMode, circular, (counted.held circular).2]
    rfl
  case otherArgs =>
    rw [pullDone_arg, if_neg (by omega), if_neg (by omega), if_neg (by omega), stream.arg]
  case time =>
    rw [pullDone_eq]
    exact counted.time
  case cursor =>
    rw [pullDone_eq]
    exact counted.cursor
  case bytes =>
    rw [pullDone_eq]
    exact counted.frame

/-! ### Chunking (R178) -/

/-- The outputs due after `m` frames and after `n` more are those due after `m + n`: the second
count starts at the time the first one left. -/
theorem outputsDue_add (m n : Nat) (t : Int) {r : Int} (pos : 0 < r) :
    outputsDue m t r + outputsDue n (t + outputsDue m t r * r - m * Config.one) r
      = outputsDue (m + n) t r := by
  have one : (0 : Int) ≤ Config.one := by decide
  unfold outputsDue
  generalize (Config.one : Int) = c at one ⊢
  have le : (m * c + c - t + r - 1) / r ≤ (((m + n : Nat) : Int) * c + c - t + r - 1) / r := by
    refine Int.ediv_le_ediv pos ?_
    have more : 0 ≤ (n : Int) * c := by positivity
    push_cast
    linarith
  have rest : ∀ j : Nat, (n * c + c - (t + j * r - m * c) + r - 1) / r
      = (((m + n : Nat) : Int) * c + c - t + r - 1) / r - j := by
    intro j
    rw [← Int.sub_mul_ediv_right _ _ pos.ne']
    congr 1
    push_cast
    ring
  rw [rest]
  omega

/-- To a linear buffer a push consumes what it is offered (R206): its output count, time and cursor
in closed form. -/
theorem linearPush_counts {i : Instr} {w k : Nat} {s t : State}
    (command : (i, w) ∈ pushCommands) (allowed : ProcessingAllowed w .push s)
    (linear : s.bufferMode = .linear)
    (asked : frameCount .push s = k) (canonical : s.dmem.wf = true) (pos : 0 < s.fsRatio.toInt)
    (le : s.fsRatio.toInt ≤ 2 ^ 30) (inside : s.writePosition.toNat < s.bufferLength.toNat)
    (answer : exec i s = .next t) :
    t.fsRatio = s.fsRatio ∧ t.bufferMode = s.bufferMode ∧ t.bufferLength = s.bufferLength
      ∧ t.arg 1 = BitVec.ofNat 32 (outputsDue k s.timeValue.toInt s.fsRatio.toInt)
      ∧ t.timeValue.toInt = s.timeValue.toInt
          + outputsDue k s.timeValue.toInt s.fsRatio.toInt * s.fsRatio.toInt - k * Config.one
      ∧ t.writePosition.toNat = (s.writePosition.toNat + k) % s.bufferLength.toNat := by
  have done : framesDone .push s = (k, outputsDue k s.timeValue.toInt s.fsRatio.toInt) := by
    have count : framesAsked .push s = k := by rw [framesAsked, asked, Int.toNat_natCast]
    rw [← count]
    exact if_neg fun both => nomatch both.1.symm.trans linear
  obtain ⟨t', answer', frame, -, produced, -, -, time, cursor, -⟩ :=
    pushCompletes (i, w) command s allowed canonical pos le inside
  cases answer'.symm.trans answer
  rw [done] at produced time cursor
  exact ⟨by rw [frame], by rw [frame], by rw [frame], produced, time, cursor⟩

/-- A frame count written to `A[0]` is what a push is asked for. -/
theorem frameCount_set_zero (s : State) {m : Nat} (small : m < 2 ^ 31) :
    frameCount .push { s with a := s.a.set 0 (BitVec.ofNat 32 m) } = m := by
  have written : (s.setArg 0 (BitVec.ofNat 32 m)).arg 0 = BitVec.ofNat 32 m :=
    arg_setArg_same s 0 _
  change (s.setArg 0 (BitVec.ofNat 32 m)).argInt 0 = m
  rw [State.argInt, written, toInt_ofNat_of_lt small]

/-- To a linear buffer no other operand is checked than the count. -/
theorem ProcessingAllowed.set_count {w m : Nat} {s : State} (allowed : ProcessingAllowed w .push s)
    (linear : s.bufferMode = .linear) (small : m < 2 ^ 31) :
    ProcessingAllowed w .push { s with a := s.a.set 0 (BitVec.ofNat 32 m) } where
  ready := allowed.ready
  width := allowed.width
  direction := allowed.direction
  updated := allowed.updated
  input := allowed.input
  output := allowed.output
  frames := by
    rw [frameCount_set_zero s small]
    omega
  indices circular := nomatch circular.symm.trans linear

/-- Settles O40: the closed forms of the counts, the time and the cursor add up. -/
theorem pushCountsDoNotDependOnChunking : Obligations.PushCountsDoNotDependOnChunking := by
  rintro ⟨i, w⟩ command s u t1 t2 m n ip op allowed linear _ pos le inside canonical small
    offered execU exec1 allowed2 exec2
  have asked : frameCount .push s = m := by
    rw [frameCount, State.argInt, offered, toInt_ofNat_of_lt (by omega)]
  obtain ⟨-, -, -, producedU, timeU, cursorU⟩ := linearPush_counts command
    (allowed.set_count linear small) linear (frameCount_set_zero s small) canonical pos le inside
    execU
  obtain ⟨ratio, mode, length, produced1, time1, cursor1⟩ := linearPush_counts command
    allowed linear asked canonical pos le inside exec1
  have canonical1 : t1.dmem.wf = true := wf_of_exec canonical exec1
  obtain ⟨-, -, -, produced2, time2, cursor2⟩ := linearPush_counts command allowed2
    (mode.trans linear)
    (frameCount_set_zero { t1 with iptr := ip, optr := op } (m := n) (by omega))
    canonical1 (by rwa [ratio]) (by rwa [ratio])
    (by rw [cursor1, length]; exact Nat.mod_lt _ (by omega)) exec2
  dsimp only at producedU timeU cursorU produced2 time2 cursor2
  have total := outputsDue_add m n s.timeValue.toInt pos
  rw [← time1] at total
  rw [ratio] at produced2 time2
  refine ⟨?outputs, BitVec.eq_of_toInt_eq ?time, BitVec.eq_of_toNat_eq ?cursor⟩
  case outputs => rw [produced1, produced2, producedU, ← total, BitVec.ofNat_add]
  case time =>
    rw [time2, timeU, ← total]
    push_cast
    linarith
  case cursor => rw [cursor2, cursorU, cursor1, length, Nat.mod_add_mod, Nat.add_assoc]

end Sys2Proof.Machine
end

section
/-! PROOFS. The index discipline of circular buffers, and the special cases of the processing
commands (spec/44_drift_controller.md R193; spec/45_mode_dispatcher.md R207, R214, R217, R218). -/

namespace Sys2Proof.Machine

/-! ### Circular buffers, whatever the ratio -/

section

variable {w : Nat} {d : OperationMode} {s t : State} {p : Progress}

/-- How far a circular push has got: the input, the room left and the write index (R205, R207). -/
structure PushIndexed (s : State) (p : Progress) : Prop where
  input : p.i ≤ framesAsked .push s
  reads : p.r = s.readIndex.toNat
  room  : roomOf (requestOf .push s) p + p.j = roomFor s
  write : p.w = (s.writeIndex.toNat + p.j) % s.ioLen.toNat

theorem pushKeeps_indexed (circular : s.bufferMode = .circular) (valid : indicesValid s = true) :
    PushKeeps (requestOf .push s) (fun p _ => PushIndexed s p) where
  input p _ h _ more :=
    { h with input := Nat.lt_of_le_of_ne h.input more }
  outputCircular p _ h _ _ free := by
    obtain ⟨-, -, readBelow, -⟩ := indicesValid_bounds valid
    have writeBelow : p.w < (requestOf .push s).ioLen := by
      rw [h.write]
      exact Nat.mod_lt _ (by omega)
    have next := roomOf_next writeBelow (h.reads ▸ readBelow) free
    have room := h.room
    exact
      { input := h.input
        reads := h.reads
        room := by
          dsimp only at next ⊢
          omega
        write := by
          dsimp only
          rw [h.write, ← Nat.add_assoc]
          exact Nat.mod_add_mod _ _ _ }
  outputLinear _ _ _ _ linear :=
    nomatch linear.symm.trans ((requestOf_circular .push s).2 circular)

theorem pushRun_indexed {u : State} (circular : s.bufferMode = .circular)
    (valid : indicesValid s = true) (ended : pushRun s = some (p, u)) : PushIndexed s p := by
  obtain ⟨-, writeBelow, -, -⟩ := indicesValid_bounds valid
  refine (pushLoop_keeps (pushKeeps_indexed circular valid) ?_ ended).1
  exact
    { input := Nat.zero_le _
      reads := rfl
      room := roomOf_start valid
      write := (Nat.mod_eq_of_lt writeBelow).symm }

/-- How far a circular pull has got: the frames left and the read index (R211, R212). -/
structure PullIndexed (s : State) (p : Progress) : Prop where
  writes : p.w = s.writeIndex.toNat
  held   : heldOf (requestOf .pull s) p + p.i = framesHeld s
  read   : p.r = (s.readIndex.toNat + p.i) % s.ioLen.toNat

theorem pullKeeps_indexed (circular : s.bufferMode = .circular) (valid : indicesValid s = true) :
    PullKeeps (requestOf .pull s) (fun p _ => PullIndexed s p) where
  inputCircular p _ h _ _ _ more := by
    obtain ⟨-, writeBelow, -, -⟩ := indicesValid_bounds valid
    have readBelow : p.r < (requestOf .pull s).ioLen := by
      rw [h.read]
      exact Nat.mod_lt _ (by omega)
    have next := heldOf_next (h.writes ▸ writeBelow) readBelow more
    have held := h.held
    exact
      { writes := h.writes
        held := by
          dsimp only at next ⊢
          omega
        read := by
          dsimp only
          rw [h.read, ← Nat.add_assoc]
          exact Nat.mod_add_mod _ _ _ }
  inputLinear _ _ _ _ _ linear :=
    nomatch linear.symm.trans ((requestOf_circular .pull s).2 circular)
  output _ _ h _ _ := { h with }

theorem pullRun_indexed {u : State} (circular : s.bufferMode = .circular)
    (valid : indicesValid s = true) (ended : pullRun s = some (p, u)) : PullIndexed s p := by
  obtain ⟨-, -, readBelow, -⟩ := indicesValid_bounds valid
  refine (pullLoop_keeps (pullKeeps_indexed circular valid) ?_ ended).1
  exact
    { writes := rfl
      held := heldOf_start valid
      read := (Nat.mod_eq_of_lt readBelow).symm }

/-- `modIndex` with a modulus from a register is the remainder of the rule (R207, R212). -/
theorem modIndex_toNat (v : Int) {m : Int} (pos : 0 < m) : (modIndex v m.toNat : Int) = v % m := by
  rw [modIndex, Int.toNat_of_nonneg pos.le, Int.toNat_of_nonneg (Int.emod_nonneg _ pos.ne')]

/-- An index advanced modulo a length from a register (R205, R211). -/
theorem natCast_advance {x m : Int} (nonneg : 0 ≤ x) (pos : 0 < m) (n : Nat) :
    (((x.toNat + n) % m.toNat : Nat) : Int) = (x + n) % m := by
  rw [Int.natCast_mod, Int.natCast_add, Int.toNat_of_nonneg nonneg, Int.toNat_of_nonneg pos.le]

/-- A count or an index below `2^31` is read from its argument register as itself (R22). -/
theorem argInt_of_arg {i : Fin 16} {n : Nat} (written : t.arg i = BitVec.ofNat 32 n)
    (small : n < 2 ^ 31) : t.argInt i = n := by
  rw [State.argInt, written, toInt_ofNat_of_lt small]

end

/-- Settles O41: room and frames produced add up to the room found, so it is never exceeded. -/
theorem pushNeverWritesPastTheReadIndex : Obligations.PushNeverWritesPastTheReadIndex := by
  rintro ⟨i, w⟩ command s t allowed circular answer
  obtain ⟨p, u, ended, rfl⟩ :=
    run_of_execPush allowed ((exec_of_mem_pushCommands command).symm.trans answer)
  have valid := allowed.indicesValid circular
  obtain ⟨one_lt, writeNonneg, writeBelow, -⟩ := allowed.indices circular
  obtain ⟨input, -, room, write⟩ := pushRun_indexed circular valid ended
  have length := word_toInt_mem (s.arg 4)
  have asked := word_toInt_mem (s.arg 0)
  have count : (framesAsked .push s : Int) = s.argInt 0 := Int.toNat_of_nonneg allowed.frames
  have roomEq : (roomFor s : Int) = (s.argInt 3 - s.argInt 2 - 1) % s.argInt 4 :=
    modIndex_toNat _ (by omega)
  have roomBelow := Int.emod_lt_of_pos (s.argInt 3 - s.argInt 2 - 1) (b := s.argInt 4) (by omega)
  have writeEq : (p.w : Int) = (s.argInt 2 + p.j) % s.argInt 4 := by
    rw [write]
    exact natCast_advance (m := s.argInt 4) writeNonneg (by omega) p.j
  have writeIndexBelow := Int.emod_lt_of_pos (s.argInt 2 + p.j) (b := s.argInt 4) (by omega)
  have produced := argInt_of_arg (pushDone_arg p u 1) (n := p.j)
    (by unfold State.argInt at *; omega)
  have consumed := argInt_of_arg (pushDone_arg p u 0) (n := p.i)
    (by unfold State.argInt at *; omega)
  have index : (finishProcessing (pushResults p u)).argInt 2 = p.w := by
    refine argInt_of_arg ?_ (by unfold State.argInt at *; omega)
    rw [pushDone_arg, (pushRun_stream ended).bufferMode, circular]
    rfl
  refine ⟨rfl, ?_, ?_, ?_⟩
  · omega
  · rw [index, produced, writeEq]
  · omega

/-- Settles O42: frames held and frames consumed add up to the frames found. -/
theorem pullNeverReadsPastTheWriteIndex : Obligations.PullNeverReadsPastTheWriteIndex := by
  rintro ⟨i, w⟩ command s t allowed circular answer
  obtain ⟨p, u, ended, rfl⟩ :=
    run_of_execPull allowed ((exec_of_mem_pullCommands command).symm.trans answer)
  have valid := allowed.indicesValid circular
  obtain ⟨one_lt, -, -, readNonneg, readBelow⟩ := allowed.indices circular
  obtain ⟨-, held, read⟩ := pullRun_indexed circular valid ended
  have length := word_toInt_mem (s.arg 4)
  have heldEq : (framesHeld s : Int) = (s.argInt 2 - s.argInt 3) % s.argInt 4 :=
    modIndex_toNat _ (by omega)
  have heldBelow := Int.emod_lt_of_pos (s.argInt 2 - s.argInt 3) (b := s.argInt 4) (by omega)
  have readEq : (p.r : Int) = (s.argInt 3 + p.i) % s.argInt 4 := by
    rw [read]
    exact natCast_advance (m := s.argInt 4) readNonneg (by omega) p.i
  have readIndexBelow := Int.emod_lt_of_pos (s.argInt 3 + p.i) (b := s.argInt 4) (by omega)
  have consumed := argInt_of_arg (pullDone_arg p u 0) (n := p.i)
    (by unfold State.argInt at *; omega)
  have index : (finishProcessing (pullResults p u)).argInt 3 = p.r := by
    refine argInt_of_arg ?_ (by unfold State.argInt at *; omega)
    rw [pullDone_arg, (pullRun_stream ended).bufferMode, circular]
    rfl
  refine ⟨?_, ?_⟩
  · omega
  · rw [index, consumed, readEq]

/-! ### A pull of no frames (R217) -/

/-- Asked for no frame, the loop stops before its first step. -/
theorem pullRun_of_no_frames {s : State} (none : s.arg 1 = 0) :
    pullRun s = some (startProgress s, s) := by
  have frames : (requestOf .pull s).frames = 0 := by
    change (s.arg 1).toInt.toNat = 0
    rw [none]
    rfl
  rw [pullRun, pullBudget, pullLoop, frames]
  rfl

/-- Settles O43: the results are written from the start of the loop, over the state it began with.
-/
theorem pullOfNoFramesWritesOnlyResults : Obligations.PullOfNoFramesWritesOnlyResults := by
  rintro ⟨i, w⟩ command s allowed none
  have answer : exec i s = .next (finishProcessing (pullResults (startProgress s) s)) :=
    (exec_of_mem_pullCommands command).trans (execPull_of_run allowed (pullRun_of_no_frames none))
  refine ⟨_, answer, pullDone_eq _ s, pullDone_arg _ s 0, pullDone_arg _ s 1,
    fun circular => ?readIndex, fun j not0 not1 not3 => ?otherArgs⟩
  case readIndex =>
    obtain ⟨-, -, -, readNonneg, -⟩ := allowed.indices circular
    rw [pullDone_arg, circular]
    change BitVec.ofNat 32 (s.arg 3).toInt.toNat = s.arg 3
    have same := toInt_eq_toNat_of_nonneg readNonneg
    rw [same, Int.toNat_natCast, BitVec.ofNat_toNat, BitVec.setWidth_eq]
  case otherArgs => rw [pullDone_arg, if_neg not0, if_neg not1, if_neg not3]

/-! ### A push that never ends (R218, assumption 8) -/

/-- With no increment the time never passes `ONE`, whatever the steps given. -/
theorem pushLoop_eq_none {q : Request} (linear : q.circular = false) (n : Nat) (p : Progress)
    {s : State} (still : s.increment .push = 0) (due : s.time .push < (Config.one : Int)) :
    pushLoop q n p s = none := by
  induction n generalizing p s with
  | zero => rfl
  | succ n ih =>
    have time : (trkEmit .push p.j s).time .push = s.time .push := by
      obtain ⟨lo, hi⟩ := time_mem .push s
      rw [trkEmit_time, still, add_zero]
      exact sat_of_mem (by norm_num; exact lo) (by norm_num; exact hi)
    have again := ih { p with j := p.j + 1 } (s := trkEmit .push p.j s)
      (((trkEmit_stream .push p.j s).increment .push).trans still) (time ▸ due)
    rw [pushLoop, trkDecide, if_neg due.not_ge, linear]
    exact again

/-- Settles O45: the loop is `none` for every budget, so for the command's. -/
theorem pushWithZeroRatioNeverEnds : Obligations.PushWithZeroRatioNeverEnds := by
  rintro ⟨i, w⟩ command s allowed linear zero due
  have notCircular : (requestOf .push s).circular = false := by simp [requestOf, linear]
  have still : s.increment .push = 0 := by
    change s.fsRatio.toInt = 0
    rw [zero]
    rfl
  have never : pushRun s = none := pushLoop_eq_none notCircular _ _ still due
  rw [exec_of_mem_pushCommands command]
  obtain ⟨-, p, u, ended, -⟩ | ⟨-, -, stuck⟩ | ⟨failed, -⟩ := execPush_cases w s
  · exact nomatch never.symm.trans ended
  · exact stuck
  · exact absurd ((processCheck_ok_iff w .push s).2 allowed) failed

/-! ### Fixed mode (R193) -/

/-- The four processing commands with their widths and directions. -/
def directedCommands : List (Instr × Nat × OperationMode) :=
  [(.push16, 16, .push), (.push32, 32, .push), (.pull16, 16, .pull), (.pull32, 32, .pull)]

section

variable {i : Instr} {w : Nat} {d : OperationMode} {s t : State}

theorem mem_processingCommands_of_directed (command : (i, w, d) ∈ directedCommands) :
    (i, w, d, failCode d) ∈ processingCommands := by
  have each : ∀ k ∈ directedCommands, (k.1, k.2.1, k.2.2, failCode k.2.2) ∈ processingCommands := by
    decide
  exact each (i, w, d) command

theorem directed_cases (command : (i, w, d) ∈ directedCommands) :
    (d = .push ∧ (i, w) ∈ pushCommands) ∨ (d = .pull ∧ (i, w) ∈ pullCommands) := by
  have each : ∀ k ∈ directedCommands, (k.2.2 = .push ∧ (k.1, k.2.1) ∈ pushCommands)
      ∨ (k.2.2 = .pull ∧ (k.1, k.2.1) ∈ pullCommands) := by
    decide
  exact each (i, w, d) command

/-- A processing command that answers `ASRC_EC_OK` was allowed, and used up its update in fixed
mode. -/
theorem allowed_of_ok (command : (i, w, d) ∈ directedCommands) (answer : exec i s = .next t)
    (ok : t.err = .ok) :
    ProcessingAllowed w d s
      ∧ t.fsUpdated = if s.controlMode = .fixed then false else s.fsUpdated := by
  have passed : processCheck w d s = .ok := by
    by_contra failed
    cases (exec_of_processCheck_error (mem_processingCommands_of_directed command) rfl
      failed).symm.trans answer
    exact failed ok
  have allowed := (processCheck_ok_iff w d s).1 passed
  refine ⟨allowed, ?_⟩
  obtain ⟨rfl, push⟩ | ⟨rfl, pull⟩ := directed_cases command
  · rw [exec_of_mem_pushCommands push] at answer
    obtain ⟨p, u, ended, rfl⟩ := run_of_execPush allowed answer
    rw [pushDone_eq, pushRun_stream ended]
  · rw [exec_of_mem_pullCommands pull] at answer
    obtain ⟨p, u, ended, rfl⟩ := run_of_execPull allowed answer
    rw [pullDone_eq, pullRun_stream ended]

end

/-- Settles O44: the check of the flag is the first that fails, a success clears it, and an error
does not write it. -/
theorem fixedModeNeedsAnUpdatePerCommand : Obligations.FixedModeNeedsAnUpdatePerCommand := by
  rintro ⟨i, w, d⟩ command s t fixed answer
  refine ⟨fun allowed notUpdated => ?missing, fun ok => ?success, fun error => ?failure⟩
  case missing =>
    have failed : processCheck w d s = .updateFsFailed :=
      processCheck_of_not_updated allowed.ready allowed.width allowed.direction
        fun updated => nomatch notUpdated.symm.trans (updated fixed)
    cases (exec_of_processCheck_error (mem_processingCommands_of_directed command) failed
      (by decide)).symm.trans answer
    rfl
  case success =>
    obtain ⟨allowed, cleared⟩ := allowed_of_ok command answer ok
    exact ⟨allowed.updated fixed, cleared.trans (if_pos fixed)⟩
  case failure => rw [eq_of_error answer error]

end Sys2Proof.Machine
end

section
/-! PROOFS. The invariants of a configured block, and how each operation keeps them
(spec/10_state.md R53). -/

namespace Sys2Proof.Machine

/-! ### What the invariants do not read -/

/-- `t` is `s` but for registers and memories R53 does not constrain in a configured block. -/
def SameConfiguration (s t : State) : Prop :=
  t = { s with
        a := t.a, iptr := t.iptr, optr := t.optr, err := t.err, lifecycle := t.lifecycle
        fsUpdated := t.fsUpdated, busy := t.busy, inputFormat := t.inputFormat
        outputFormat := t.outputFormat, bufferMode := t.bufferMode, controlMode := t.controlMode
        operationMode := t.operationMode, ir := t.ir, dmem := t.dmem, freeCount := t.freeCount
        hostData := t.hostData, pending := t.pending }

section

variable {s t : State}

/-- A used cell of a shaped ring is stored, so the counter of free values is not read. -/
theorem ringCell_eq_of_ring_eq (shaped : RingShaped s) (ring : t.ring = s.ring) {c p : Nat}
    (used : c < s.numChannels.toNat) (inside : p < s.bufferLength.toNat) :
    ringCell t c p = ringCell s c p := by
  obtain ⟨row, stored, length⟩ := ringShaped_row shaped used
  rw [ringCell, ringCell, ring, stored, Option.bind_some, List.getElem?_eq_getElem (by omega),
    Option.getD_some, Option.getD_some]

theorem ConfiguredInv.of_sameConfiguration (h : ConfiguredInv s) (same : SameConfiguration s t) :
    ConfiguredInv t := by
  unfold SameConfiguration at same
  rw [same]
  exact { h with }

theorem ReadyInv.of_sameConfiguration (h : ReadyInv s) (same : SameConfiguration s t) :
    ReadyInv t := by
  have configured := h.toConfiguredInv.of_sameConfiguration same
  have ring : t.ring = s.ring := by rw [same]
  have cells := fun {c p} => ringCell_eq_of_ring_eq h.ringShaped ring (c := c) (p := p)
  unfold SameConfiguration at same
  rw [same] at configured cells ⊢
  exact { h with
    toConfiguredInv := configured
    samples := fun c used p inside => by
      rw [cells used inside]
      exact h.samples c used p inside }

theorem NoFilterInv.of_sameConfiguration (h : NoFilterInv s) (same : SameConfiguration s t) :
    NoFilterInv t := by
  have configured := h.toConfiguredInv.of_sameConfiguration same
  unfold SameConfiguration at same
  rw [same] at configured ⊢
  exact { h with toConfiguredInv := configured }

/-! ### The steps of a processing command -/

/-- The largest increment of a direction (R53 item 5). -/
def incrementBound (p : Params) : OperationMode → Int
  | .push => p.ratioMax
  | .pull => 2 ^ 30 + 2 ^ 5

theorem ReadyInv.time_bounds (h : ReadyInv s) (d : OperationMode) :
    0 ≤ s.time d ∧ s.time d < Config.one + incrementBound s.params d := by
  cases d with
  | push => exact h.time
  | pull => exact h.timePull

theorem ReadyInv.increment_bounds (h : ReadyInv s) (wf : s.params.wf = true) (d : OperationMode) :
    IncrementOk d s ∧ s.increment d ≤ incrementBound s.params d := by
  obtain ⟨-, -, ratioMin, -, ratioMax, -⟩ := params_bounds wf
  cases d with
  | push =>
    obtain ⟨lo, hi⟩ := h.ratio
    exact ⟨⟨by change 0 < s.fsRatio.toInt; omega, by change s.fsRatio.toInt ≤ _; omega⟩, hi⟩
  | pull => exact ⟨h.ratioInv, h.ratioInv.2⟩

/-- The items of R53 that an input or output step can touch are its cursor, its cells and its
times. -/
theorem ReadyInv.of_stream (h : ReadyInv s) (stream : SameButStream s t)
    (cursor : t.writePosition.toNat < s.bufferLength.toNat) (shaped : RingShaped t)
    (samples : ∀ c < s.numChannels.toNat, ∀ p < s.bufferLength.toNat,
      InInt s.bitDepth.toNat (ringCell t c p))
    (times : ∀ e, 0 ≤ t.time e ∧ t.time e < Config.one + incrementBound s.params e) :
    ReadyInv t := by
  obtain ⟨timeValue, timeValuePull, writePosition, ring, ir, dmem, rfl⟩ :
      ∃ timeValue timeValuePull writePosition ring ir dmem,
        t = { s with
              timeValue := timeValue, timeValuePull := timeValuePull
              writePosition := writePosition, ring := ring, ir := ir, dmem := dmem } :=
    ⟨_, _, _, _, _, _, stream⟩
  exact { h with
    cursor := cursor
    ringShaped := shaped
    samples := samples
    time := times .push
    timePull := times .pull }

/-- An input step that is due keeps the invariant: it loads a sample of the type and takes `ONE`
from a time of at least `ONE`. -/
theorem ReadyInv.consume (h : ReadyInv s) (d : OperationMode) (f : Nat)
    (due : (Config.one : Int) ≤ s.time d) : ReadyInv (trkConsume d f s) := by
  have positive : 0 < s.bufferLength.toNat := by have := h.bufferLength; omega
  have ring : (trkConsume d f s).ring = (frameWrite f s).ring := by rw [trkConsume_eq]
  have counts : (trkConsume d f s).numChannels = s.numChannels
      ∧ (trkConsume d f s).bufferLength = s.bufferLength := by
    rw [trkConsume_eq]
    exact ⟨rfl, rfl⟩
  have frameCounts : (frameWrite f s).numChannels = s.numChannels
      ∧ (frameWrite f s).bufferLength = s.bufferLength := by
    rw [frameWrite_eq]
    exact ⟨rfl, rfl⟩
  have written := frameWrite_shaped f h.ringShaped
  refine h.of_stream (trkConsume_stream d f s) ?cursor ?shaped (fun c used p inside => ?samples)
    (fun e => ?times)
  case cursor =>
    rw [trkConsume_writePosition, frameWrite_cursor f h.cursor]
    exact Nat.mod_lt _ positive
  case shaped =>
    unfold RingShaped at written ⊢
    rwa [ring, counts.1, counts.2, ← frameCounts.1, ← frameCounts.2]
  case samples =>
    rw [ringCell_eq_of_ring_eq written ring (by rwa [frameCounts.1]) (by rwa [frameCounts.2]),
      frameWrite_cell f h.ringShaped h.bitDepth used inside]
    split
    · exact inLoad_mem s f c
    · exact h.samples c used p inside
  case times =>
    have before := h.time_bounds e
    have one : (0 : Int) < Config.one := by decide
    by_cases active : e = d
    · subst active
      rw [trkConsume_time_of_due f due]
      omega
    · rwa [trkConsume_time_other active]

/-- An output step that is due keeps the invariant: the time below `ONE` gains at most the largest
increment, and the ring is not written. -/
theorem ReadyInv.emit (h : ReadyInv s) (wf : s.params.wf = true) (d : OperationMode) (f : Nat)
    (due : s.time d < (Config.one : Int)) : ReadyInv (trkEmit d f s) := by
  obtain ⟨increment, bounded⟩ := h.increment_bounds wf d
  have ring : (trkEmit d f s).ring = s.ring := by rw [trkEmit_eq]
  refine h.of_stream (trkEmit_stream d f s) ?cursor ?shaped (fun c used p inside => ?samples)
    (fun e => ?times)
  case cursor =>
    rw [trkEmit_writePosition]
    exact h.cursor
  case shaped =>
    have counts : (trkEmit d f s).numChannels = s.numChannels
        ∧ (trkEmit d f s).bufferLength = s.bufferLength := by
      rw [trkEmit_eq]
      exact ⟨rfl, rfl⟩
    unfold RingShaped
    rw [ring, counts.1, counts.2]
    exact h.ringShaped
  case samples =>
    rw [ringCell_eq_of_ring_eq h.ringShaped ring used inside]
    exact h.samples c used p inside
  case times =>
    have before := h.time_bounds e
    by_cases active : e = d
    · subst active
      have positive := increment.1
      rw [trkEmit_time_of_due f due increment]
      omega
    · rwa [trkEmit_time_other active]

theorem pushKeeps_ready (q : Request) :
    PushKeeps q (fun _ s => ReadyInv s ∧ s.params.wf = true) where
  input p s h due _ := ⟨h.1.consume .push p.i due, by rw [trkConsume_eq]; exact h.2⟩
  outputCircular p s h due _ _ := ⟨h.1.emit h.2 .push p.w due, by rw [trkEmit_eq]; exact h.2⟩
  outputLinear p s h due _ := ⟨h.1.emit h.2 .push p.j due, by rw [trkEmit_eq]; exact h.2⟩

theorem pullKeeps_ready (q : Request) :
    PullKeeps q (fun _ s => ReadyInv s ∧ s.params.wf = true) where
  inputCircular p s h _ due _ _ := ⟨h.1.consume .pull p.r due, by rw [trkConsume_eq]; exact h.2⟩
  inputLinear p s h _ due _ := ⟨h.1.consume .pull p.i due, by rw [trkConsume_eq]; exact h.2⟩
  output p s h _ due := ⟨h.1.emit h.2 .pull p.j due, by rw [trkEmit_eq]; exact h.2⟩

/-! ### The ratios -/

/-- The reciprocal of a ratio in the range of R5 (R43, R53 item 6). -/
theorem divRound_reciprocal_bounds {r : Nat} (lo : 2 ^ 24 ≤ r) (hi : r ≤ 2 ^ 30) :
    0 < divRound (2 ^ 54) r ∧ divRound (2 ^ 54) r ≤ 2 ^ 30 := by
  obtain ⟨upper, lower⟩ := divRound_near (2 ^ 54) (d := r) (by omega)
  generalize divRound (2 ^ 54) r = q at upper lower ⊢
  rw [mul_assoc] at upper lower
  refine ⟨Nat.pos_of_ne_zero fun zero => ?_, not_lt.1 fun above => ?_⟩
  · rw [zero] at lower
    omega
  · have big : r * (2 ^ 30 + 1) ≤ r * q := Nat.mul_le_mul_left r above
    omega

/-- Two ratios rounded from reciprocal quotients: where one is in the range of R5, so is the other,
up to the rounding (R53 item 6). -/
theorem reciprocal_rounding_bounds {n m r q : Nat}
    (near : 2 * m * r ≤ 2 * (n * 2 ^ 27) + m ∧ 2 * (n * 2 ^ 27) + m < 2 * m * (r + 1))
    (near' : 2 * n * q ≤ 2 * (m * 2 ^ 27) + n ∧ 2 * (m * 2 ^ 27) + n < 2 * n * (q + 1))
    (lo : 2 ^ 24 ≤ r) (hi : r ≤ 2 ^ 30) : 0 < q ∧ q ≤ 2 ^ 30 + 2 ^ 5 := by
  simp only [mul_assoc, mul_add_one] at near near'
  have num : m * 2 ^ 24 ≤ m * r := Nat.mul_le_mul_left m lo
  have den : m * r ≤ m * 2 ^ 30 := Nat.mul_le_mul_left m hi
  refine ⟨Nat.pos_of_ne_zero fun zero => ?_, not_lt.1 fun above => ?_⟩
  · rw [zero] at near'
    omega
  · have big : n * (2 ^ 30 + 2 ^ 5 + 1) ≤ n * q := Nat.mul_le_mul_left n above
    omega

/-- The reciprocal of a measured ratio in range (R190). -/
theorem countRatio_swap_bounds {a b : Int} (posA : 0 < a) (posB : 0 < b)
    (lo : 2 ^ 24 ≤ countRatio a b) (hi : countRatio a b ≤ 2 ^ 30) :
    0 < countRatio b a ∧ countRatio b a ≤ 2 ^ 30 + 2 ^ 5 :=
  reciprocal_rounding_bounds (n := a.toNat) (m := b.toNat)
    (divRound_near (a.toNat * 2 ^ 27) (d := b.toNat) (by omega))
    (divRound_near (b.toNat * 2 ^ 27) (d := a.toNat) (by omega)) lo hi

end

/-! ### The commands that configure -/

theorem filterCount_bounds (n : FilterCount) : 4 ≤ n.toNat ∧ n.toNat ≤ 7 := by
  cases n <;> decide

/-- A rate register that passed its check holds a supported rate (R53 item 1). -/
theorem toNat_mem_supportedRates {w : Word} (rate : ∃ r ∈ Config.supportedRates, w.toInt = r) :
    w.toNat ∈ Config.supportedRates := by
  have same := toNat_toInt_of_rate rate
  obtain ⟨r, supported, read⟩ := rate
  rwa [← same, read, Int.toNat_natCast]

/-- A ring of zeros, one row a channel (R127). -/
theorem ringShaped_zeros {s : State}
    (zeros : s.ring = List.replicate s.numChannels.toNat (List.replicate s.bufferLength.toNat 0)) :
    RingShaped s := by
  unfold RingShaped
  rw [zeros]
  refine ⟨List.length_replicate, fun row mem => ?_⟩
  rw [List.eq_of_mem_replicate mem, List.length_replicate]

theorem ringCell_zeros {s : State}
    (zeros : s.ring = List.replicate s.numChannels.toNat (List.replicate s.bufferLength.toNat 0))
    {c p : Nat} (used : c < s.numChannels.toNat) (inside : p < s.bufferLength.toNat) :
    ringCell s c p = 0 := by
  rw [ringCell, zeros, List.getElem?_replicate_of_lt used, Option.bind_some,
    List.getElem?_replicate_of_lt inside]
  rfl

theorem inInt_zero (w : Nat) : InInt w 0 := by
  have half := two_pow_cast_pos (w - 1)
  unfold InInt
  omega

/-- What `INIT` and `SETFS` install makes a configured block ready: the entry is the pair's, its
length and ratio passed, the times are `ONE` and the ring is zero (R53, R238). -/
theorem readyInv_install {s : State} {e : FilterEntry} (wf : s.params.wf = true)
    (channels : 1 ≤ s.numChannels.toNat ∧ s.numChannels.toNat ≤ s.params.maxChannels)
    (depth : s.bitDepth = 16 ∨ s.bitDepth = 32)
    (length : 2 ≤ s.bufferLength.toNat ∧ s.bufferLength.toNat ≤ s.params.ringCapacity)
    (passed : rateCheck s.params s.fsPrim.toInt s.fsSec.toInt s.bufferLength.toNat = .ok e) :
    ReadyInv (install e s) := by
  obtain ⟨prim, sec, entry, lo, hi, mult, four_le, le_max, fits⟩ := rateCheck_ok passed
  obtain ⟨-, -, ratioMin, -, ratioMax, -⟩ := params_bounds wf
  obtain ⟨r, nominal⟩ : ∃ r, nominalRatio s.fsPrim.toInt s.fsSec.toInt = r := ⟨_, rfl⟩
  rw [nominal] at lo hi
  obtain ⟨four, seven⟩ := filterCount_bounds e.numFilters
  obtain ⟨invPos, invLe⟩ := divRound_reciprocal_bounds (r := r) (by omega) (by omega)
  have ratio : (BitVec.ofNat 32 r : Word).toInt = r := toInt_ofNat_of_lt (by omega)
  have inverse : (BitVec.ofNat 32 (divRound (2 ^ 54) r) : Word).toInt = divRound (2 ^ 54) r :=
    toInt_ofNat_of_lt (by omega)
  have filters : (BitVec.ofNat 32 e.numFilters.toNat : Word).toNat = e.numFilters.toNat :=
    toNat_ofNat_of_lt (by omega)
  have taps : (BitVec.ofNat 32 e.filterLength : Word).toNat = e.filterLength :=
    toNat_ofNat_of_lt (by have := s.bufferLength.isLt; omega)
  have time : (0x08000000 : Word).toInt = Config.one := by decide
  rw [install_eq nominal]
  exact
    { channels := channels
      fsPrim := toNat_mem_supportedRates prim
      fsSec := toNat_mem_supportedRates sec
      bitDepth := depth
      bufferLength := length
      cursor := by
        change 0 < s.bufferLength.toNat
        omega
      ringShaped := ringShaped_zeros rfl
      numFilters := by
        dsimp only
        omega
      filterLength := by
        dsimp only
        omega
      ringHolds := by
        dsimp only
        omega
      ratio := by
        dsimp only
        omega
      ratioInv := by
        dsimp only
        omega
      nominal := by
        dsimp only
        rw [toNat_ofNat_of_lt (by omega), nominal]
      time := by
        dsimp only
        omega
      timePull := by
        dsimp only
        omega
      samples := fun c used p inside => by
        rw [ringCell_zeros rfl used inside]
        exact inInt_zero _
      table := ⟨e, entry, filters, taps, rfl⟩ }

/-- `INIT` with passed checks makes the block ready. -/
theorem readyInv_of_init {s : State} {e : FilterEntry} (wf : s.params.wf = true)
    (passed : initCheck s = .ok e) :
    ReadyInv (returnCode .ok { install e (writeConfiguration s) with lifecycle := .ready }) := by
  obtain ⟨-, answer⟩ | ⟨-, -, answer⟩ | ⟨channels, depth, ⟨-, answer⟩ | ⟨length, answer⟩⟩ :=
    initCheck_cases s
  · exact nomatch answer.symm.trans passed
  · exact nomatch answer.symm.trans passed
  · exact nomatch answer.symm.trans passed
  obtain ⟨one_le, le_max⟩ := (channelsOk_iff _ _).1 channels
  have nch := toInt_eq_toNat_of_nonneg (w := s.arg 0) one_le.le
  have bl := toInt_eq_toNat_of_nonneg (w := s.arg 6) (by unfold State.argInt at length; omega)
  unfold State.argInt at one_le le_max length
  have rates : rateCheck s.params (s.arg 1).toInt (s.arg 2).toInt (s.arg 6).toNat = .ok e := by
    rw [← bl]
    exact answer.symm.trans passed
  have ready : ReadyInv (install e (writeConfiguration s)) :=
    readyInv_install wf (by dsimp only [writeConfiguration]; omega)
      (((bitDepthOk_iff _).1 depth).imp BitVec.eq_of_toInt_eq BitVec.eq_of_toInt_eq)
      (by dsimp only [writeConfiguration]; omega) rates
  exact ready.of_sameConfiguration rfl

/-- `SETFS` with passed checks makes a configured block ready. -/
theorem readyInv_of_setfs {s : State} {e : FilterEntry} (wf : s.params.wf = true)
    (h : ConfiguredInv s)
    (passed : rateCheck s.params (s.argInt 0) (s.argInt 1) s.bufferLength.toNat = .ok e) :
    ReadyInv (returnCode .ok
      { install e { s with fsPrim := s.arg 0, fsSec := s.arg 1 } with lifecycle := .ready }) := by
  have ready : ReadyInv (install e { s with fsPrim := s.arg 0, fsSec := s.arg 1 }) :=
    readyInv_install wf h.channels h.bitDepth h.bufferLength passed
  exact ready.of_sameConfiguration rfl

/-! ### The drift commands -/

/-- The ratio registers can take any ratio and reciprocal in their ranges (R53 items 5 and 6). -/
theorem ReadyInv.set_ratio {s : State} {ratio inverse : Int} (h : ReadyInv s)
    (wf : s.params.wf = true) (lo : (s.params.ratioMin : Int) ≤ ratio)
    (hi : ratio ≤ (s.params.ratioMax : Int))
    (bounds : 0 < inverse ∧ inverse ≤ 2 ^ 30 + 2 ^ 5) :
    ReadyInv { s with fsRatio := toWord ratio, fsRatioInv := toWord inverse } := by
  obtain ⟨-, -, ratioMin, -, ratioMax, -⟩ := params_bounds wf
  exact { h with
    ratio := by
      dsimp only
      rw [toInt_toWord (by omega) (by omega)]
      exact ⟨lo, hi⟩
    ratioInv := by
      dsimp only
      rwa [toInt_toWord (by omega) (by omega)] }

/-- The clamp answers a ratio in range (R187). -/
theorem skewedRatio_bounds {s : State} (ordered : s.params.ratioMin ≤ s.params.ratioMax) :
    (s.params.ratioMin : Int) ≤ skewedRatio s ∧ skewedRatio s ≤ (s.params.ratioMax : Int) := by
  unfold skewedRatio clampRatio
  omega

theorem readyInv_of_updrift {s : State} (h : ReadyInv s) (wf : s.params.wf = true) :
    ReadyInv
      { s with
        err := .ok, fsRatio := toWord (skewedRatio s)
        fsRatioInv := toWord (divRound (2 ^ 54) (skewedRatio s).toNat) } := by
  obtain ⟨-, -, ratioMin, ordered, ratioMax, -⟩ := params_bounds wf
  obtain ⟨lo, hi⟩ := skewedRatio_bounds ordered
  obtain ⟨pos, le⟩ := divRound_reciprocal_bounds (r := (skewedRatio s).toNat) (by omega) (by omega)
  exact (h.set_ratio wf lo hi ⟨by omega, by omega⟩).of_sameConfiguration rfl

/-- What a passed check of `UPDFS` says of the two ratios (R190, R191). -/
theorem countRatio_bounds {s : State} (wf : s.params.wf = true) (passed : updfsCheck s = .ok) :
    s.params.ratioMin ≤ countRatio (s.argInt 0) (s.argInt 1)
      ∧ countRatio (s.argInt 0) (s.argInt 1) ≤ s.params.ratioMax
      ∧ 0 < countRatio (s.argInt 1) (s.argInt 0)
      ∧ countRatio (s.argInt 1) (s.argInt 0) ≤ 2 ^ 30 + 2 ^ 5 := by
  obtain ⟨-, -, ratioMin, -, ratioMax, -⟩ := params_bounds wf
  unfold updfsCheck at passed
  split_ifs at passed with notReady mode nonpos outside
  obtain ⟨pos, le⟩ := countRatio_swap_bounds (a := s.argInt 0) (b := s.argInt 1) (by omega)
    (by omega) (by omega) (by omega)
  exact ⟨by omega, by omega, pos, le⟩

theorem readyInv_of_updfs {s : State} (h : ReadyInv s) (wf : s.params.wf = true)
    (passed : updfsCheck s = .ok) :
    ReadyInv
      { s with
        err := .ok, fsUpdated := true
        fsRatio := toWord (countRatio (s.argInt 0) (s.argInt 1))
        fsRatioInv := toWord (countRatio (s.argInt 1) (s.argInt 0)) } := by
  obtain ⟨lo, hi, pos, le⟩ := countRatio_bounds wf passed
  exact (h.set_ratio wf (by omega) (by omega) ⟨by omega, by omega⟩).of_sameConfiguration rfl

end Sys2Proof.Machine
end

section
/-! PROOFS. Consistent states: every command and every step answers, and answers a consistent one
(spec/10_state.md R53, spec/45_mode_dispatcher.md R218). -/

namespace Sys2Proof.Machine

/-! ### Consistency by lifecycle state -/

section

variable {s t : State}

theorem Consistent.ready (h : Consistent s) (ready : s.lifecycle = .ready) : ReadyInv s := by
  have state := h.state
  rwa [ready] at state

theorem Consistent.configured (h : Consistent s)
    (configured : s.lifecycle = .ready ∨ s.lifecycle = .noFilter) : ConfiguredInv s := by
  have state := h.state
  obtain ready | noFilter := configured
  · rw [ready] at state
    exact ReadyInv.toConfiguredInv state
  · rw [noFilter] at state
    exact NoFilterInv.toConfiguredInv state

theorem consistent_of_ready (idle : t.busy = false) (memory : t.dmem.wf = true)
    (lifecycle : t.lifecycle = .ready) (ready : ReadyInv t) : Consistent t :=
  ⟨idle, memory, by rw [lifecycle]; exact ready⟩

theorem consistent_of_noFilter (idle : t.busy = false) (memory : t.dmem.wf = true)
    (lifecycle : t.lifecycle = .noFilter) (noFilter : NoFilterInv t) : Consistent t :=
  ⟨idle, memory, by rw [lifecycle]; exact noFilter⟩

theorem consistent_of_failed (idle : t.busy = false) (memory : t.dmem.wf = true)
    (lifecycle : t.lifecycle = .failed) : Consistent t :=
  ⟨idle, memory, by rw [lifecycle]; trivial⟩

theorem consistent_of_unconfigured (idle : t.busy = false) (memory : t.dmem.wf = true)
    (lifecycle : t.lifecycle = .unconfigured) (unconfigured : UnconfiguredInv t) : Consistent t :=
  ⟨idle, memory, by rw [lifecycle]; exact unconfigured⟩

/-- `t` is `s` but for what the host writes and reads, `ERR`, and DMEM: what every command can do
in every lifecycle state. -/
def SameBlock (s t : State) : Prop :=
  t = { s with
        a := t.a, iptr := t.iptr, optr := t.optr, err := t.err, dmem := t.dmem
        hostData := t.hostData, pending := t.pending }

theorem UnconfiguredInv.of_sameBlock (h : UnconfiguredInv s) (same : SameBlock s t) :
    UnconfiguredInv t := by
  unfold UnconfiguredInv at h ⊢
  unfold SameBlock at same
  rw [h] at same
  rw [same]

theorem Consistent.of_sameBlock (h : Consistent s) (same : SameBlock s t)
    (memory : t.dmem.wf = true) : Consistent t := by
  have idle : t.busy = false := by
    rw [same]
    exact h.idle
  have lifecycle : t.lifecycle = s.lifecycle := by rw [same]
  have configuration : SameConfiguration s t := by
    unfold SameConfiguration
    rw [same]
  have state := h.state
  cases kind : s.lifecycle <;> rw [kind] at lifecycle state
  case unconfigured =>
    exact consistent_of_unconfigured idle memory lifecycle
      (UnconfiguredInv.of_sameBlock state same)
  case ready =>
    exact consistent_of_ready idle memory lifecycle
      (ReadyInv.of_sameConfiguration state configuration)
  case noFilter =>
    exact consistent_of_noFilter idle memory lifecycle
      (NoFilterInv.of_sameConfiguration state configuration)
  case failed => exact consistent_of_failed idle memory lifecycle

/-- A setter writes a register that no invariant of a configured block reads. -/
theorem Consistent.of_sameConfiguration (h : Consistent s) (configured : isConfigured s = true)
    (same : SameConfiguration s t) (idle : t.busy = false) (memory : t.dmem.wf = true)
    (lifecycle : t.lifecycle = s.lifecycle) : Consistent t := by
  have state := h.state
  obtain kind | kind := (isConfigured_iff s).1 configured <;> rw [kind] at lifecycle state
  · exact consistent_of_ready idle memory lifecycle (ReadyInv.of_sameConfiguration state same)
  · exact consistent_of_noFilter idle memory lifecycle (NoFilterInv.of_sameConfiguration state same)

/-! ### Commands -/

theorem ready_of_updriftCheck (passed : updriftCheck s = .ok) : s.lifecycle = .ready := by
  by_contra notReady
  exact nomatch (updriftCheck_of_not_ready notReady).symm.trans passed

theorem ready_of_updfsCheck (passed : updfsCheck s = .ok) : s.lifecycle = .ready := by
  by_contra notReady
  exact nomatch (updfsCheck_of_not_ready notReady).symm.trans passed

/-- What a push leaves where its loop ended in a ready state. -/
theorem readyInv_of_pushRun {p : Progress} {u : State} (h : ReadyInv s) (wf : s.params.wf = true)
    (ended : pushRun s = some (p, u)) : ReadyInv (finishProcessing (pushResults p u)) := by
  obtain ⟨⟨ready, -⟩, -⟩ := pushLoop_keeps (pushKeeps_ready _) ⟨h, wf⟩ ended
  refine ready.of_sameConfiguration ?_
  unfold SameConfiguration
  rw [pushDone_eq]

theorem readyInv_of_pullRun {p : Progress} {u : State} (h : ReadyInv s) (wf : s.params.wf = true)
    (ended : pullRun s = some (p, u)) : ReadyInv (finishProcessing (pullResults p u)) := by
  obtain ⟨⟨ready, -⟩, -⟩ := pullLoop_keeps (pullKeeps_ready _) ⟨h, wf⟩ ended
  refine ready.of_sameConfiguration ?_
  unfold SameConfiguration
  rw [pullDone_eq]

/-- Every successful answer of a consistent state is consistent. -/
theorem Consistent.of_success {i : Instr} (h : Consistent s) (wf : s.params.wf = true)
    (success : SuccessReturn s i t) (idle : t.busy = false) (memory : t.dmem.wf = true) :
    Consistent t := by
  have lifecycle := lifecycle_of_success success
  cases success with
  | qsize => exact h.of_sameBlock rfl memory
  | init e _ passed =>
    exact consistent_of_ready idle memory lifecycle (readyInv_of_init wf passed)
  | setfs e configured passed =>
    exact consistent_of_ready idle memory lifecycle
      (readyInv_of_setfs wf (h.configured ((isConfigured_iff s).1 configured)) passed)
  | freeflt configured =>
    have kept := h.configured ((isConfigured_iff s).1 configured)
    exact consistent_of_noFilter idle memory lifecycle { kept with
      filterLength := rfl
      numFilters := rfl }
  | setifmt v configured | setofmt v configured | setbmode v configured =>
    exact h.of_sameConfiguration configured rfl idle memory lifecycle
  | updrift passed =>
    have ready := ready_of_updriftCheck passed
    exact consistent_of_ready idle memory ready (readyInv_of_updrift (h.ready ready) wf)
  | updfs passed =>
    have ready := ready_of_updfsCheck passed
    exact consistent_of_ready idle memory ready (readyInv_of_updfs (h.ready ready) wf passed)
  | push i w command p u allowed ended =>
    rw [lifecycleAfterOk_of_processing (.inl command), allowed.ready] at lifecycle
    exact consistent_of_ready idle memory lifecycle
      (readyInv_of_pushRun (h.ready allowed.ready) wf ended)
  | pull i w command p u allowed ended =>
    rw [lifecycleAfterOk_of_processing (.inr command), allowed.ready] at lifecycle
    exact consistent_of_ready idle memory lifecycle
      (readyInv_of_pullRun (h.ready allowed.ready) wf ended)

/-- Every command keeps consistency: an error return writes `ERR` alone or leaves `FAILED`. -/
theorem Consistent.of_exec {i : Instr} (h : Consistent s) (wf : s.params.wf = true)
    (answer : exec i s = .next t) : Consistent t := by
  have memory := wf_of_exec h.memory answer
  have idle : t.busy = false := (params_busy_of_exec answer).2.trans h.idle
  by_cases ok : t.err = .ok
  · exact h.of_success wf (success_of_ok answer ok) idle memory
  · obtain ⟨same, -⟩ | ⟨failed, -⟩ := failingCommandHasNoPartialEffect i s t answer ok
    · refine h.of_sameBlock ?_ memory
      unfold SameBlock
      rw [same]
    · exact consistent_of_failed idle memory (by rw [failed])

/-! ### Steps -/

theorem Consistent.of_hostStep (h : Consistent s) (wf : s.params.wf = true) (act : HostStep s t) :
    Consistent t := by
  have memory := wf_of_hostStep h.memory act
  cases act with
  | command i t answer => exact h.of_exec wf answer
  | write v reg =>
    refine h.of_sameBlock ?_ memory
    unfold SameBlock
    rw [writeReg_eq]
  | reset => exact consistent_of_unconfigured rfl memory rfl rfl
  | _ => exact h.of_sameBlock rfl memory

/-- Taking an act off the list is nothing to the block. -/
theorem Consistent.take_act (h : Consistent s) (rest : List HostEvent) :
    Consistent { s with pending := rest } :=
  h.of_sameBlock rfl h.memory

end

/-- Settles O55: a step is nothing or one act, and every act keeps consistency. -/
theorem everyStepKeepsConsistency : Obligations.EveryStepKeepsConsistency := by
  intro s t wf consistent answer
  obtain rfl | ⟨rest, act⟩ := eq_or_hostStep_of_step answer
  · exact consistent
  · exact (consistent.take_act rest).of_hostStep wf act

/-! ### Progress (R218) -/

section

variable {s : State}

/-- In a ready state the ratio is positive, so the loop of a push ends. -/
theorem exists_execPush (w : Nat) (ready : s.lifecycle = .ready → ReadyInv s)
    (wf : s.params.wf = true) : ∃ t, execPush w s = .next t := by
  by_cases passed : processCheck w .push s = .ok
  · have allowed := (processCheck_ok_iff w .push s).1 passed
    obtain ⟨increment, -⟩ := (ready allowed.ready).increment_bounds wf .push
    obtain ⟨p, u, ended⟩ := pushRun_isSome (s := s) (fun _ => increment.1)
      (fun circular => allowed.indicesValid circular)
    exact ⟨_, execPush_of_run allowed ended⟩
  · exact ⟨_, execPush_of_error rfl passed⟩

theorem exists_execPull (w : Nat) (s : State) : ∃ t, execPull w s = .next t := by
  obtain ⟨-, p, u, -, answer⟩ | ⟨-, answer⟩ := execPull_cases w s
  · exact ⟨_, answer⟩
  · exact ⟨_, answer⟩

/-- Every command answers: there is an answer for each outcome of its checks, and the loops end. -/
theorem exists_exec (consistent : Consistent s) (wf : s.params.wf = true) (i : Instr) :
    ∃ t, exec i s = .next t := by
  cases accepted : accepts s.lifecycle i with
  | false => exact ⟨_, exec_of_not_accepted accepted⟩
  | true =>
    cases i with
    | qsize =>
      by_cases passed : qsizeCheck s = .ok
      · exact ⟨_, exec_qsize_of_ok passed⟩
      · exact ⟨_, exec_qsize_of_error rfl passed⟩
    | init =>
      obtain ⟨-, answer⟩ | ⟨_, -, -, answer⟩ | ⟨_, -, -, answer⟩ := exec_init_cases s <;>
        exact ⟨_, answer⟩
    | setfs =>
      obtain ⟨-, answer⟩ | ⟨_, -, -, answer⟩ | ⟨_, -, -, answer⟩ := exec_setfs_cases s <;>
        exact ⟨_, answer⟩
    | freeflt | setifmt _ | setofmt _ | setbmode _ =>
      exact ⟨_, if_neg (ne_false_of_eq_true accepted)⟩
    | updrift =>
      by_cases passed : updriftCheck s = .ok
      · exact ⟨_, exec_updrift_of_ok passed⟩
      · exact ⟨_, exec_updrift_of_error rfl passed⟩
    | updfs =>
      by_cases passed : updfsCheck s = .ok
      · exact ⟨_, exec_updfs_of_ok passed⟩
      · exact ⟨_, exec_updfs_of_error rfl passed⟩
    | push16 | push32 => exact exists_execPush _ consistent.ready wf
    | pull16 | pull32 => exact exists_execPull _ s

theorem exists_runCommand (consistent : Consistent s) (wf : s.params.wf = true) (w : Word) :
    ∃ t, runCommand w s = .next t := by
  cases decoded : decode w with
  | ok i =>
    rw [runCommand_of_ok decoded]
    exact exists_exec consistent wf i
  | error e => exact ⟨_, runCommand_of_error decoded s⟩

/-- The idle block serves every act. -/
theorem exists_serveIdle (consistent : Consistent s) (wf : s.params.wf = true) (e : HostEvent) :
    ∃ t, serveIdle e s = .next t := by
  cases e with
  | write k v =>
    rw [serveIdle_write]
    split
    · exact exists_runCommand consistent wf v
    · exact ⟨_, rfl⟩
  | _ => exact ⟨_, rfl⟩

theorem exists_step (consistent : Consistent s) (wf : s.params.wf = true) :
    ∃ t, step s = .next t := by
  cases next : s.pending with
  | nil => exact ⟨s, by rw [step, serveNext, next]⟩
  | cons e rest =>
    rw [step_of_idle consistent.idle next]
    exact exists_serveIdle (consistent.take_act rest) wf e

end

/-- Settles O56: every command and every act is answered from a consistent state. -/
theorem nothingStopsTheMachine : Obligations.NothingStopsTheMachine := by
  intro s wf consistent
  exact ⟨exists_exec consistent wf, exists_step consistent wf⟩

end Sys2Proof.Machine
end

section
/-! PROOFS. What a processing command stores: the Farrow convolution at each output position
(spec/42_fir_output.md R150 to R154, spec/43_rate_time_tracker.md R175, R177). -/

namespace Sys2Proof.Machine

/-! ### The samples of a command -/

/-- The bytes of the samples a command produces overlap neither those it consumes nor each other
(R82, R83). -/
structure SamplesApart (d : OperationMode) (s : State) : Prop where
  input : ∀ j < (framesDone d s).2, ∀ c < s.numChannels.toNat, ∀ b < s.sampleBytes,
    ∀ i < (framesDone d s).1, ∀ c' < s.numChannels.toNat, ∀ b' < s.sampleBytes,
      outputByte d s j c b ≠ inputByte d s i c' b'
  output : ∀ j < (framesDone d s).2, ∀ c < s.numChannels.toNat, ∀ b < s.sampleBytes,
    ∀ j' < (framesDone d s).2, ∀ c' < s.numChannels.toNat, ∀ b' < s.sampleBytes,
      outputByte d s j c b = outputByte d s j' c' b' → j = j' ∧ c = c'

/-- The sample a command leaves for output frame `j` and channel `c`, in a state along its loop. -/
def storedSample (d : OperationMode) (s t : State) (j c : Nat) : Int :=
  sext s.bitDepth.toNat (memRead t.dmem (outputAddr s (outputSlot d s j) c) s.sampleBytes)

/-- A loop that began in `s` holds in the ring the samples of the stream up to the last frame
consumed, and has stored the Farrow output of every frame produced. -/
structure Streamed (d : OperationMode) (s : State) (p : Progress) (t : State) : Prop where
  window : ∀ c < s.numChannels.toNat, ∀ k < s.bufferLength.toNat,
    windowSample t c k = streamSample d s c ((p.i : Int) - 1 - k)
  stored : ∀ j < p.j, ∀ c < s.numChannels.toNat, storedSample d s t j c = farrowOutput d s j c

section

variable {d : OperationMode} {s t : State} {p p' : Progress} {f : Nat}

/-- Before the first frame the stream is the ring as the command found it. -/
theorem Streamed.start (d : OperationMode) (s : State) : Streamed d s (startProgress s) s where
  window c _ k _ := by
    have past : ¬ (0 : Int) ≤ ((startProgress s).i : Int) - 1 - k := by
      simp only [startProgress]
      omega
    have age : (-(((startProgress s).i : Int) - 1 - k) - 1).toNat = k := by
      simp only [startProgress]
      omega
    rw [streamSample, if_neg past, age]
  stored _ produced := absurd produced (Nat.not_lt_zero _)

/-! ### The input step -/

/-- What the command has stored so far is outside its input, so an input frame is loaded as the
command found it. -/
theorem inLoad_of_counted (counted : Counted d s p t) (apart : SamplesApart d s) {i c : Nat}
    (frame : i < (framesDone d s).1) (produced : p.j ≤ (framesDone d s).2)
    (used : c < s.numChannels.toNat) :
    inLoad t (inputSlot d s i) c = inLoad s (inputSlot d s i) c := by
  obtain ⟨-, -, -, -, -, -, -, -, depth, -⟩ := counted.stream.fields
  rw [inLoad, inLoad, depth, counted.stream.inputAddr, counted.stream.sampleBytes]
  refine congrArg _ (memRead_congr _ _ fun b inside =>
    counted.frame _ fun j before c' used' b' inside' => ?_)
  exact (apart.input j (by omega) c' used' b' inside' i frame c used b inside).symm

/-- The window after an input step is the one after its frame write. -/
theorem windowSample_trkConsume (d : OperationMode) (f : Nat) (t : State) (c k : Nat) :
    windowSample (trkConsume d f t) c k = windowSample (frameWrite f t) c k := by
  cases d <;> rfl

/-- An input step makes the next sample of the stream the newest one and ages the others (R129). -/
theorem Streamed.consume (h : Streamed d s p t) (counted : Counted d s p t) (ready : ReadyInv t)
    (apart : SamplesApart d s) (i : p'.i = p.i + 1) (j : p'.j = p.j)
    (slot : f = inputSlot d s p.i) (frame : p.i < (framesDone d s).1)
    (produced : p.j ≤ (framesDone d s).2) : Streamed d s p' (trkConsume d f t) where
  window c used k inside := by
    obtain ⟨-, -, -, channels, -, -, -, length, -⟩ := counted.stream.fields
    have used' : c < t.numChannels.toNat := by rwa [channels]
    rw [windowSample_trkConsume, windowSample, i]
    cases k with
    | zero =>
      rw [frameWrite_newest f ready.ringShaped ready.bitDepth ready.cursor used', slot,
        inLoad_of_counted counted apart frame produced used]
      have newest : ((p.i + 1 : Nat) : Int) - 1 - (0 : Nat) = p.i := by omega
      rw [newest, streamSample, if_pos (Int.natCast_nonneg _), Int.toNat_natCast]
    | succ k =>
      rw [frameWrite_older f ready.ringShaped ready.bitDepth ready.cursor used' (by omega)
        (by rwa [length])]
      have older : ((p.i + 1 : Nat) : Int) - 1 - (k + 1 : Nat) = p.i - 1 - k := by omega
      rw [older]
      exact h.window c used k (by omega)
  stored j' before c used := by
    rw [storedSample, trkConsume_dmem]
    exact h.stored j' (j ▸ before) c used

/-! ### The output step -/

/-- The form `BIT_DEPTH` selects is the one of its width (R157). -/
theorem fir_eq_roundAndCast (depth : t.bitDepth = 16 ∨ t.bitDepth = 32) (c : Nat) :
    fir t c = roundAndCast t.bitDepth.toNat (firSum t c) := by
  obtain e | e := depth
  · rw [fir, if_pos e, e]
    rfl
  · rw [fir, e]
    rfl

/-- The taps of a step are those of the table the command found. -/
theorem SameButStream.irgenTap (h : SameButStream s t) (time : Int) (m : Nat) :
    irgenTap t time m = Machine.irgenTap s time m := by
  unfold SameButStream at h
  rw [h]
  rfl

/-- The time of an output step that is due is the fraction of its position, and the frames consumed
are the whole part (R174, R177). -/
theorem Counted.position (counted : Counted d s p t) (nonneg : 0 ≤ t.time d)
    (due : t.time d < (Config.one : Int)) :
    (s.time d + (p.j : Int) * s.increment d) % Config.one = t.time d
      ∧ (s.time d + (p.j : Int) * s.increment d) / Config.one = p.i := by
  have one : (0 : Int) < Config.one := by decide
  have split : s.time d + (p.j : Int) * s.increment d = t.time d + p.i * Config.one := by
    rw [counted.time]
    ring
  rw [split]
  exact ⟨by rw [Int.add_mul_emod_self_right, Int.emod_eq_of_lt nonneg due],
    by rw [Int.add_mul_ediv_right _ _ one.ne', Int.ediv_eq_zero_of_lt nonneg due, zero_add]⟩

/-- The sample of an output step that is due is the Farrow output of the frame it produces. -/
theorem Streamed.fir_eq_farrowOutput (h : Streamed d s p t) (counted : Counted d s p t)
    (ready : ReadyInv t) (due : t.time d < (Config.one : Int)) {c : Nat}
    (used : c < s.numChannels.toNat) : fir (irgen (t.time d) t) c = farrowOutput d s p.j c := by
  obtain ⟨-, -, -, -, -, -, -, length, depth, -, taps, -⟩ := counted.stream.fields
  obtain ⟨fraction, whole⟩ := counted.position (ready.time_bounds d).1 due
  obtain ⟨four_le, le_seven⟩ := ready.numFilters
  have holds := ready.ringHolds
  have products : firSum (irgen (t.time d) t) c
      = ((List.range s.filterLength.toNat).map (fun m =>
          irgenTap s (t.time d) m * streamSample d s c ((p.i : Int) - 1 - m))).sum := by
    rw [firSum, irgen_filterLength, taps]
    refine congrArg List.sum (List.map_congr_left fun m mem => ?_)
    have inside : m < s.filterLength.toNat := List.mem_range.1 mem
    rw [irCell_irgen four_le le_seven _ (by rwa [taps]), counted.stream.irgenTap,
      ← h.window c used m (by rw [taps, length] at holds; omega)]
    rfl
  rw [fir_eq_roundAndCast (t := irgen (t.time d) t) ready.bitDepth, products, irgen_bitDepth, depth,
    farrowOutput, fraction, whole]

/-- The bytes of one frame's channels are apart, as the model computes their addresses (R66). -/
theorem SamplesApart.channels (apart : SamplesApart d s) {j c c' b b' : Nat}
    (frame : j < (framesDone d s).2) (used : c < s.numChannels.toNat)
    (used' : c' < s.numChannels.toNat) (other : c' ≠ c) (inside : b < s.sampleBytes)
    (inside' : b' < s.sampleBytes) :
    outputAddr s (outputSlot d s j) c + BitVec.ofNat 32 b
      ≠ outputAddr s (outputSlot d s j) c' + BitVec.ofNat 32 b' := fun same =>
  other (apart.output j frame c used b inside j frame c' used' b' inside'
    (congrArg BitVec.toNat same)).2.symm

/-- An output step stores the Farrow output of its frame and leaves the frames before it alone. -/
theorem Streamed.emit (h : Streamed d s p t) (counted : Counted d s p t) (ready : ReadyInv t)
    (apart : SamplesApart d s) (i : p'.i = p.i) (j : p'.j = p.j + 1)
    (slot : f = outputSlot d s p.j) (frame : p.j < (framesDone d s).2)
    (due : t.time d < (Config.one : Int)) : Streamed d s p' (trkEmit d f t) where
  window c used k inside := by
    have unread : windowSample (trkEmit d f t) c k = windowSample t c k := by
      rw [trkEmit_eq]
      rfl
    rw [unread, i]
    exact h.window c used k inside
  stored j' before c used := by
    obtain ⟨-, -, -, channels, -, -, -, -, depth, -⟩ := counted.stream.fields
    have bytes := counted.stream.sampleBytes
    have addresses := counted.stream.outputAddr f
    rw [storedSample]
    rcases Nat.lt_or_ge j' p.j with earlier | latest
    · rw [← h.stored j' earlier c used, storedSample]
      refine congrArg _ (memRead_congr _ _ fun b inside =>
        readByte_trkEmit_of_ne d f counted.memory fun c' used' b' inside' same => ?_)
      rw [addresses, slot] at same
      rw [channels] at used'
      rw [bytes] at inside'
      obtain ⟨equal, -⟩ :=
        apart.output j' (by omega) c used b inside p.j frame c' used' b' inside' same
      omega
    · obtain rfl : j' = p.j := by omega
      have sample := trkEmit_sample d f (s := t) (c := c) counted.memory ready.bitDepth
        (by rwa [channels]) fun c' used' other b inside b' inside' => by
          rw [addresses, addresses, slot]
          rw [channels] at used'
          rw [bytes] at inside inside'
          exact apart.channels frame used used' other inside inside'
      rw [depth, addresses, bytes, slot] at sample
      rw [slot, sample]
      exact h.fir_eq_farrowOutput counted ready due used

end

/-! ### The loops -/

section

variable {w : Nat} {s t : State}

theorem requestOf_linear (d : OperationMode) (s : State)
    (linear : (requestOf d s).circular = false) : s.bufferMode = .linear := by
  cases mode : s.bufferMode with
  | linear => rfl
  | circular => exact nomatch linear.symm.trans ((requestOf_circular d s).2 mode)

/-- The secondary side of a push is its output, that of a pull its input (R204). -/
theorem outputSlot_push_circular (circular : s.bufferMode = .circular) (j : Nat) :
    outputSlot .push s j = (s.writeIndex.toNat + j) % s.ioLen.toNat := by
  simp only [outputSlot, circular]
  rfl

theorem outputSlot_push_linear (linear : s.bufferMode = .linear) (j : Nat) :
    outputSlot .push s j = j := by
  simp only [outputSlot, linear]

theorem inputSlot_pull_circular (circular : s.bufferMode = .circular) (i : Nat) :
    inputSlot .pull s i = (s.readIndex.toNat + i) % s.ioLen.toNat := by
  simp only [inputSlot, circular]
  rfl

theorem inputSlot_pull_linear (linear : s.bufferMode = .linear) (i : Nat) :
    inputSlot .pull s i = i := by
  simp only [inputSlot, linear]

theorem pushKeeps_streamed (h : ReadyInv s) (wf : s.params.wf = true)
    (valid : s.bufferMode = .circular → indicesValid s = true) (apart : SamplesApart .push s) :
    PushKeeps (requestOf .push s) (fun p t =>
      (PushCounted s p t ∧ ReadyInv t ∧ t.params.wf = true) ∧ Streamed .push s p t) := by
  obtain ⟨increment, -⟩ := h.increment_bounds wf .push
  have counts := pushKeeps_counted h.cursor increment valid
  have readies := pushKeeps_ready (requestOf .push s)
  refine ⟨fun p t now due more => ?input, fun p t now due circular free => ?outputCircular,
    fun p t now due linear => ?outputLinear⟩ <;> obtain ⟨⟨counted, ready⟩, streamed⟩ := now
  case input =>
    have next := counts.input p t counted due more
    obtain ⟨consumed, produced⟩ := next.within increment
    exact ⟨⟨next, readies.input p t ready due more⟩,
      streamed.consume counted.toCounted ready.1 apart rfl rfl rfl consumed produced⟩
  case outputCircular =>
    have next := counts.outputCircular p t counted due circular free
    have mode := (requestOf_circular .push s).1 circular
    have slot := (counted.room mode).2.trans (outputSlot_push_circular mode p.j).symm
    exact ⟨⟨next, readies.outputCircular p t ready due circular free⟩,
      streamed.emit counted.toCounted ready.1 apart rfl rfl slot (next.within increment).2 due⟩
  case outputLinear =>
    have next := counts.outputLinear p t counted due linear
    have slot := (outputSlot_push_linear (requestOf_linear .push s linear) p.j).symm
    exact ⟨⟨next, readies.outputLinear p t ready due linear⟩,
      streamed.emit counted.toCounted ready.1 apart rfl rfl slot (next.within increment).2 due⟩

theorem pullKeeps_streamed (h : ReadyInv s) (wf : s.params.wf = true)
    (valid : s.bufferMode = .circular → indicesValid s = true) (apart : SamplesApart .pull s) :
    PullKeeps (requestOf .pull s) (fun p t =>
      (PullCounted s p t ∧ ReadyInv t ∧ t.params.wf = true) ∧ Streamed .pull s p t) := by
  obtain ⟨increment, -⟩ := h.increment_bounds wf .pull
  have counts := pullKeeps_counted h.cursor increment valid
  have readies := pullKeeps_ready (requestOf .pull s)
  refine ⟨fun p t now more due circular free => ?inputCircular,
    fun p t now more due linear => ?inputLinear, fun p t now more due => ?output⟩ <;>
    obtain ⟨⟨counted, ready⟩, streamed⟩ := now
  case inputCircular =>
    have next := counts.inputCircular p t counted more due circular free
    obtain ⟨consumed, produced⟩ := next.within increment
    have mode := (requestOf_circular .pull s).1 circular
    have slot := (counted.held mode).2.trans (inputSlot_pull_circular mode p.i).symm
    exact ⟨⟨next, readies.inputCircular p t ready more due circular free⟩,
      streamed.consume counted.toCounted ready.1 apart rfl rfl slot consumed produced⟩
  case inputLinear =>
    have next := counts.inputLinear p t counted more due linear
    obtain ⟨consumed, produced⟩ := next.within increment
    have slot := (inputSlot_pull_linear (requestOf_linear .pull s linear) p.i).symm
    exact ⟨⟨next, readies.inputLinear p t ready more due linear⟩,
      streamed.consume counted.toCounted ready.1 apart rfl rfl slot consumed produced⟩
  case output =>
    have next := counts.output p t counted more due
    exact ⟨⟨next, readies.output p t ready more due⟩,
      streamed.emit counted.toCounted ready.1 apart rfl rfl rfl (next.within increment).2 due⟩

/-- Where an allowed push answers, every frame of its count is stored. -/
theorem stored_of_execPush (h : ReadyInv s) (wf : s.params.wf = true) (canonical : s.dmem.wf = true)
    (allowed : ProcessingAllowed w .push s) (apart : SamplesApart .push s)
    (answer : execPush w s = .next t) {j c : Nat} (frame : j < (framesDone .push s).2)
    (used : c < s.numChannels.toNat) : storedSample .push s t j c = farrowOutput .push s j c := by
  obtain ⟨increment, -⟩ := h.increment_bounds wf .push
  have valid := fun circular => allowed.indicesValid (w := w) circular
  obtain ⟨p, u, ended, rfl⟩ := run_of_execPush allowed answer
  obtain ⟨⟨⟨counted, -⟩, streamed⟩, stopped⟩ := pushLoop_keeps (pushKeeps_streamed h wf valid apart)
    ⟨⟨PushCounted.start canonical h.cursor valid, h, wf⟩, Streamed.start .push s⟩ ended
  rw [← counted.stopped increment stopped valid] at frame
  rw [pushDone_eq]
  exact streamed.stored j frame c used

theorem stored_of_execPull (h : ReadyInv s) (wf : s.params.wf = true) (canonical : s.dmem.wf = true)
    (allowed : ProcessingAllowed w .pull s) (apart : SamplesApart .pull s)
    (answer : execPull w s = .next t) {j c : Nat} (frame : j < (framesDone .pull s).2)
    (used : c < s.numChannels.toNat) : storedSample .pull s t j c = farrowOutput .pull s j c := by
  obtain ⟨increment, -⟩ := h.increment_bounds wf .pull
  have valid := fun circular => allowed.indicesValid (w := w) circular
  obtain ⟨p, u, ended, rfl⟩ := run_of_execPull allowed answer
  obtain ⟨⟨⟨counted, -⟩, streamed⟩, stopped⟩ := pullLoop_keeps (pullKeeps_streamed h wf valid apart)
    ⟨⟨PullCounted.start canonical h.cursor valid, h, wf⟩, Streamed.start .pull s⟩ ended
  rw [← counted.stopped increment stopped] at frame
  rw [pullDone_eq]
  exact streamed.stored j frame c used

end

/-- Settles O39: the invariant of the loop of the command's direction, where the loop ends. -/
theorem outputIsTheFarrowConvolution : Obligations.OutputIsTheFarrowConvolution := by
  rintro ⟨i, w, d⟩ command s t h wf canonical allowed input output answer j frame c used
  obtain ⟨rfl, push⟩ | ⟨rfl, pull⟩ := directed_cases command
  · rw [exec_of_mem_pushCommands push] at answer
    exact stored_of_execPush h wf canonical allowed ⟨input, output⟩ answer frame used
  · rw [exec_of_mem_pullCommands pull] at answer
    exact stored_of_execPull h wf canonical allowed ⟨input, output⟩ answer frame used

end Sys2Proof.Machine
end
